-- ==== Sys2Proof/Word.lean ====
section
/-! DEFINITION. The 32-bit word of the block (decisions D5, D13, D14) and its plainest arithmetic (R13). -/

namespace Sys2Proof

/-- A controller register, a command word, a response entry or a host variable: 32 bits (R15, R47). -/
abbrev Word := BitVec 32

/-- The word with bits `n-1` down to 0 set and every other bit clear. -/
def Word.lowMask (n : Nat) : Word := BitVec.ofNat 32 (2 ^ n - 1)

/-- `trunc_n(v)` of R13, kept in a word whose upper bits are 0. -/
def Word.trunc (n : Nat) (v : Word) : Word := v &&& Word.lowMask n

/-- The word has exactly one bit set. -/
def Word.OneBit (v : Word) : Prop := ∃ k : Fin 32, v = BitVec.twoPow 32 k.val

end Sys2Proof
end

