-- ==== Sys2Proof/Syntax.lean ====
section
/-! DEFINITION. The interface operations of 30_encoding.md: one constructor per row of spec/opcode_table.json. -/

namespace Sys2Proof

/-- The two converter units (R37): A is index 0, B is index 1. -/
inductive ConvUnit where
  | A
  | B
  deriving DecidableEq, Repr

/-- The unit's index (R37), and the value of the `U` bit that selects it (R82). -/
def ConvUnit.index : ConvUnit → Nat
  | .A => 0
  | .B => 1

/-- A host variable's 3-bit index (R20, R83). -/
abbrev HostVar := Fin 8

/-- A converter register index, held in the 16 bits of `IMM16` (R82, `REG_W <= 16`). -/
abbrev RegIndex := BitVec 16

/-- The interface operations (R84). -/
inductive Instr where
  /-- `QEN xS1, xS2` (R101). -/
  | qen (rs1 rs2 : HostVar)
  /-- `QDIS` (R103). -/
  | qdis
  /-- `QPUSH xS1` (R111). -/
  | qpush (rs1 : HostVar)
  /-- `QWAIT imm16` (R115). -/
  | qwait (imm : BitVec 16)
  /-- `QPOP xD` (R119). -/
  | qpop (rd : HostVar)
  /-- `CALC xD, xD2, xS1, xS2` (R171). -/
  | calcGain (rd rd2 rs1 rs2 : HostVar)
  /-- `REGWR U, reg, xS1` (R190). -/
  | regwr (u : ConvUnit) (reg : RegIndex) (rs1 : HostVar)
  /-- `PWRON` (R192). -/
  | pwron
  /-- `PWROFF` (R194). -/
  | pwroff
  /-- `CALIB U` (R196). -/
  | calib (u : ConvUnit)
  /-- `BRINGUP` (R203). -/
  | bringup
  /-- `LI xD, imm16` (R122). -/
  | li (rd : HostVar) (imm : BitVec 16)
  deriving DecidableEq, Repr

/-- The mnemonics of spec/opcode_table.json (R84). -/
inductive Mnemonic where
  | QEN
  | QDIS
  | QPUSH
  | QWAIT
  | QPOP
  | CALC
  | REGWR
  | PWRON
  | PWROFF
  | CALIB
  | BRINGUP
  | LI
  deriving DecidableEq, Repr

/-- The mnemonic of an instruction (R84). -/
def Instr.mnemonic : Instr → Mnemonic
  | .qen _ _ => .QEN
  | .qdis => .QDIS
  | .qpush _ => .QPUSH
  | .qwait _ => .QWAIT
  | .qpop _ => .QPOP
  | .calcGain _ _ _ _ => .CALC
  | .regwr _ _ _ => .REGWR
  | .pwron => .PWRON
  | .pwroff => .PWROFF
  | .calib _ => .CALIB
  | .bringup => .BRINGUP
  | .li _ _ => .LI

end Sys2Proof
end

