-- ==== Sys2Proof/Config.lean ====
section
/-! DEFINITION. What an implementation fixes (R9, R10) and the free values the spec leaves to a draw.
The spec's open parameters are the fields of `Params`; their constraints are `Params.Lawful`; the machine runs with
`Config.params`, which is ANY lawful choice (DESIGN CHOICE, assumption 10). -/

namespace Sys2Proof

/-- The eight controller registers (R23). -/
inductive Reg where
  | ctrl
  | notify
  | status
  | flags
  | push
  | txcnt
  | rxcnt
  | pop
  deriving DecidableEq, Repr

/-- The precision modes: default 12-bit, alternate-1 10-bit, alternate-2 8-bit (R9, R39). -/
inductive PrecMode where
  | dflt
  | alt1
  | alt2
  deriving DecidableEq, Repr

/-- The calibration points (R9): 25% and 75% of the reference window. -/
inductive SamplePoint where
  | p25
  | p75
  deriving DecidableEq, Repr

/-- The nine named converter registers of a unit (R38, R39, R40). -/
inductive NamedReg where
  | cr
  | acr1
  | acr2
  | gcc (m : PrecMode)
  | occ (m : PrecMode)
  deriving DecidableEq, Repr

/-- The engine's reading of a command word (R90). -/
inductive CmdKind where
  | write (u : ConvUnit) (r : RegIndex) (v : Word)
  | sample (u : ConvUnit) (p : SamplePoint)
  | read (u : ConvUnit) (r : RegIndex)
  | unknown
  deriving DecidableEq, Repr

/-- The platform's byte order (R60): no rule depends on it. -/
inductive ByteOrder where
  | little
  | big
  deriving DecidableEq, Repr

/-- The values the source fixes (R9). -/
def Config.cmdDepth : Nat := 4
/-- `GAIN_NUM` (R9). -/
def Config.gainNum : Word := 0x08000000#32
/-- `OFFSET_K` (R9). -/
def Config.offsetK : Word := 12286#32
/-- `SHIFT` (R9). -/
def Config.shift : Nat := 14

/-- The open parameters of R10. A field position is given as the mask of its bits (DESIGN CHOICE, assumption 11), and an encoding
of MODE stands in its place in the word. -/
structure Params where
  /-- `RESP_DEPTH`. -/
  respDepth : Nat
  /-- `FLAG_W`. -/
  flagW : Nat
  /-- `CTRL_MODE_FIELD`. -/
  modeMask : Word
  /-- `CTRL_INV_BIT`. -/
  invMask : Word
  /-- `MODE_DISABLED`. -/
  modeDisabled : Word
  /-- `MODE_SWSS`. -/
  modeSwss : Word
  /-- `encWrite(u, r, v)` (R90). -/
  encWrite : ConvUnit → RegIndex → Word → Word
  /-- `encSample25(u)` (R90). -/
  encSample25 : ConvUnit → Word
  /-- `encSample75(u)` (R90). -/
  encSample75 : ConvUnit → Word
  /-- `decodeCmd(w)` (R90). -/
  decodeCmd : Word → CmdKind
  /-- `PAYLOAD_W`. -/
  payloadW : Nat
  /-- `REG_W`. -/
  regW : Nat
  /-- `REG_CR`, `REG_ACR1`, `REG_ACR2`, `REG_GCC[m]`, `REG_OCC[m]`. -/
  reg : NamedReg → RegIndex
  /-- `PRESCALE`. -/
  prescale : Word
  /-- `EN_BIT`. -/
  enBit : Word
  /-- `RES10`. -/
  res10 : Word
  /-- `RES8`. -/
  res8 : Word
  /-- `ADDR(R)`. -/
  addr : Reg → Nat
  /-- `UNITS`: is the unit configured? -/
  units : ConvUnit → Bool
  /-- `POLL_BOUND`. -/
  pollBound : Option Nat
  /-- `BYTE_ORDER`: unobservable (R60), so nothing reads it. -/
  byteOrder : ByteOrder
  /-- `RESPOND_WHEN_DISABLED` (R154). -/
  respondWhenDisabled : Bool
  /-- `IDLE_MASK(Q)` (R27). -/
  idleMask : Word
  /-- `COUNT_W`. -/
  countW : Nat
  /-- The value each converter register holds after reset: unspecified (R37, R250; DESIGN CHOICE, assumption 8). -/
  convReset : ConvUnit → RegIndex → Word

/-- The constraints R10 and R91 put on the parameters. Law 3 of R91 follows from laws 1 and 2. -/
structure Params.Lawful (P : Params) : Prop where
  respDepth_ge : 2 ≤ P.respDepth
  flagW_pos : 1 ≤ P.flagW
  flagW_le : P.flagW ≤ 32
  mode_inv_disjoint : P.modeMask &&& P.invMask = 0#32
  inv_oneBit : P.invMask.OneBit
  modeDisabled_in : P.modeDisabled &&& P.modeMask = P.modeDisabled
  modeSwss_in : P.modeSwss &&& P.modeMask = P.modeSwss
  modes_distinct : P.modeDisabled ≠ P.modeSwss
  payloadW_le : P.payloadW ≤ 32
  regW_le : P.regW ≤ 16
  /-- R91 law 1. -/
  decode_encWrite : ∀ u r v, r.toNat < 2 ^ P.regW →
    P.decodeCmd (P.encWrite u r v) = .write u r (Word.trunc P.payloadW v)
  /-- R91 law 2. -/
  decode_encSample25 : ∀ u, P.decodeCmd (P.encSample25 u) = .sample u .p25
  /-- R91 law 2. -/
  decode_encSample75 : ∀ u, P.decodeCmd (P.encSample75 u) = .sample u .p75
  /-- A decoded payload is a `PayloadWord` and its register a `RegIndex` (the types of R90; DEDUCED, assumption 13). -/
  decode_write_fits : ∀ w u r v, P.decodeCmd w = .write u r v →
    r.toNat < 2 ^ P.regW ∧ Word.trunc P.payloadW v = v
  /-- A decoded read names a `RegIndex` (the types of R90; DEDUCED, assumption 13). -/
  decode_read_fits : ∀ w u r, P.decodeCmd w = .read u r → r.toNat < 2 ^ P.regW
  reg_injective : ∀ a b, P.reg a = P.reg b → a = b
  reg_in_set : ∀ n, (P.reg n).toNat < 2 ^ P.regW
  prescale_en_disjoint : P.prescale &&& P.enBit = 0#32
  /-- DEDUCED, assumption 12. -/
  en_oneBit : P.enBit.OneBit
  /-- DEDUCED, assumption 12. -/
  prescale_fits : Word.trunc P.payloadW P.prescale = P.prescale
  /-- DEDUCED, assumption 12. -/
  enBit_fits : Word.trunc P.payloadW P.enBit = P.enBit
  /-- DEDUCED, assumption 12. -/
  res10_fits : Word.trunc P.payloadW P.res10 = P.res10
  /-- DEDUCED, assumption 12. -/
  res8_fits : Word.trunc P.payloadW P.res8 = P.res8
  addr_injective : ∀ a b, P.addr a = P.addr b → a = b
  addr_aligned : ∀ r, P.addr r % 4 = 0
  pollBound_pos : ∀ k, P.pollBound = some k → 1 ≤ k
  idle_oneBit : P.idleMask.OneBit
  countW_le : P.countW ≤ 32
  countW_respDepth : P.respDepth < 2 ^ P.countW
  countW_cmdDepth : 4 < 2 ^ P.countW
  convReset_fits : ∀ u r, Word.trunc P.payloadW (P.convReset u r) = P.convReset u r

/-- `encWrite` of the example binding E (95_test_vectors.md §0). -/
def Config.encWriteE (u : ConvUnit) (r : RegIndex) (v : Word) : Word :=
  0x80000000#32 ||| (BitVec.ofNat 32 u.index <<< 30) ||| (((r.setWidth 6).setWidth 32) <<< 24) ||| (v &&& 0xFFFFFF#32)

/-- `decodeCmd` of the example binding E. -/
def Config.decodeCmdE (w : Word) : CmdKind :=
  let u : ConvUnit := if w.getLsbD 30 then .B else .A
  if w.getLsbD 31 then .write u ((w.extractLsb' 24 6).setWidth 16) (w &&& 0xFFFFFF#32)
  else if w &&& 0x3FFFFFFF#32 = 1#32 then .sample u .p25
  else if w &&& 0x3FFFFFFF#32 = 2#32 then .sample u .p75
  else if w &&& 0x00FFFFFF#32 = 3#32 then .read u ((w.extractLsb' 24 6).setWidth 16)
  else .unknown

/-- The register indices of the example binding E. -/
def Config.regE : NamedReg → RegIndex
  | .cr => 0
  | .acr1 => 1
  | .acr2 => 2
  | .gcc .dflt => 4
  | .occ .dflt => 5
  | .gcc .alt1 => 6
  | .occ .alt1 => 7
  | .gcc .alt2 => 8
  | .occ .alt2 => 9

/-- The example binding E of 95_test_vectors.md §0, for tests. What E leaves open (addresses, units,
`RESPOND_WHEN_DISABLED`, the reset contents of conv) is filled in here for the tests only. -/
def Config.bindingE : Params where
  respDepth := 4
  flagW := 4
  modeMask := 0xF#32
  invMask := 0x10#32
  modeDisabled := 0#32
  modeSwss := 1#32
  encWrite := Config.encWriteE
  encSample25 u := (BitVec.ofNat 32 u.index <<< 30) ||| 1#32
  encSample75 u := (BitVec.ofNat 32 u.index <<< 30) ||| 2#32
  decodeCmd := Config.decodeCmdE
  payloadW := 24
  regW := 6
  reg := Config.regE
  prescale := 0x06#32
  enBit := 0x80#32
  res10 := 0x1#32
  res8 := 0x2#32
  addr
    | .ctrl => 0
    | .notify => 4
    | .status => 8
    | .flags => 12
    | .push => 16
    | .txcnt => 20
    | .rxcnt => 24
    | .pop => 28
  units _ := true
  pollBound := none
  byteOrder := .little
  respondWhenDisabled := true
  idleMask := 1#32
  countW := 8
  convReset _ _ := 0#32

theorem Word.trunc_24_eq (v : Word) : Word.trunc 24 v = v &&& 0xFFFFFF#32 := rfl

theorem Config.decodeCmdE_encWriteE (u : ConvUnit) (r : RegIndex) (v : Word) (hr : r.toNat < 64) :
    Config.decodeCmdE (Config.encWriteE u r v) = .write u r (Word.trunc 24 v) := by
  have h31 : (Config.encWriteE u r v).getLsbD 31 = true := by simp [Config.encWriteE]
  have h30 : (Config.encWriteE u r v).getLsbD 30 = decide (u = .B) := by
    cases u <;> simp [Config.encWriteE, ConvUnit.index]
  have hr' : ((Config.encWriteE u r v).extractLsb' 24 6).setWidth 16 = r := by
    apply BitVec.eq_of_getLsbD_eq
    intro i hi
    by_cases h6 : i < 6
    · have : i = 0 ∨ i = 1 ∨ i = 2 ∨ i = 3 ∨ i = 4 ∨ i = 5 := by omega
      rcases this with rfl | rfl | rfl | rfl | rfl | rfl <;>
        cases u <;> simp [Config.encWriteE, ConvUnit.index]
    · have : r.getLsbD i = false :=
        Nat.testBit_lt_two_pow (lt_of_lt_of_le hr (Nat.pow_le_pow_right (n := 2) (i := 6) (by omega) (by omega)))
      simp [this, h6]
  have hv : Config.encWriteE u r v &&& 0xFFFFFF#32 = v &&& 0xFFFFFF#32 := by
    apply BitVec.eq_of_getLsbD_eq
    intro i hi
    interval_cases i <;> cases u <;> simp [Config.encWriteE, ConvUnit.index]
  simp only [Config.decodeCmdE, h31, h30, hr', hv, Word.trunc_24_eq]
  cases u <;> simp

theorem Config.decodeCmdE_range (w : Word) :
    (∀ u r v, Config.decodeCmdE w = .write u r v → r.toNat < 64 ∧ Word.trunc 24 v = v) ∧
      ∀ u r, Config.decodeCmdE w = .read u r → r.toNat < 64 := by
  have hlt : ((w.extractLsb' 24 6).setWidth 16).toNat < 64 := by
    have := (w.extractLsb' 24 6).isLt
    simp only [BitVec.toNat_setWidth]
    omega
  have hm : Word.trunc 24 (w &&& 0xFFFFFF#32) = w &&& 0xFFFFFF#32 := by
    rw [Word.trunc_24_eq, BitVec.and_assoc]; rfl
  unfold Config.decodeCmdE
  constructor
  · intro u r v h
    dsimp only at h
    repeat' split at h
    all_goals simp only [CmdKind.write.injEq, reduceCtorEq] at h
    all_goals (obtain ⟨-, rfl, rfl⟩ := h; exact ⟨hlt, hm⟩)
  · intro u r h
    dsimp only at h
    repeat' split at h
    all_goals simp only [CmdKind.read.injEq, reduceCtorEq] at h
    all_goals (obtain ⟨-, rfl⟩ := h; exact hlt)

theorem Config.bindingE_lawful : Config.bindingE.Lawful where
  respDepth_ge := by decide
  flagW_pos := by decide
  flagW_le := by decide
  mode_inv_disjoint := by decide
  inv_oneBit := ⟨4, by decide⟩
  modeDisabled_in := by decide
  modeSwss_in := by decide
  modes_distinct := by decide
  payloadW_le := by decide
  regW_le := by decide
  decode_encWrite u r v hr := Config.decodeCmdE_encWriteE u r v hr
  decode_encSample25 u := by cases u <;> decide
  decode_encSample75 u := by cases u <;> decide
  decode_write_fits w u r v h := (Config.decodeCmdE_range w).1 u r v h
  decode_read_fits w u r h := (Config.decodeCmdE_range w).2 u r h
  reg_injective a b h := by
    rcases a with _ | _ | _ | (_ | _ | _) | (_ | _ | _) <;>
      rcases b with _ | _ | _ | (_ | _ | _) | (_ | _ | _) <;> first | rfl | (revert h; decide)
  reg_in_set n := by rcases n with _ | _ | _ | (_ | _ | _) | (_ | _ | _) <;> decide
  prescale_en_disjoint := by decide
  en_oneBit := ⟨7, by decide⟩
  prescale_fits := by decide
  enBit_fits := by decide
  res10_fits := by decide
  res8_fits := by decide
  addr_injective a b h := by cases a <;> cases b <;> first | rfl | (revert h; decide)
  addr_aligned r := by cases r <;> decide
  pollBound_pos k h := by simp [Config.bindingE] at h
  idle_oneBit := ⟨0, by decide⟩
  countW_le := by decide
  countW_respDepth := by decide
  countW_cmdDepth := by decide
  convReset_fits u r := by simp [Config.bindingE, Word.trunc]

/-- The implementation's choice of the open parameters: unknown, and lawful where it is given (DESIGN CHOICE, assumption 10). -/
opaque Config.chosen : Option { P : Params // P.Lawful }

/-- The parameters the machine runs with: ANY lawful choice. The fallback only makes the definition total: nothing
can evaluate `Config.chosen`, so nothing proved of `Config.params` can rest on it. -/
def Config.params : Params :=
  match Config.chosen with
  | some P => P.val
  | none => Config.bindingE

theorem Config.params_lawful : Config.params.Lawful := by
  unfold Config.params
  split
  · exact Subtype.property _
  · exact Config.bindingE_lawful

/-- Weak fairness as a law on a schedule, the number of engine steps in each of its turns: a turn with one always comes
again (R150). -/
def FairSchedule (f : Nat → Nat) : Prop := ∀ n, ∃ m, n ≤ m ∧ 0 < f m

/-- The schedule: unknown, and fair where it is given (DESIGN CHOICE, assumptions 3 and 17). -/
opaque Config.chosenSchedule : Option { f : Nat → Nat // FairSchedule f }

/-- The scheduler's free answers (R12, R148): how many engine steps fall in each of its turns, ANY fair schedule (R150).
The fallback only makes the definition total: nothing can evaluate `Config.chosenSchedule`. -/
def Config.freeEngineSteps : Nat → Nat :=
  match Config.chosenSchedule with
  | some f => f.val
  | none => fun _ => 1

theorem Config.freeEngineSteps_fair : FairSchedule Config.freeEngineSteps := by
  unfold Config.freeEngineSteps
  split
  · exact Subtype.property _
  · exact fun n => ⟨n, Nat.le_refl n, Nat.one_pos⟩

/-- The oracle's free answers to sample and read commands (R143, R144). -/
opaque Config.freeResponse : Nat → Word

/-- The flag bits the oracle lets an engine step set (R146). -/
opaque Config.freeFlags : Nat → Word

/-- The bits of a `CQ_STATUS` read other than IDLE (R27). -/
opaque Config.freeStatusBits : Nat → Word

/-- What `CQ_CTRL` holds after reset (R250: unspecified). -/
opaque Config.resetCtrl : Word

/-- What `CQ_NOTIFY` holds after reset (R250: unspecified). -/
opaque Config.resetNotify : Word

/-- What `CQ_FLAGS` holds after reset (R250: unspecified). -/
opaque Config.resetFlags : Word

/-- What the command FIFO holds after reset (R250: unspecified). -/
opaque Config.resetCmdFifo : List Word

/-- What the busy slot holds after reset (R250: unspecified). -/
opaque Config.resetBusy : Option Word

/-- What the response FIFO holds after reset (R250: unspecified). -/
opaque Config.resetRespFifo : List Word

end Sys2Proof
end

