-- ==== Sys2Proof/Machine/Conv.lean ====
section
/-! DEFINITION. The converter units' register files (R37 to R41): a sparse list of cells in one canonical form. -/

namespace Sys2Proof.Machine

/-- One converter register that holds something other than its reset value. -/
structure ConvCell where
  unit : ConvUnit
  reg : RegIndex
  value : Word
  deriving DecidableEq, Repr

/-- The place of a register in the list: unit A before unit B, then by index. -/
def convRank (u : ConvUnit) (r : RegIndex) : Nat := u.index * 65536 + r.toNat

/-- The place of a cell in the list. -/
def cellRank (c : ConvCell) : Nat := convRank c.unit c.reg

/-- Both units' register files: cells in rising place, none holding its register's reset value (`convWf`). -/
abbrev ConvFile := List ConvCell

/-- The canonical form: places strictly rising, no cell equal to what an unlisted register reads as, every cell a
register of the index set with a payload in it. -/
abbrev convWf (P : Params) (f : ConvFile) : Prop :=
  f.Pairwise (fun a b => cellRank a < cellRank b) ∧
    ∀ c ∈ f, c.value ≠ P.convReset c.unit c.reg ∧ c.reg.toNat < 2 ^ P.regW ∧ Word.trunc P.payloadW c.value = c.value

/-- `conv[u][r]` (R37): an unlisted register holds its reset value. -/
def convRead (P : Params) (u : ConvUnit) (r : RegIndex) : ConvFile → Word
  | [] => P.convReset u r
  | c :: cs => if cellRank c = convRank u r then c.value else convRead P u r cs

/-- Put a cell in its place, over the one that stood there. -/
def convPut (n : ConvCell) : ConvFile → ConvFile
  | [] => [n]
  | c :: cs =>
    if cellRank n < cellRank c then n :: c :: cs
    else if cellRank c = cellRank n then n :: cs
    else c :: convPut n cs

/-- Take away what stands at a place. -/
def convDrop (k : Nat) (f : ConvFile) : ConvFile := f.filter fun c => cellRank c != k

/-- `conv[u][r] <- v` (R141), keeping the canonical form. -/
def convWrite (P : Params) (u : ConvUnit) (r : RegIndex) (v : Word) (f : ConvFile) : ConvFile :=
  if v = P.convReset u r then convDrop (convRank u r) f else convPut ⟨u, r, v⟩ f

/-- `enabled(u)`: the enable bit of the unit's control register (R38). -/
def unitEnabled (P : Params) (u : ConvUnit) (f : ConvFile) : Bool :=
  convRead P u (P.reg .cr) f &&& P.enBit != 0#32

end Sys2Proof.Machine
end

