-- ==== Sys2Proof/WellFormed.lean ====
section
/-! DEFINITION. The well-formedness of an instruction beyond what its type says. A host variable index, a unit and a
16-bit immediate are bounded by their types; the one check left is R83: a `REGWR` register index is below `2^REG_W`. -/

namespace Sys2Proof

/-- Is the instruction well formed for the parameters `P` (R82, R83)? -/
def Instr.wellFormedIn (P : Params) : Instr → Bool
  | .regwr _ reg _ => decide (reg.toNat < 2 ^ P.regW)
  | .qen _ _ => true
  | .qdis => true
  | .qpush _ => true
  | .qwait _ => true
  | .qpop _ => true
  | .calcGain _ _ _ _ => true
  | .pwron => true
  | .pwroff => true
  | .calib _ => true
  | .bringup => true
  | .li _ _ => true

/-- Well formed for the machine's own parameters. -/
abbrev Instr.WellFormed (i : Instr) : Prop := i.wellFormedIn Config.params = true

end Sys2Proof
end

