-- ==== Sys2Proof/Decode.lean ====
section
/-! DEFINITION. The decoder and the encoder of the interface operation word (30_encoding.md R80 to R86). -/

namespace Sys2Proof

/-- `w[hi:lo]` as an unsigned value (R13). -/
def bits (w : Word) (hi lo : Nat) : Nat := w.toNat / 2 ^ lo % 2 ^ (hi + 1 - lo)

/-- Why a word spells no operation (R86). -/
inductive Reject where
  /-- `OP` is 0x0, 0xD, 0xE or 0xF. -/
  | reservedOp (op : Nat)
  /-- `OP` is assigned but a must-be-zero field is not zero. -/
  | mustBeZero (op : Nat)
  deriving DecidableEq, Repr

/-- The host variable a 3-bit field names (R83). -/
def hostVarAt (n : Nat) : HostVar := ⟨n % 8, Nat.mod_lt n (by decide)⟩

/-- The unit the `U` bit names: 0 = A, 1 = B (R82). -/
def unitAt (n : Nat) : ConvUnit := if n = 0 then .A else .B

/-- `RD` (R81). -/
def fieldRD (w : Word) : HostVar := hostVarAt (bits w 27 25)
/-- `RS1` (R81, R82). -/
def fieldRS1 (w : Word) : HostVar := hostVarAt (bits w 24 22)
/-- `RS2` (R81). -/
def fieldRS2 (w : Word) : HostVar := hostVarAt (bits w 21 19)
/-- `RD2` (R81). -/
def fieldRD2 (w : Word) : HostVar := hostVarAt (bits w 18 16)
/-- `IMM16` (R81, R82). -/
def fieldIMM16 (w : Word) : BitVec 16 := BitVec.ofNat 16 (bits w 15 0)
/-- `U` (R82). -/
def fieldU (w : Word) : ConvUnit := unitAt (bits w 25 25)

/-- The instruction, where the fields it does not use are zero (R86). -/
def requireZero (op : Nat) (zero : Bool) (i : Instr) : Except Reject Instr :=
  if zero then .ok i else .error (.mustBeZero op)

/-- The decoder (R84, R86): the whole word is read, and a word that spells no operation is rejected by name. -/
def decode (w : Word) : Except Reject Instr :=
  match bits w 31 28 with
  | 0x1 => requireZero 0x1 (bits w 27 25 == 0 && bits w 18 0 == 0) (.qen (fieldRS1 w) (fieldRS2 w))
  | 0x2 => requireZero 0x2 (bits w 27 0 == 0) .qdis
  | 0x3 => requireZero 0x3 (bits w 27 25 == 0 && bits w 21 0 == 0) (.qpush (fieldRS1 w))
  | 0x4 => requireZero 0x4 (bits w 27 16 == 0) (.qwait (fieldIMM16 w))
  | 0x5 => requireZero 0x5 (bits w 24 0 == 0) (.qpop (fieldRD w))
  | 0x6 => requireZero 0x6 (bits w 15 0 == 0) (.calcGain (fieldRD w) (fieldRD2 w) (fieldRS1 w) (fieldRS2 w))
  | 0x7 => requireZero 0x7 (bits w 27 26 == 0 && bits w 21 16 == 0) (.regwr (fieldU w) (fieldIMM16 w) (fieldRS1 w))
  | 0x8 => requireZero 0x8 (bits w 27 0 == 0) .pwron
  | 0x9 => requireZero 0x9 (bits w 27 0 == 0) .pwroff
  | 0xA => requireZero 0xA (bits w 27 26 == 0 && bits w 24 0 == 0) (.calib (fieldU w))
  | 0xB => requireZero 0xB (bits w 27 0 == 0) .bringup
  | 0xC => requireZero 0xC (bits w 24 16 == 0) (.li (fieldRD w) (fieldIMM16 w))
  | op => .error (.reservedOp op)

/-- A word of format R (R81). -/
def wordR (op rd rs1 rs2 rd2 imm : Nat) : Word :=
  BitVec.ofNat 32 (op * 2 ^ 28 + rd * 2 ^ 25 + rs1 * 2 ^ 22 + rs2 * 2 ^ 19 + rd2 * 2 ^ 16 + imm)

/-- A word of format U (R82), `Z` and `Z2` zero. -/
def wordU (op u rs1 imm : Nat) : Word :=
  BitVec.ofNat 32 (op * 2 ^ 28 + u * 2 ^ 25 + rs1 * 2 ^ 22 + imm)

/-- The encoder (R81, R82, R84), every unused field zero. -/
def encode : Instr → Word
  | .qen rs1 rs2 => wordR 0x1 0 rs1 rs2 0 0
  | .qdis => wordR 0x2 0 0 0 0 0
  | .qpush rs1 => wordR 0x3 0 rs1 0 0 0
  | .qwait imm => wordR 0x4 0 0 0 0 imm.toNat
  | .qpop rd => wordR 0x5 rd 0 0 0 0
  | .calcGain rd rd2 rs1 rs2 => wordR 0x6 rd rs1 rs2 rd2 0
  | .regwr u reg rs1 => wordU 0x7 u.index rs1 reg.toNat
  | .pwron => wordR 0x8 0 0 0 0 0
  | .pwroff => wordR 0x9 0 0 0 0 0
  | .calib u => wordU 0xA u.index 0 0
  | .bringup => wordR 0xB 0 0 0 0 0
  | .li rd imm => wordR 0xC rd 0 0 0 imm.toNat

/-- The `OP` of R84. -/
def opOf : Mnemonic → Nat
  | .QEN => 0x1
  | .QDIS => 0x2
  | .QPUSH => 0x3
  | .QWAIT => 0x4
  | .QPOP => 0x5
  | .CALC => 0x6
  | .REGWR => 0x7
  | .PWRON => 0x8
  | .PWROFF => 0x9
  | .CALIB => 0xA
  | .BRINGUP => 0xB
  | .LI => 0xC

/-- The `match` column of R85. -/
def matchOf : Mnemonic → Word
  | .QEN => 0x10000000#32
  | .QDIS => 0x20000000#32
  | .QPUSH => 0x30000000#32
  | .QWAIT => 0x40000000#32
  | .QPOP => 0x50000000#32
  | .CALC => 0x60000000#32
  | .REGWR => 0x70000000#32
  | .PWRON => 0x80000000#32
  | .PWROFF => 0x90000000#32
  | .CALIB => 0xA0000000#32
  | .BRINGUP => 0xB0000000#32
  | .LI => 0xC0000000#32

/-- The `mask` column of R85. -/
def maskOf : Mnemonic → Word
  | .QEN => 0xFE07FFFF#32
  | .QDIS => 0xFFFFFFFF#32
  | .QPUSH => 0xFE3FFFFF#32
  | .QWAIT => 0xFFFF0000#32
  | .QPOP => 0xF1FFFFFF#32
  | .CALC => 0xF000FFFF#32
  | .REGWR => 0xFC3F0000#32
  | .PWRON => 0xFFFFFFFF#32
  | .PWROFF => 0xFFFFFFFF#32
  | .CALIB => 0xFDFFFFFF#32
  | .BRINGUP => 0xFFFFFFFF#32
  | .LI => 0xF1FF0000#32

/-- The instruction the decoder reads from a word given as a number, bit 0 the least significant; an interface
operation word is one 32-bit value (R61, R80), so there is no byte order to lay out. -/
def decodeTableWord (nbits w : Nat) : Option Instr :=
  match decode (BitVec.ofNat 32 (w % 2 ^ nbits)) with
  | .ok i => some i
  | .error _ => none

end Sys2Proof
end

