-- ==== Sys2Proof/Machine/Fields.lean ====
section
/-! DEFINITION. The fields of the controller's words (R13, R23 to R28, R35, R93), read and built in one place. -/

namespace Sys2Proof.Machine

/-- The queue's mode (R24). Every mode other than `disabled` is an enabled mode. -/
inductive Mode where
  | disabled
  | swss
  /-- `MODE_OTHER(k)`: `k` is the MODE field's bits in their place. -/
  | other (k : Word)
  deriving DecidableEq, Repr

/-- What `CQ_CTRL` stores (R24, R47): INV is a strobe and is not stored. -/
structure Ctrl where
  mode : Mode
  other : Word
  deriving DecidableEq, Repr

/-- `FLAG_CLEAR_ALL`: all ones over `FLAG_W` bits (R28). -/
def flagClearAll (P : Params) : Word := Word.lowMask P.flagW

/-- The mode a MODE field encodes (R24). -/
def modeOfBits (P : Params) (v : Word) : Mode :=
  if v = P.modeDisabled then .disabled else if v = P.modeSwss then .swss else .other v

/-- The MODE field that encodes a mode (R24). -/
def modeBits (P : Params) : Mode → Word
  | .disabled => P.modeDisabled
  | .swss => P.modeSwss
  | .other k => k

/-- What a write of `v` to `CQ_CTRL` stores (R25). -/
def ctrlOfWord (P : Params) (v : Word) : Ctrl :=
  { mode := modeOfBits P (v &&& P.modeMask), other := v &&& ~~~(P.modeMask ||| P.invMask) }

/-- What a read of `CQ_CTRL` returns (R24): INV reads 0. -/
def ctrlWord (P : Params) (c : Ctrl) : Word := modeBits P c.mode ||| c.other

/-- `v.INV` (R25). -/
def invSet (P : Params) (v : Word) : Bool := v &&& P.invMask != 0#32

/-- `CTRL_DIS` (R93). -/
def ctrlDis (P : Params) : Word := P.modeDisabled
/-- `CTRL_DIS_INV` (R93). -/
def ctrlDisInv (P : Params) : Word := P.modeDisabled ||| P.invMask
/-- `CTRL_BRINGUP` (R93). -/
def ctrlBringup (P : Params) : Word := P.modeSwss
/-- `NOTIFY_BRINGUP` (R93). -/
def notifyBringup : Word := 0#32

/-- A count register's word: `COUNT` at `[COUNT_W-1:0]`, the upper bits 0 (R23). -/
def countWord (P : Params) (n : Nat) : Word := BitVec.ofNat 32 (n % 2 ^ P.countW)

/-- The `COUNT` field of a count register's word (R23). -/
def countOf (P : Params) (w : Word) : Nat := w.toNat % 2 ^ P.countW

/-- A `CQ_STATUS` word (R27): IDLE is 1 exactly when nothing is in progress, the other bits are a draw. -/
def statusWord (P : Params) (draw : Word) (busy : Option Word) : Word :=
  (draw &&& ~~~P.idleMask) ||| (if busy = none then P.idleMask else 0#32)

/-- The raw converter code of a response entry, `e[15:0]` (R35). -/
def codeOf (e : Word) : BitVec 16 := e.setWidth 16

end Sys2Proof.Machine
end

