-- ==== Sys2Proof/Machine/State.lean ====
section
/-! DEFINITION. The machine's state (10_state.md R47), as plain data, and the state after reset (R250). -/

namespace Sys2Proof.Machine

/-- The faults the spec records (R227). They are bookkeeping of a state (R46), not ends of a run. -/
inductive FaultName where
  /-- `readResponse` with an empty response FIFO (R120). -/
  | respUnderflow
  /-- The engine completes a command that decodes to `Unknown` (R145). -/
  | unmodelledCommand
  /-- An operation reads a host variable never written (R228). -/
  | unwrittenHostVar
  deriving DecidableEq, Repr

/-- The fault set (R46): one mark per name. -/
structure FaultSet where
  respUnderflow : Bool
  unmodelledCommand : Bool
  unwrittenHostVar : Bool
  deriving DecidableEq, Repr

/-- `faults = {}`. -/
def FaultSet.empty : FaultSet := ⟨false, false, false⟩

/-- Is the fault recorded? -/
def FaultSet.has (f : FaultSet) : FaultName → Bool
  | .respUnderflow => f.respUnderflow
  | .unmodelledCommand => f.unmodelledCommand
  | .unwrittenHostVar => f.unwrittenHostVar

/-- The error cell (R22) with the values R220 records beside each code. -/
inductive Err where
  | ok
  /-- Code 1: the failed polls. -/
  | timeoutIdle (polls : Nat)
  /-- Code 2: the failed polls and the word not pushed. -/
  | timeoutPush (polls : Nat) (word : Word)
  /-- Code 3: the failed polls, the count awaited and the count at the last poll. -/
  | timeoutResponse (polls awaited rxCount : Nat)
  /-- Code 4: the two codes. -/
  | degenerate (res25 res75 : BitVec 16)
  deriving DecidableEq, Repr

/-- The numeric code (R220). -/
def Err.code : Err → Nat
  | .ok => 0
  | .timeoutIdle _ => 1
  | .timeoutPush _ _ => 2
  | .timeoutResponse _ _ _ => 3
  | .degenerate _ _ => 4

/-- What a push writes to `CQ_PUSH`: a word known when the operation starts, or a correction write whose value is a
private temporary of `calibrate` (R196 step 5). -/
inductive PushSource where
  | word (w : Word)
  | gainWrite (u : ConvUnit) (m : PrecMode)
  | offsetWrite (u : ConvUnit) (m : PrecMode)
  deriving DecidableEq, Repr

/-- One step of the caller inside an operation (R15, R16). -/
inductive CallerAct where
  /-- `RegWrite(R, v)`. -/
  | write (r : Reg) (v : Word)
  /-- One poll of `hold until` the queue is idle [cause IDLE] (R103 step 3). -/
  | holdIdle
  /-- One poll of `hold until COUNT < CMD_DEPTH` [cause PUSH] (R111); the source is the word a timeout records. -/
  | holdPush (src : PushSource)
  /-- `RegWrite(CQ_PUSH, …)` (R111). -/
  | push (src : PushSource)
  /-- One poll of `hold until COUNT >= n` [cause RESPONSE] (R115). -/
  | holdResponses (n : Nat)
  /-- `e25 := readResponse()` (R196 step 3). -/
  | pop25
  /-- `e75 := readResponse()` (R196 step 3). -/
  | pop75
  /-- `(gain, offset) := calc(e25, e75)` (R196 step 4). -/
  | compute
  deriving DecidableEq, Repr

/-- What an operation keeps for itself: the failed polls of the hold it stands at (R16), and a composite's private
temporaries (44_client_sequences.md). -/
structure Temps where
  polls : Nat
  e25 : Word
  e75 : Word
  gain : Word
  offset : Word
  deriving DecidableEq, Repr

/-- The temporaries at an operation's start; none is read before the operation sets it (DESIGN CHOICE, assumption 2). -/
def Temps.start : Temps := ⟨0, 0#32, 0#32, 0#32, 0#32⟩

/-- An operation that holds (R100): the blocks of steps still to do, the first error met, its temporaries. An error
ends the block it is raised in; the blocks after it still run (R204: only `BRINGUP` has more than one). -/
structure Progress where
  blocks : List (List CallerAct)
  first : Err
  temps : Temps
  deriving DecidableEq, Repr

/-- The model's own: how many engine steps the scheduler lets fall before each caller step (R12, R148; DESIGN CHOICE, assumption 3). -/
inductive Sched where
  /-- Any number: the free stream of Config answers. -/
  | free
  /-- Every enabled step (95_test_vectors.md §0, "eager schedule"). -/
  | eager
  /-- These numbers in turn, then any. -/
  | script (steps : List Nat)
  deriving DecidableEq, Repr

/-- The model's own: the answers lined up for the scheduler and the oracle, and how many answers the free streams
have given so far (DESIGN CHOICE, assumption 3). After reset nothing is lined up. -/
structure Oracle where
  sched : Sched
  responses : List Word
  flagDraws : List Word
  statusDraws : List Word
  drawn : Nat
  /-- How many turns the free schedule has given: its answers are numbered on their own, so that its law (R150) is about
  the turns the engine has. -/
  turns : Nat
  deriving DecidableEq, Repr

/-- The whole state (R47), with the caller's side (R20 to R22), the program, the operation in progress and the model's
own record of answers. -/
structure State where
  /-- `CQ_CTRL` (R24, R25). -/
  ctrl : Ctrl
  /-- `CQ_NOTIFY` (R26). -/
  notify : Word
  /-- `CQ_FLAGS` (R28), `FLAG_W` bits with the upper bits 0. -/
  flags : Word
  /-- The command FIFO, head first (R29 to R31). -/
  cmdFifo : List Word
  /-- The command the engine has in progress (R33). -/
  busy : Option Word
  /-- The response FIFO, head first (R32, R34, R35). -/
  respFifo : List Word
  /-- The converter units' registers (R37 to R41). -/
  conv : ConvFile
  /-- The faults recorded (R46). -/
  faults : FaultSet
  /-- The refusal mark (R46). -/
  refused : Bool
  /-- The host variables, each unwritten or written (R20). -/
  x : Vector (Option Word) 8
  /-- The caller's sequence index (R21). -/
  pc : Nat
  /-- The error cell (R22). -/
  err : Err
  /-- The program: operation words, the word at index `pc` next (R21, R80; DESIGN CHOICE, assumption 1). -/
  program : List Word
  /-- The operation that holds, if one does (R16, R100). -/
  op : Option Progress
  /-- The model's own (DESIGN CHOICE, assumption 3). -/
  oracle : Oracle
  deriving DecidableEq, Repr

/-- Why the machine stops. -/
inductive Fault where
  /-- `step` raises it when the run has ended (R258): the caller has completed its program or has raised an error, and
  no engine step is enabled. Safe: nothing is left to do (DESIGN CHOICE, assumption 16). -/
  | runEnded
  deriving DecidableEq, Repr

/-- Why the machine gives no meaning. -/
inductive Refusal where
  /-- `step` raises it when the refusal mark is set: the model gives no meaning to the rest of the run (R229). Safe (DESIGN CHOICE,
  assumption 15). -/
  | runRefused
  /-- `exec` raises it for an instruction without a meaning; no arm does. Safe. -/
  | notModelled (mnemonic : String)
  deriving DecidableEq, Repr

/-- The state after reset (R250): every item the spec leaves unspecified is a free value of Config within its type and
the invariants of R251 (DESIGN CHOICE, assumption 7); the caller's side and the bookkeeping are as the spec states. -/
def State.reset : State where
  ctrl := ctrlOfWord Config.params Config.resetCtrl
  notify := Config.resetNotify
  flags := Word.trunc Config.params.flagW Config.resetFlags
  cmdFifo := Config.resetCmdFifo.take Config.cmdDepth
  busy := Config.resetBusy
  respFifo := Config.resetRespFifo.take Config.params.respDepth
  conv := []
  faults := FaultSet.empty
  refused := false
  x := Vector.replicate 8 none
  pc := 0
  err := .ok
  program := []
  op := none
  oracle := { sched := .free, responses := [], flagDraws := [], statusDraws := [], drawn := 0, turns := 0 }

end Sys2Proof.Machine
end

