-- ==== Sys2Proof/Machine/Oracle.lean ====
section
/-! DEFINITION. Draws (R17): the next answer that is lined up, or else the next free value of Config (DESIGN CHOICE, assumption 3). -/

namespace Sys2Proof.Machine

/-- Count one answer of a free stream. -/
def State.countDraw (s : State) : State := { s with oracle := { s.oracle with drawn := s.oracle.drawn + 1 } }

/-- Count one turn of the free schedule. -/
def State.countTurn (s : State) : State := { s with oracle := { s.oracle with turns := s.oracle.turns + 1 } }

/-- How many engine steps the scheduler lets fall here (R148). Under the eager schedule: as many as the command in
progress and the queued ones can give. -/
def drawEngineSteps (s : State) : Nat × State :=
  match s.oracle.sched with
  | .free => (Config.freeEngineSteps s.oracle.turns, s.countTurn)
  | .eager => (2 * s.cmdFifo.length + 1, s)
  | .script [] => (Config.freeEngineSteps s.oracle.turns, s.countTurn)
  | .script (n :: ns) => (n, { s with oracle := { s.oracle with sched := .script ns } })

/-- The oracle's answer to a sample or read command (R143, R144). -/
def drawResponse (s : State) : Word × State :=
  match s.oracle.responses with
  | [] => (Config.freeResponse s.oracle.drawn, s.countDraw)
  | e :: es => (e, { s with oracle := { s.oracle with responses := es } })

/-- The flag bits an engine step sets (R146). -/
def drawFlags (s : State) : Word × State :=
  match s.oracle.flagDraws with
  | [] => (Config.freeFlags s.oracle.drawn, s.countDraw)
  | f :: fs => (f, { s with oracle := { s.oracle with flagDraws := fs } })

/-- The bits of a `CQ_STATUS` read other than IDLE (R27). -/
def drawStatusBits (s : State) : Word × State :=
  match s.oracle.statusDraws with
  | [] => (Config.freeStatusBits s.oracle.drawn, s.countDraw)
  | b :: bs => (b, { s with oracle := { s.oracle with statusDraws := bs } })

end Sys2Proof.Machine
end

