-- ==== Sys2Proof/Machine/Flags.lean ====
section
/-! DEFINITION. The queue's flags (R28, R36, R146): the only flags of the block. No operation writes a condition code. -/

namespace Sys2Proof.Machine

/-- `flags AND NOT v[FLAG_W-1:0]`: write-one-to-clear (R28). -/
def clearFlags (P : Params) (flags v : Word) : Word := Word.trunc P.flagW (flags &&& ~~~v)

/-- `flags OR draw`, the draw a `FLAG_W`-bit vector (R146). -/
def orFlags (P : Params) (flags draw : Word) : Word := Word.trunc P.flagW (flags ||| draw)

/-- An engine step sets a drawn subset of the flags (R146). -/
def setDrawnFlags (P : Params) (s : State) : State :=
  let d := drawFlags s
  { d.2 with flags := orFlags P s.flags d.1 }

end Sys2Proof.Machine
end

