-- ==== Sys2Proof/Machine/Operands.lean ====
section
/-! DEFINITION. The operand forms (R20, R83): host variables, the zero-extended immediate, the register index. -/

namespace Sys2Proof.Machine

/-- `x[i]` (R14): a variable nothing has written holds no value (R20). -/
def readVar (s : State) (i : HostVar) : Option Word := s.x.get i

/-- `x[i] <- v` (R14). -/
def writeVar (s : State) (i : HostVar) (v : Word) : State := { s with x := s.x.set i.val (some v) i.isLt }

/-- `imm = zext_32(IMM16)` (R83). -/
def immWord (imm : BitVec 16) : Word := imm.setWidth 32

/-- `IMM16` is below `2^REG_W` (R83). -/
def regInSet (P : Params) (r : RegIndex) : Bool := decide (r.toNat < 2 ^ P.regW)

end Sys2Proof.Machine
end

