-- ==== Sys2Proof/Machine/Ops.lean ====
section
/-! DEFINITION. The named operations: how an operation ends (R21, R22, R227, R229, R232), and the controller's registers
as the caller reads and writes them (R15, R23 to R34, R62). -/

namespace Sys2Proof.Machine

/-- `fault F` (R17, R227): recorded, never cleared. -/
def State.recordFault (s : State) (f : FaultName) : State :=
  match f with
  | .respUnderflow => { s with faults := { s.faults with respUnderflow := true } }
  | .unmodelledCommand => { s with faults := { s.faults with unmodelledCommand := true } }
  | .unwrittenHostVar => { s with faults := { s.faults with unwrittenHostVar := true } }

/-- `refuse` (R17, R229): recorded, never cleared. -/
def State.markRefused (s : State) : State := { s with refused := true }

/-- The operation completes: `pc <- pc + 1` (R21). -/
def State.complete (s : State) : State := { s with op := none, pc := s.pc + 1 }

/-- `raise E` (R17, R22, R232): the code goes to the error cell, nothing else is saved, no mode changes and control goes
nowhere; `step` lets no later operation run. There is no return from it (R233). That `pc` stays is DEDUCED (assumption 21). -/
def State.raiseError (s : State) (e : Err) : State := { s with op := none, err := e }

/-- An operation that records a fault does nothing more and goes on with the next (R227). -/
def State.faultOut (s : State) (f : FaultName) : State := (s.recordFault f).complete

/-- What a register access gives: a value, a recorded fault, or a recorded refusal. -/
inductive Access (α : Type) where
  | done (v : α) (s : State)
  | faulted (s : State)
  | refused (s : State)

/-- `RegRead(R)` (R15; R24, R26 to R30, R32, R34, R64). -/
def regRead (P : Params) (r : Reg) (s : State) : Access Word :=
  match r with
  | .ctrl => .done (ctrlWord P s.ctrl) s
  | .notify => .done s.notify s
  | .status =>
    let d := drawStatusBits s
    .done (statusWord P d.1 s.busy) d.2
  | .flags => .done s.flags s
  | .push => .refused s.markRefused
  | .txcnt => .done (countWord P s.cmdFifo.length) s
  | .rxcnt => .done (countWord P s.respFifo.length) s
  | .pop =>
    match s.respFifo with
    | [] => .faulted (s.recordFault .respUnderflow)
    | e :: rest => .done e { s with respFifo := rest }

/-- `RegWrite(R, v)` (R15; R25 to R30, R32, R34, R64). -/
def regWrite (P : Params) (r : Reg) (v : Word) (s : State) : Access Unit :=
  match r with
  | .ctrl =>
    .done () { s with ctrl := ctrlOfWord P v, cmdFifo := if invSet P v then [] else s.cmdFifo }
  | .notify => .done () { s with notify := v }
  | .status => .refused s.markRefused
  | .flags => .done () { s with flags := clearFlags P s.flags v }
  | .push =>
    if s.cmdFifo.length < Config.cmdDepth then .done () { s with cmdFifo := s.cmdFifo ++ [v] }
    else .refused s.markRefused
  | .txcnt => if v = 0#32 then .done () { s with cmdFifo := [] } else .refused s.markRefused
  | .rxcnt => .refused s.markRefused
  | .pop => .refused s.markRefused

/-- The eight registers (R23). -/
def allRegs : List Reg := [.ctrl, .notify, .status, .flags, .push, .txcnt, .rxcnt, .pop]

/-- The register at an address, if one stands there (R65). -/
def regAt (P : Params) (addr : Nat) : Option Reg := allRegs.find? (fun r => P.addr r == addr)

/-- `MemRead(addr, n)` of the register block (R15, R62): any access but 4 bytes at a register's address is refused. -/
def memRead (P : Params) (addr n : Nat) (s : State) : Access Word :=
  match regAt P addr with
  | some r => if n = 4 then regRead P r s else .refused s.markRefused
  | none => .refused s.markRefused

/-- `MemWrite(addr, n, v)` of the register block (R15, R62). -/
def memWrite (P : Params) (addr n : Nat) (v : Word) (s : State) : Access Unit :=
  match regAt P addr with
  | some r => if n = 4 then regWrite P r v s else .refused s.markRefused
  | none => .refused s.markRefused

end Sys2Proof.Machine
end

