-- ==== Sys2Proof/Machine/Calibration.lean ====
section
/-! DEFINITION. The fixed-point calibration datapath (43_calibration_datapath.md) and the operations `CALC` and `LI`. -/

namespace Sys2Proof.Machine

/-- The degenerate guard (R172): `res75 <= res25`, unsigned. -/
def degenerate (res25 res75 : BitVec 16) : Bool := decide (res75.toNat ≤ res25.toNat)

/-- `gain = 0x08000000 / (res75 - res25)` (R173, R174), 32-bit unsigned. -/
def calGain (res25 res75 : BitVec 16) : Word := Config.gainNum / (res75.setWidth 32 - res25.setWidth 32)

/-- `t = (gain * res75) >> 14`, the product modulo 2^32 (R175). -/
def calScaled (res25 res75 : BitVec 16) : Word :=
  (calGain res25 res75 * res75.setWidth 32) >>> Config.shift

/-- `offset = trunc_16(12286 - t)` (R176). -/
def calOffset (res25 res75 : BitVec 16) : BitVec 16 := (Config.offsetK - calScaled res25 res75).setWidth 16

/-- An operation reads a host variable; an unwritten one is the fault of R228 and the operation does nothing else. -/
def withVar (s : State) (i : HostVar) (k : Word → State) : State :=
  match readVar s i with
  | some v => k v
  | none => s.faultOut .unwrittenHostVar

/-- The datapath operation (R171): both inputs are read before either output is written; the gain is written first. -/
def calcOp (rd rd2 rs1 rs2 : HostVar) (s : State) : State :=
  withVar s rs1 fun e25 => withVar s rs2 fun e75 =>
    let r25 := codeOf e25
    let r75 := codeOf e75
    if degenerate r25 r75 then s.raiseError (.degenerate r25 r75)
    else (writeVar (writeVar s rd (calGain r25 r75)) rd2 ((calOffset r25 r75).setWidth 32)).complete

/-- `CALC xD, xD2, xS1, xS2` (R171). -/
def execCalc (rd rd2 rs1 rs2 : HostVar) (s : State) : Host.Outcome State Fault Refusal :=
  .next (calcOp rd rd2 rs1 rs2 s)

/-- `LI xD, imm16` (R122). -/
def execLi (rd : HostVar) (imm : BitVec 16) (s : State) : Host.Outcome State Fault Refusal :=
  .next (writeVar s rd (immWord imm)).complete

end Sys2Proof.Machine
end

