-- ==== Sys2Proof/Machine/Engine.lean ====
section
/-! DEFINITION. The queue engine (42_queue_engine.md): TAKE, DONE, and the engine steps that fall between two caller
steps. -/

namespace Sys2Proof.Machine

/-- `ENG.TAKE` (R140). -/
def engineTake (P : Params) (w : Word) (rest : List Word) (s : State) : State :=
  setDrawnFlags P { s with busy := some w, cmdFifo := rest }

/-- The end of `ENG.DONE` for a command with a meaning: idle again, a drawn subset of flags set (R141). -/
def engineRetire (P : Params) (s : State) : State := setDrawnFlags P { s with busy := none }

/-- `sampleAllowed` (R154). -/
def sampleAllowed (P : Params) (u : ConvUnit) (s : State) : Bool := P.respondWhenDisabled || unitEnabled P u s.conv

/-- A completed sample or read command: exactly one response, drawn, at the tail (R142 to R144). -/
def engineRespond (P : Params) (s : State) : State :=
  let d := drawResponse s
  engineRetire P { d.2 with respFifo := s.respFifo ++ [d.1] }

/-- May a sample or read command of the unit complete (R141, R142, R154)? -/
def mayRespond (P : Params) (u : ConvUnit) (s : State) : Bool :=
  decide (s.respFifo.length < P.respDepth) && sampleAllowed P u s

/-- `ENG.DONE` of a command read as `k`, or `none` where it is not enabled (R141, R145). -/
def engineDone (P : Params) (k : CmdKind) (s : State) : Option State :=
  match k with
  | .write u r v => some (engineRetire P { s with conv := convWrite P u r v s.conv })
  | .sample u _ => if mayRespond P u s then some (engineRespond P s) else none
  | .read u _ => if mayRespond P u s then some (engineRespond P s) else none
  | .unknown => some (s.recordFault .unmodelledCommand)

/-- The engine's next step, or `none` where no engine step is enabled (R140, R141, R149). -/
def engineStep (P : Params) (s : State) : Option State :=
  match s.busy with
  | some w => engineDone P (P.decodeCmd w) s
  | none =>
    if s.ctrl.mode = .disabled then none
    else
      match s.cmdFifo with
      | [] => none
      | w :: rest => some (engineTake P w rest s)

/-- Up to `n` engine steps, one after another, while one is enabled. -/
def engineRun (P : Params) : Nat → State → State
  | 0, s => s
  | n + 1, s =>
    match engineStep P s with
    | none => s
    | some t => engineRun P n t

/-- The engine steps that fall between two caller steps (R12, R148). -/
def interleave (P : Params) (s : State) : State :=
  let d := drawEngineSteps s
  engineRun P d.1 d.2

/-- The machine when the caller takes no more steps: the engine goes on until no step of its is enabled, and there the
run ends (R258). -/
def engineOnly (P : Params) (s : State) : Host.Outcome State Fault Refusal :=
  match engineStep P s with
  | some t => .next t
  | none => .fault .runEnded

end Sys2Proof.Machine
end

