-- ==== Sys2Proof/Machine/Caller.lean ====
section
/-! DEFINITION. The caller inside an operation: one caller step, the blocks of steps an operation is made of, holding
(R16), raising (R17), and the engine steps between any two caller steps (R12). -/

namespace Sys2Proof.Machine

/-- How one caller step ends. -/
inductive ActEnd where
  /-- The step is done. -/
  | ok (t : Temps) (s : State)
  /-- The poll failed and is to be taken again. -/
  | hold (t : Temps) (s : State)
  /-- The step raised an error. -/
  | raised (e : Err) (s : State)
  /-- A fault or a refusal was recorded and the operation is over. -/
  | over (s : State)

/-- A failed poll (R16): again without limit, or the error at the k-th. -/
def pollFailed (P : Params) (e : Nat → Err) (t : Temps) (s : State) : ActEnd :=
  match P.pollBound with
  | none => .hold t s
  | some k =>
    if k ≤ t.polls + 1 then .raised (e (t.polls + 1)) s else .hold { t with polls := t.polls + 1 } s

/-- A poll that succeeded: its count is done with. -/
def pollPassed (t : Temps) (s : State) : ActEnd := .ok { t with polls := 0 } s

/-- Go on with the value of a register read. -/
def onRead (a : Access Word) (k : Word → State → ActEnd) : ActEnd :=
  match a with
  | .done v s => k v s
  | .faulted s => .over s.complete
  | .refused s => .over s

/-- Go on after a register write. -/
def onWrite (a : Access Unit) (t : Temps) : ActEnd :=
  match a with
  | .done _ s => .ok t s
  | .faulted s => .over s.complete
  | .refused s => .over s

/-- The word a push writes. A correction write carries the gain, or the zero-extended offset (R200). -/
def pushWord (P : Params) (t : Temps) : PushSource → Word
  | .word w => w
  | .gainWrite u m => P.encWrite u (P.reg (.gcc m)) t.gain
  | .offsetWrite u m => P.encWrite u (P.reg (.occ m)) t.offset

/-- One caller step. -/
def runAct (P : Params) (a : CallerAct) (t : Temps) (s : State) : ActEnd :=
  match a with
  | .write r v => onWrite (regWrite P r v s) t
  | .holdIdle => onRead (regRead P .status s) fun v s' =>
      if v &&& P.idleMask = P.idleMask then pollPassed t s' else pollFailed P .timeoutIdle t s'
  | .holdPush src => onRead (regRead P .txcnt s) fun v s' =>
      if countOf P v < Config.cmdDepth then pollPassed t s'
      else pollFailed P (fun k => .timeoutPush k (pushWord P t src)) t s'
  | .push src => onWrite (regWrite P .push (pushWord P t src) s) t
  | .holdResponses n => onRead (regRead P .rxcnt s) fun v s' =>
      if n ≤ countOf P v then pollPassed t s'
      else pollFailed P (fun k => .timeoutResponse k n (countOf P v)) t s'
  | .pop25 => onRead (regRead P .pop s) fun e s' => .ok { t with e25 := e } s'
  | .pop75 => onRead (regRead P .pop s) fun e s' => .ok { t with e75 := e } s'
  | .compute =>
      let r25 := codeOf t.e25
      let r75 := codeOf t.e75
      if degenerate r25 r75 then .raised (.degenerate r25 r75) s
      else .ok { t with gain := calGain r25 r75, offset := (calOffset r25 r75).setWidth 32 } s

/-- How a block of caller steps ends. -/
inductive BlockEnd where
  | done (t : Temps) (s : State)
  /-- The first step of `rest` is the poll that failed. -/
  | held (rest : List CallerAct) (t : Temps) (s : State)
  | raised (e : Err) (t : Temps) (s : State)
  | over (s : State)

/-- The steps of a block in order, engine steps falling before each but one that is `fresh`: the first caller step of a
machine step, before which `step` itself lets the engine run. -/
def runBlock (P : Params) : Bool → List CallerAct → Temps → State → BlockEnd
  | _, [], t, s => .done t s
  | fresh, a :: rest, t, s =>
    match runAct P a t (if fresh then s else interleave P s) with
    | .ok t' s' => runBlock P false rest t' s'
    | .hold t' s' => .held (a :: rest) t' s'
    | .raised e s' => .raised e { t with polls := 0 } s'
    | .over s' => .over s'

/-- The first error raised is the one reported (R204). -/
def firstError (first e : Err) : Err := if first = .ok then e else first

/-- The end of an operation whose blocks are done: it completes, or it reports its first error. -/
def finish (first : Err) (s : State) : State := if first = .ok then s.complete else s.raiseError first

/-- The blocks of an operation in order: an error ends its block only, a hold is put down in `op`. -/
def runBlocks (P : Params) : Bool → List (List CallerAct) → Err → Temps → State → State
  | _, [], first, _, s => finish first s
  | fresh, b :: bs, first, t, s =>
    match runBlock P fresh b t s with
    | .done t' s' => runBlocks P false bs first t' s'
    | .raised e t' s' => runBlocks P false bs (firstError first e) t' s'
    | .held rest t' s' => { s' with op := some ⟨rest :: bs, first, t'⟩ }
    | .over s' => s'

/-- An operation from its start. -/
def runOperation (P : Params) (blocks : List (List CallerAct)) (s : State) : State :=
  runBlocks P true blocks .ok .start s

/-- The operation in progress goes on where it holds; where none is, the operation starts (R100). -/
def perform (P : Params) (start : State → State) (s : State) : State :=
  match s.op with
  | some p => runBlocks P true p.blocks p.first p.temps s
  | none => start s

/-- `pushCommand` (R111): the poll, then the write. -/
def pushActs (src : PushSource) : List CallerAct := [.holdPush src, .push src]

/-- `enable` (R101): CTRL, then NOTIFY. -/
def enableActs (c n : Word) : List CallerAct := [.write .ctrl c, .write .notify n]

/-- `disable` (R103): the six steps. -/
def disableActs (P : Params) : List CallerAct :=
  [.write .ctrl (ctrlDis P), .write .notify 0#32, .holdIdle, .write .ctrl (ctrlDisInv P),
    .write .flags (flagClearAll P), .write .txcnt 0#32]

/-- `waitForResponses(n)` (R115). -/
def waitActs (P : Params) (n : Nat) : List CallerAct := [.holdResponses n, .write .flags (flagClearAll P)]

end Sys2Proof.Machine
end

