-- ==== Sys2Proof/Machine/Client.lean ====
section
/-! DEFINITION. The client sequences (44_client_sequences.md): REGWR, PWRON, PWROFF, CALIB, BRINGUP. -/

namespace Sys2Proof.Machine

/-- `pushCommand(encWrite(u, r, v))` for a named register. -/
def writeNamed (P : Params) (u : ConvUnit) (r : NamedReg) (v : Word) : List CallerAct :=
  pushActs (.word (P.encWrite u (P.reg r) v))

/-- `enableBoth()` (R192): A, then B. -/
def enableBothActs (P : Params) : List CallerAct :=
  writeNamed P .A .cr (P.prescale ||| P.enBit) ++ writeNamed P .B .cr (P.prescale ||| P.enBit)

/-- `disableBoth()` (R194): A, then B, the enable bit cleared. -/
def disableBothActs (P : Params) : List CallerAct := writeNamed P .A .cr P.prescale ++ writeNamed P .B .cr P.prescale

/-- The two correction writes of one precision mode (R200). -/
def correctionActs (u : ConvUnit) (m : PrecMode) : List CallerAct :=
  pushActs (.gainWrite u m) ++ pushActs (.offsetWrite u m)

/-- `calibrate(u)` (R196), steps 1 to 5. -/
def calibrateActs (P : Params) (u : ConvUnit) : List CallerAct :=
  pushActs (.word (P.encSample25 u)) ++ pushActs (.word (P.encSample75 u)) ++ waitActs P 2 ++
    [.pop25, .pop75, .compute] ++ correctionActs u .dflt ++ correctionActs u .alt1 ++ correctionActs u .alt2

/-- One configured unit's part of bring-up (R203): calibrate, then the two resolution selects. -/
def bringupUnitActs (P : Params) (u : ConvUnit) : List CallerAct :=
  if P.units u then calibrateActs P u ++ writeNamed P u .acr1 P.res10 ++ writeNamed P u .acr2 P.res8 else []

/-- Bring-up's `enable`, which raises nothing, and its try block (R203). -/
def bringupTryActs (P : Params) : List CallerAct :=
  enableActs (ctrlBringup P) notifyBringup ++ enableBothActs P ++ bringupUnitActs P .A ++ bringupUnitActs P .B

/-- The blocks of bring-up (R203): up to the end of the try block; then `disableBoth`; then `disable`. -/
def bringupBlocks (P : Params) : List (List CallerAct) := [bringupTryActs P, disableBothActs P, disableActs P]

/-- `writeRegister(U, reg, x[RS1])` (R190); a register index outside the index set is refused (R83). -/
def regwrOp (P : Params) (u : ConvUnit) (reg : RegIndex) (rs1 : HostVar) (s : State) : State :=
  perform P (fun s =>
    if regInSet P reg then withVar s rs1 fun v => runOperation P [pushActs (.word (P.encWrite u reg v))] s
    else s.markRefused) s

/-- `enableBoth()` (R192). -/
def pwronOp (P : Params) (s : State) : State := perform P (runOperation P [enableBothActs P]) s

/-- `disableBoth()` (R194). -/
def pwroffOp (P : Params) (s : State) : State := perform P (runOperation P [disableBothActs P]) s

/-- `calibrate(U)` (R196). -/
def calibOp (P : Params) (u : ConvUnit) (s : State) : State := perform P (runOperation P [calibrateActs P u]) s

/-- The bring-up sequence (R203). -/
def bringupOp (P : Params) (s : State) : State := perform P (runOperation P (bringupBlocks P)) s

/-- `REGWR U, reg, xS1` (R190). -/
def execRegwr (u : ConvUnit) (reg : RegIndex) (rs1 : HostVar) (s : State) : Host.Outcome State Fault Refusal :=
  .next (regwrOp Config.params u reg rs1 s)

/-- `PWRON` (R192). -/
def execPwron (s : State) : Host.Outcome State Fault Refusal := .next (pwronOp Config.params s)

/-- `PWROFF` (R194). -/
def execPwroff (s : State) : Host.Outcome State Fault Refusal := .next (pwroffOp Config.params s)

/-- `CALIB U` (R196). -/
def execCalib (u : ConvUnit) (s : State) : Host.Outcome State Fault Refusal := .next (calibOp Config.params u s)

/-- `BRINGUP` (R203). -/
def execBringup (s : State) : Host.Outcome State Fault Refusal := .next (bringupOp Config.params s)

end Sys2Proof.Machine
end

