-- ==== Sys2Proof/Machine/Queue.lean ====
section
/-! DEFINITION. The queue-controller operations (41_queue_controller.md): QEN, QDIS, QPUSH, QWAIT, QPOP. -/

namespace Sys2Proof.Machine

/-- `enable(x[RS1], x[RS2])` (R101). -/
def enableOp (P : Params) (rs1 rs2 : HostVar) (s : State) : State :=
  withVar s rs1 fun c => withVar s rs2 fun n => runOperation P [enableActs c n] s

/-- `disable()` (R103). -/
def disableOp (P : Params) (s : State) : State := perform P (runOperation P [disableActs P]) s

/-- `pushCommand(x[RS1])` (R111). -/
def pushOp (P : Params) (rs1 : HostVar) (s : State) : State :=
  perform P (fun s => withVar s rs1 fun w => runOperation P [pushActs (.word w)] s) s

/-- `waitForResponses(n)` (R115). -/
def waitOp (P : Params) (imm : BitVec 16) (s : State) : State :=
  perform P (runOperation P [waitActs P (immWord imm).toNat]) s

/-- `x[RD] <- readResponse()` (R119, R120). -/
def popOp (P : Params) (rd : HostVar) (s : State) : State :=
  match regRead P .pop s with
  | .done e s' => (writeVar s' rd e).complete
  | .faulted s' => s'.complete
  | .refused s' => s'

/-- `QEN xS1, xS2` (R101). -/
def execQen (rs1 rs2 : HostVar) (s : State) : Host.Outcome State Fault Refusal :=
  .next (enableOp Config.params rs1 rs2 s)

/-- `QDIS` (R103). -/
def execQdis (s : State) : Host.Outcome State Fault Refusal := .next (disableOp Config.params s)

/-- `QPUSH xS1` (R111). -/
def execQpush (rs1 : HostVar) (s : State) : Host.Outcome State Fault Refusal := .next (pushOp Config.params rs1 s)

/-- `QWAIT imm16` (R115). -/
def execQwait (imm : BitVec 16) (s : State) : Host.Outcome State Fault Refusal := .next (waitOp Config.params imm s)

/-- `QPOP xD` (R119). -/
def execQpop (rd : HostVar) (s : State) : Host.Outcome State Fault Refusal := .next (popOp Config.params rd s)

end Sys2Proof.Machine
end

