-- ==== Sys2Proof/Machine/Dispatch.lean ====
section
/-! DEFINITION. One arm per constructor of Instr, each one direct call of its meaning. -/

namespace Sys2Proof.Machine

def exec (i : Instr) (s : State) : Host.Outcome State Fault Refusal :=
  match i with
  | .qen rs1 rs2 => Sys2Proof.Machine.execQen rs1 rs2 s
  | .qdis => Sys2Proof.Machine.execQdis s
  | .qpush rs1 => Sys2Proof.Machine.execQpush rs1 s
  | .qwait imm => Sys2Proof.Machine.execQwait imm s
  | .qpop rd => Sys2Proof.Machine.execQpop rd s
  | .calcGain rd rd2 rs1 rs2 => Sys2Proof.Machine.execCalc rd rd2 rs1 rs2 s
  | .regwr u reg rs1 => Sys2Proof.Machine.execRegwr u reg rs1 s
  | .pwron => Sys2Proof.Machine.execPwron s
  | .pwroff => Sys2Proof.Machine.execPwroff s
  | .calib u => Sys2Proof.Machine.execCalib u s
  | .bringup => Sys2Proof.Machine.execBringup s
  | .li rd imm => Sys2Proof.Machine.execLi rd imm s

end Sys2Proof.Machine
end

