-- ==== Sys2Proof/Machine/Step.lean ====
section
/-! DEFINITION. One step of the machine (R12, R21, R100, R229, R258): the engine steps the scheduler lets fall, then the
operation the program names, up to its completion, its error or the poll it holds at (DESIGN CHOICE, assumption 2). -/

namespace Sys2Proof.Machine

def step (s : State) : Host.Outcome State Fault Refusal :=
  if s.refused then .refused .runRefused
  else if s.err ≠ .ok then engineOnly Config.params s
  else
    match s.program[s.pc]? with
    | none => engineOnly Config.params s
    | some w =>
      match decode w with
      | .error _ => .next s.markRefused
      | .ok i => exec i (interleave Config.params s)

/-- The state with an instruction's word placed where `step` fetches next (the program is a list of words indexed by
`pc`; DESIGN CHOICE, assumption 1). The caller is running and at an operation's start, so that the very next step runs it. -/
def State.withFetchWord (s : State) (nbits w : Nat) : State :=
  { s with
    program :=
      (s.program ++ List.replicate (s.pc - s.program.length) 0#32).take s.pc ++
        BitVec.ofNat 32 (w % 2 ^ nbits) :: s.program.drop (s.pc + 1)
    op := none
    err := .ok
    refused := false }

end Sys2Proof.Machine
end

