-- ==== Sys2Proof/Safety.lean ====
section
/-! DEFINITION. What the claims are stated in terms of: the invariants (R31, R32, R251), the clean entry state (R252),
the post-state of `disable` (R107), a failed poll and a held bring-up (R16, R203), the end of a run (R258) and the
engine's moves in it (R150). -/

namespace Sys2Proof.Safety

open Sys2Proof.Machine

/-- What every state a run can reach has, whatever the schedule and the draws (R28, R31, R32, R47, R251): the FIFOs
within their depths, `flags` within `FLAG_W` bits, CTRL as a write can leave it, the converter file canonical, and an
operation that holds short of its poll bound, so that the k-th failed poll is the one that raises (R16). -/
structure Inv (P : Params) (s : State) : Prop where
  cmd_depth : s.cmdFifo.length ≤ Config.cmdDepth
  resp_depth : s.respFifo.length ≤ P.respDepth
  flags_width : Word.trunc P.flagW s.flags = s.flags
  ctrl_stored : ctrlOfWord P (ctrlWord P s.ctrl) = s.ctrl
  conv_canonical : convWf P s.conv
  polls_bounded : ∀ p k, s.op = some p → P.pollBound = some k → p.temps.polls < k

/-- The clean-entry premise (R252). -/
structure Clean (P : Params) (s : State) : Prop where
  mode : s.ctrl.mode = .disabled
  busy : s.busy = none
  cmdFifo : s.cmdFifo = []
  respFifo : s.respFifo = []
  flags : s.flags = 0#32
  notify : s.notify = 0#32
  unitA : unitEnabled P .A s.conv = false
  unitB : unitEnabled P .B s.conv = false
  faults : s.faults = FaultSet.empty
  refused : s.refused = false

/-- The post-state of a completed `disable` (R107). -/
structure DisabledPost (s : State) : Prop where
  mode : s.ctrl.mode = .disabled
  other : s.ctrl.other = 0#32
  notify : s.notify = 0#32
  busy : s.busy = none
  cmdFifo : s.cmdFifo = []
  flags : s.flags = 0#32

/-- What one failed poll makes of an operation that stands at it and has one block of steps (R16, R220): it holds, one
more failed poll counted where polls are counted, or the poll that reaches the bound raises with the number of failed
polls and none of the steps after it is taken. -/
def afterFailedPoll (P : Params) (acts : List CallerAct) (temps : Temps) (raised : Nat → Err) (s : State) : State :=
  match P.pollBound with
  | none => { s with op := some ⟨[acts], .ok, temps⟩ }
  | some k =>
    if temps.polls + 1 < k then { s with op := some ⟨[acts], .ok, { temps with polls := temps.polls + 1 }⟩ }
    else { s with op := none, err := raised (temps.polls + 1) }

/-- The steps of an operation that starts with a push (R111, R190, R192, R194, R196), where it starts. -/
def pushStart (P : Params) (s : State) : Instr → Option (List CallerAct)
  | .qpush rs1 => (readVar s rs1).map fun w => pushActs (.word w)
  | .regwr u r rs1 =>
    if regInSet P r then (readVar s rs1).map fun v => pushActs (.word (P.encWrite u r v)) else none
  | .pwron => some (enableBothActs P)
  | .pwroff => some (disableBothActs P)
  | .calib u => some (calibrateActs P u)
  | .qen _ _ => none
  | .qdis => none
  | .qwait _ => none
  | .qpop _ => none
  | .calcGain _ _ _ _ => none
  | .bringup => none
  | .li _ _ => none

/-- The caller steps that are polls (R16): an operation holds at one of these. -/
def isPoll : CallerAct → Bool
  | .holdIdle => true
  | .holdPush _ => true
  | .holdResponses _ => true
  | .write _ _ => false
  | .push _ => false
  | .pop25 => false
  | .pop75 => false
  | .compute => false

/-- Where a bring-up can hold (R203): at a poll of its try block, at one of `disableBoth`, or at `disable`'s poll for
idle, the mode and NOTIFY then written. -/
def BringupHeld (P : Params) (s : State) : Prop :=
  (∃ a acts temps, isPoll a = true ∧ (a :: acts) <:+ bringupTryActs P ∧
    s.op = some ⟨[a :: acts, disableBothActs P, disableActs P], .ok, temps⟩) ∨
  (∃ a acts first temps, isPoll a = true ∧ (a :: acts) <:+ disableBothActs P ∧
    s.op = some ⟨[a :: acts, disableActs P], first, temps⟩) ∨
  (s.ctrl = ⟨.disabled, 0#32⟩ ∧ s.notify = 0#32 ∧
    ∃ first temps, s.op = some ⟨[(disableActs P).drop 2], first, temps⟩)

/-- The caller takes no more steps: an error was raised, or the program's last operation is done (R21, R258). -/
def CallerDone (s : State) : Prop := s.err ≠ .ok ∨ s.program.length ≤ s.pc

/-- The end of a run (R258). -/
def Ended (P : Params) (s : State) : Prop := CallerDone s ∧ engineStep P s = none

/-- A final state (R258). -/
def Final (P : Params) (s : State) : Prop := Ended P s ∧ s.faults = FaultSet.empty ∧ s.refused = false

/-- The machine comes from one state to another by its steps. -/
inductive Reaches : State → State → Prop
  | refl (s : State) : Reaches s s
  | step {s t u : State} (h : Machine.step s = .next t) (r : Reaches t u) : Reaches s u

/-- The next machine step is an enabled engine step, or begins with one: at least one falls before the caller's next
step, and the first of them is enabled (R148, R258). -/
def EngineMoves (P : Params) (s : State) : Prop :=
  (∃ u, engineStep P s = some u ∧ Machine.step s = .next u) ∨
  ∃ n u, (drawEngineSteps s).1 = n + 1 ∧ engineStep P (drawEngineSteps s).2 = some u ∧ interleave P s = engineRun P n u

/-- The operation in progress comes to an end: it completes, or, where polls are bounded, it raises an error as
described. -/
def WaitEnds (P : Params) (s : State) (raised : Err → Prop) : Prop :=
  ∃ t, Reaches s t ∧ t.op = none ∧
    ((t.pc = s.pc + 1 ∧ t.err = .ok) ∨ (t.pc = s.pc ∧ (∃ k, P.pollBound = some k) ∧ raised t.err))

/-- The caller's side, the program, CTRL, NOTIFY and the refusal mark are the same: what no engine step touches. -/
structure EngineFrame (s t : State) : Prop where
  ctrl : t.ctrl = s.ctrl
  notify : t.notify = s.notify
  refused : t.refused = s.refused
  x : t.x = s.x
  pc : t.pc = s.pc
  err : t.err = s.err
  program : t.program = s.program
  op : t.op = s.op

/-- A fault recorded stays recorded, and a refusal marked stays marked (R46). -/
structure MarksKept (s t : State) : Prop where
  faults : ∀ f, s.faults.has f = true → t.faults.has f = true
  refused : s.refused = true → t.refused = true

/-- An engine command that produces a response when it completes (R142). -/
def producesResponse (P : Params) (w : Word) : Bool :=
  match P.decodeCmd w with
  | .sample _ _ => true
  | .read _ _ => true
  | .write _ _ _ => false
  | .unknown => false

end Sys2Proof.Safety
end

