-- ==== Sys2Proof/Certificates/Slice0/Obligations.lean ====
section
/-! DEFINITION. The statements for the provers, from the numbered rules of spec/. They are about `exec`, `step` and the
engine under `Config.params`, which is any lawful choice of the open parameters. -/

open Sys2Proof Sys2Proof.Machine Sys2Proof.Safety

/-! ## Encoding (30_encoding.md) -/

/-- The decoder gives back every instruction the encoder wrote, every operand at every value (R81, R82, R84). -/
def Obligations.DecodeOfEncodeIsTheInstruction : Prop := ∀ i : Instr, decode (encode i) = .ok i

/-- Each word has one meaning: an instruction the decoder reads encodes to the word it was read from (R80, R86). -/
def Obligations.EncodeOfDecodeIsTheWord : Prop := ∀ (w : Word) (i : Instr), decode w = .ok i → encode i = w

/-- R85: a word decodes to a mnemonic exactly when its masked bits match. -/
def Obligations.DecodesExactlyByMaskAndMatch : Prop :=
  ∀ (w : Word) (m : Mnemonic), (∃ i, decode w = .ok i ∧ i.mnemonic = m) ↔ w &&& maskOf m = matchOf m

/-- R86, R229: a reserved OP, or an assigned OP with a must-be-zero field not zero, is invalid, and running it is a
refusal; the all-zero word is reserved. What the step leaves, the refusal mark and everything else as it was (`pc` too, no
engine step before it), is the model's choice (entry 15). -/
def Obligations.ReservedWordsAreRefused : Prop :=
  (∀ w : Word,
    (bits w 31 28 ∈ [0x0, 0xD, 0xE, 0xF] ∨
      ∃ m : Mnemonic, bits w 31 28 = bits (matchOf m) 31 28 ∧ w &&& maskOf m ≠ matchOf m) →
    (∃ r, decode w = .error r) ∧
      ∀ s : State, s.refused = false → s.err = .ok → s.program[s.pc]? = some w → step s = .next s.markRefused) ∧
  decode 0#32 = .error (.reservedOp 0)

/-- Words written out from R81, R82 and R84, and what they spell (95_test_vectors.md V-ENC). -/
def Obligations.SampleWordsDecodeAsTheSpecSays : Prop :=
  decode 0x10500000#32 = .ok (.qen 1 2) ∧ decode 0x20000000#32 = .ok .qdis ∧ decode 0x4000FFFF#32 = .ok (.qwait 65535) ∧
    decode 0x6F700000#32 = .ok (.calcGain 7 0 5 6) ∧ decode 0x72000004#32 = .ok (.regwr .B 4 0) ∧
    decode 0xA2000000#32 = .ok (.calib .B) ∧ decode 0xB0000000#32 = .ok .bringup ∧ decode 0xC2000001#32 = .ok (.li 1 1)

/-! ## The step, the run, reset -/

/-- A step runs the instruction the program's word at `pc` decodes to, after the engine steps the scheduler lets fall
(R12, R21, R80). -/
def Obligations.StepRunsTheDecodedInstruction : Prop :=
  ∀ (s : State) (w : Word) (i : Instr), s.refused = false → s.err = .ok → s.program[s.pc]? = some w →
    decode w = .ok i → step s = exec i (interleave Config.params s)

/-- An operation that holds goes on where it stands, and nothing else of the caller's happens meanwhile (R100). -/
def Obligations.HeldOperationGoesOn : Prop :=
  ∀ (i : Instr) (s : State) (p : Progress), s.op = some p →
    i.mnemonic ∈ [.QDIS, .QPUSH, .QWAIT, .REGWR, .PWRON, .PWROFF, .CALIB, .BRINGUP] →
    exec i s = .next (runBlocks Config.params true p.blocks p.first p.temps s)

/-- A refused run is given no further meaning (R229). -/
def Obligations.RefusedRunHasNoFurtherMeaning : Prop :=
  ∀ s : State, s.refused = true → step s = .refused .runRefused

/-- R46: the fault set and the refusal mark are empty at launch and never cleared; so a state with a fault is never
followed by a final one (R227). -/
def Obligations.FaultsAndRefusalAreNeverCleared : Prop :=
  State.reset.faults = FaultSet.empty ∧ State.reset.refused = false ∧
    (∀ (i : Instr) (s t : State), exec i s = .next t → MarksKept s t) ∧
    ∀ s t : State, step s = .next t →
      MarksKept s t ∧ ∀ f, s.faults.has f = true → ¬Final Config.params t

/-- After an error no later operation runs (R21, R22, R232); the engine goes on, as it may between any two caller steps and
must before the run ends (R12, R258). That a machine step is then exactly one enabled engine step is the model's choice
(entry 16). -/
def Obligations.ErrorStopsTheCaller : Prop :=
  ∀ s t : State, s.err ≠ .ok → step s = .next t → engineStep Config.params s = some t ∧ EngineFrame s t

/-- Every operation leaves `pc` or moves it by one, and one that holds leaves it (R21). -/
def Obligations.OperationsMovePcByAtMostOne : Prop :=
  ∀ (i : Instr) (s t : State), exec i s = .next t → (t.pc = s.pc ∨ t.pc = s.pc + 1) ∧ (t.op ≠ none → t.pc = s.pc)

/-- R251, with the launch values R250 states: a reset draw meets the invariants. -/
def Obligations.ResetMeetsTheInvariants : Prop :=
  Inv Config.params State.reset ∧ State.reset.pc = 0 ∧ State.reset.err = .ok ∧
    ∀ i : HostVar, readVar State.reset i = none

/-- Every step keeps the invariants: the FIFOs within their depths, the flags within their width, CTRL as a write can
leave it, the converter file canonical (R28, R31, R32, R47), an operation that holds short of its poll bound (R16). -/
def Obligations.StepKeepsTheInvariants : Prop :=
  ∀ s t : State, Inv Config.params s → step s = .next t → Inv Config.params t

/-- R258: where nothing was refused, the run has ended exactly when the step finds nothing to do. -/
def Obligations.RunEndsExactlyWhenNothingIsLeft : Prop :=
  ∀ s : State, s.refused = false → (Ended Config.params s ↔ step s = .fault .runEnded)

/-! ## The engine (42_queue_engine.md) -/

/-- R140: TAKE is enabled exactly in an enabled mode with nothing in progress and a command waiting, and it moves the
head command into the busy slot. -/
def Obligations.EngineTakesTheHead : Prop :=
  ∀ P : Params, P.Lawful →
    ∀ s : State, s.busy = none →
      ((∃ t, engineStep P s = some t) ↔ s.ctrl.mode ≠ .disabled ∧ s.cmdFifo ≠ []) ∧
      ∀ w rest, s.ctrl.mode ≠ .disabled → s.cmdFifo = w :: rest →
        ∃ draw o, engineStep P s =
          some { s with busy := some w, cmdFifo := rest, oracle := o,
                        flags := Word.trunc P.flagW (s.flags ||| draw) }

/-- R141: what DONE does for each kind of command, whatever the mode, and when it is enabled. -/
def Obligations.EngineCompletesTheCommand : Prop :=
  ∀ P : Params, P.Lawful →
    ∀ (s : State) (w : Word), s.busy = some w →
      (∀ u r v, P.decodeCmd w = .write u r v →
        ∃ draw o, engineStep P s =
          some { s with conv := convWrite P u r v s.conv, busy := none, oracle := o,
                        flags := Word.trunc P.flagW (s.flags ||| draw) }) ∧
      (∀ u, ((∃ p, P.decodeCmd w = .sample u p) ∨ ∃ r, P.decodeCmd w = .read u r) →
        if s.respFifo.length < P.respDepth ∧ sampleAllowed P u s = true then
          ∃ e draw o, engineStep P s =
            some { s with respFifo := s.respFifo ++ [e], busy := none, oracle := o,
                          flags := Word.trunc P.flagW (s.flags ||| draw) }
        else engineStep P s = none) ∧
      (P.decodeCmd w = .unknown →
        engineStep P s = some (s.recordFault .unmodelledCommand))

/-- R145: an unknown command records its fault and the queue never becomes idle again by the engine. -/
def Obligations.UnknownCommandNeverLeavesBusy : Prop :=
  ∀ P : Params, P.Lawful →
    ∀ (s : State) (w : Word) (n : Nat), s.busy = some w → P.decodeCmd w = .unknown →
      engineRun P n s = (if n = 0 then s else s.recordFault .unmodelledCommand) ∧
        (engineRun P n s).busy = some w

/-- R154: a sample or read is allowed when its unit is enabled; of a disabled unit it is the parameter; a register write
is never gated. -/
def Obligations.SampleOfADisabledUnitIsTheParameter : Prop :=
  ∀ P : Params, P.Lawful →
    ∀ (s : State) (u : ConvUnit),
      (unitEnabled P u s.conv = true → sampleAllowed P u s = true) ∧
      (unitEnabled P u s.conv = false → sampleAllowed P u s = P.respondWhenDisabled) ∧
      ∀ w r v, s.busy = some w → P.decodeCmd w = .write u r v → ∃ t, engineStep P s = some t

/-- R147: between caller steps the transmit count is never raised and the receive count never lowered; TAKE lowers the
one by one, DONE raises the other by at most one. -/
def Obligations.EngineStepsAreMonotone : Prop :=
  ∀ P : Params, P.Lawful →
    ∀ s t : State, engineStep P s = some t →
      (s.busy = none → t.cmdFifo.length + 1 = s.cmdFifo.length ∧ t.respFifo = s.respFifo) ∧
      (s.busy ≠ none → t.cmdFifo = s.cmdFifo ∧ (t.respFifo = s.respFifo ∨ ∃ e, t.respFifo = s.respFifo ++ [e]))

/-- R150: the engine is weakly fair, a step that stays enabled is eventually taken. From every state the machine reaches one
where an engine step is taken, unless it first reaches one where none is enabled any more, or where the run is refused.
This rests on the law of the model's schedule (entry 17), which bounds no finite stretch: any number of turns without an
engine step may come first. -/
def Obligations.EngineIsWeaklyFair : Prop :=
  ∀ s : State, ∃ t, Reaches s t ∧
    (EngineMoves Config.params t ∨ engineStep Config.params t = none ∨ t.refused = true)

/-- R149: in a quiescent queue no engine step is enabled. -/
def Obligations.QuiescentQueueHasNoEngineStep : Prop :=
  ∀ P : Params, P.Lawful →
    ∀ s : State, s.busy = none → (s.ctrl.mode = .disabled ∨ s.cmdFifo = []) →
      engineStep P s = none ∧ ∃ o, interleave P s = { s with oracle := o }

/-- R68: the engine completes commands in push order, each sample or read giving one response at the tail. -/
def Obligations.CommandsCompleteInPushOrder : Prop :=
  ∀ P : Params, P.Lawful →
    ∀ (n : Nat) (s : State), ∃ completed responses,
      s.busy.toList ++ s.cmdFifo =
        completed ++ ((engineRun P n s).busy.toList ++ (engineRun P n s).cmdFifo) ∧
      (engineRun P n s).respFifo = s.respFifo ++ responses ∧
      responses.length = (completed.filter (producesResponse P)).length

/-- R152: the engine's step does not read `ctrl.other`, `notify` or `flags`. -/
def Obligations.EngineIgnoresNotifyOtherAndFlags : Prop :=
  ∀ P : Params, P.Lawful →
    ∀ (s : State) (n k f : Word),
      (engineStep P { s with notify := n, ctrl := { s.ctrl with other := k }, flags := f }).map
          (fun t => { t with notify := 0#32, ctrl := { t.ctrl with other := 0#32 }, flags := 0#32 }) =
        (engineStep P s).map
          (fun t => { t with notify := 0#32, ctrl := { t.ctrl with other := 0#32 }, flags := 0#32 })

/-- No engine step touches the caller's side, CTRL, NOTIFY or the refusal mark (R140, R141). -/
def Obligations.EngineLeavesTheCallerAlone : Prop :=
  ∀ P : Params, P.Lawful →
    (∀ s t : State, engineStep P s = some t → EngineFrame s t) ∧
      ∀ s : State, EngineFrame s (interleave P s)

/-- A register write that the engine takes and completes puts the truncated value into its register and into no other
(R91, R141, R190). -/
def Obligations.CompletedWriteReachesItsRegister : Prop :=
  ∀ P : Params, P.Lawful →
    ∀ (s : State) (u : ConvUnit) (r : RegIndex) (v : Word),
      s.busy = none → s.ctrl.mode ≠ .disabled → s.cmdFifo = [P.encWrite u r v] →
      r.toNat < 2 ^ P.regW →
      (engineRun P 2 s).busy = none ∧ (engineRun P 2 s).cmdFifo = [] ∧
        (engineRun P 2 s).respFifo = s.respFifo ∧
        convRead P u r (engineRun P 2 s).conv = Word.trunc P.payloadW v ∧
        ∀ w q, ¬(u = w ∧ r = q) →
          convRead P w q (engineRun P 2 s).conv = convRead P w q s.conv

/-- The engine completing PWRON's two writes enables both units, and completing PWROFF's disables both (R38, R192, R194,
R242). -/
def Obligations.PowerWritesSwitchBothUnits : Prop :=
  ∀ P : Params, P.Lawful →
    ∀ s : State, s.busy = none → s.ctrl.mode ≠ .disabled →
      (s.cmdFifo = [P.encWrite .A (P.reg .cr) (P.prescale ||| P.enBit),
          P.encWrite .B (P.reg .cr) (P.prescale ||| P.enBit)] →
        ∀ u, unitEnabled P u (engineRun P 4 s).conv = true) ∧
      (s.cmdFifo = [P.encWrite .A (P.reg .cr) P.prescale,
          P.encWrite .B (P.reg .cr) P.prescale] →
        ∀ u, unitEnabled P u (engineRun P 4 s).conv = false)

/-! ## The controller's registers (10_state.md, 20_memory.md) -/

/-- R24, R25: a CTRL read returns what was last written with INV reading 0; the write empties the command FIFO exactly
when INV is 1 and touches nothing else. -/
def Obligations.ControlReadsBackWithoutTheStrobe : Prop :=
  ∀ P : Params, P.Lawful →
    ∀ (s : State) (v : Word), ∃ t, regWrite P .ctrl v s = .done () t ∧
      regRead P .ctrl t = .done (v &&& ~~~P.invMask) t ∧
      t = { s with ctrl := t.ctrl, cmdFifo := if v &&& P.invMask = 0#32 then s.cmdFifo else [] }

/-- R28: CQ_FLAGS is write-one-to-clear, and FLAG_CLEAR_ALL clears it. -/
def Obligations.FlagsAreWriteOneToClear : Prop :=
  ∀ P : Params, P.Lawful →
    ∀ s : State, Word.trunc P.flagW s.flags = s.flags →
      (∀ v, regWrite P .flags v s =
        .done () { s with flags := s.flags &&& ~~~(Word.trunc P.flagW v) }) ∧
      regWrite P .flags (flagClearAll P) s = .done () { s with flags := 0#32 } ∧
      regRead P .flags s = .done s.flags s

/-- CQ_NOTIFY reads back, CQ_STATUS reports IDLE exactly when nothing is in progress, and the counts are the FIFOs'
lengths (R26, R27, R30 to R33). -/
def Obligations.ReadsReportNotifyIdleAndCounts : Prop :=
  ∀ P : Params, P.Lawful →
    ∀ s : State,
      regRead P .notify s = .done s.notify s ∧
      (∀ v, regWrite P .notify v s = .done () { s with notify := v }) ∧
      (∃ v o, regRead P .status s = .done v { s with oracle := o } ∧
        v &&& P.idleMask = if s.busy = none then P.idleMask else 0#32) ∧
      (s.cmdFifo.length ≤ Config.cmdDepth → ∃ v, regRead P .txcnt s = .done v s ∧ v.toNat = s.cmdFifo.length) ∧
      (s.respFifo.length ≤ P.respDepth → ∃ v, regRead P .rxcnt s = .done v s ∧ v.toNat = s.respFifo.length)

/-- No access of the caller's sets a flag, changes a converter register or touches the busy slot (R36, R37, R43). -/
def Obligations.CallerAccessesSetNoFlagAndReachNoConverter : Prop :=
  ∀ P : Params, P.Lawful →
    (∀ (r : Reg) (v : Word) (s t : State), regWrite P r v s = .done () t →
      t.flags &&& ~~~s.flags = 0#32 ∧ t.conv = s.conv ∧ t.busy = s.busy ∧ t.respFifo = s.respFifo) ∧
    ∀ (r : Reg) (v : Word) (s t : State), regRead P r s = .done v t →
      t.flags = s.flags ∧ t.conv = s.conv ∧ t.busy = s.busy ∧ t.cmdFifo = s.cmdFifo

/-- The accesses no operation makes are refused, and nothing else happens (R27, R29, R30, R32, R34, R229). -/
def Obligations.AccessesNoOperationMakesAreRefused : Prop :=
  ∀ P : Params, P.Lawful →
    ∀ (s : State) (v : Word),
      regRead P .push s = .refused s.markRefused ∧
      regWrite P .status v s = .refused s.markRefused ∧
      regWrite P .rxcnt v s = .refused s.markRefused ∧
      regWrite P .pop v s = .refused s.markRefused ∧
      (s.cmdFifo.length = 4 → regWrite P .push v s = .refused s.markRefused) ∧
      (s.cmdFifo.length < 4 → regWrite P .push v s = .done () { s with cmdFifo := s.cmdFifo ++ [v] }) ∧
      (v ≠ 0#32 → regWrite P .txcnt v s = .refused s.markRefused) ∧
      regWrite P .txcnt 0#32 s = .done () { s with cmdFifo := [] }

/-- R15, R62: the register block is reached by whole words at its registers' addresses, and by nothing else. -/
def Obligations.OnlyWholeWordsAtARegistersAddress : Prop :=
  ∀ P : Params, P.Lawful →
    ∀ (s : State) (v : Word),
      (∀ r, P.addr r % 4 = 0 ∧
        memRead P (P.addr r) 4 s = regRead P r s ∧
        memWrite P (P.addr r) 4 v s = regWrite P r v s) ∧
      ∀ a n, (n ≠ 4 ∨ ∀ r, P.addr r ≠ a) →
        memRead P a n s = .refused s.markRefused ∧ memWrite P a n v s = .refused s.markRefused

/-! ## Queue-controller operations (41_queue_controller.md) -/

/-- R101: QEN writes CTRL, then NOTIFY; engine steps may fall between the two, and nothing else changes. -/
def Obligations.EnableWritesControlThenNotify : Prop :=
  ∀ (s : State) (rs1 rs2 : HostVar) (c n : Word), readVar s rs1 = some c → readVar s rs2 = some n →
    exec (.qen rs1 rs2) s =
      .next { interleave Config.params
                { s with ctrl := ctrlOfWord Config.params c,
                         cmdFifo := if invSet Config.params c then [] else s.cmdFifo } with
              notify := n, op := none, pc := s.pc + 1 }

/-- R101, corner cases and example: where no engine step is enabled after the CTRL write, QEN changes CTRL, NOTIFY, the
command FIFO if INV is set, and `pc`, and nothing else. -/
def Obligations.EnableInAQuietQueueChangesNothingElse : Prop :=
  ∀ (s : State) (rs1 rs2 : HostVar) (c n : Word), readVar s rs1 = some c → readVar s rs2 = some n → s.busy = none →
    (s.cmdFifo = [] ∨ invSet Config.params c = true ∨ (ctrlOfWord Config.params c).mode = .disabled) →
    ∃ o, exec (.qen rs1 rs2) s =
      .next { s with ctrl := ctrlOfWord Config.params c, notify := n, op := none, pc := s.pc + 1, oracle := o,
                     cmdFifo := if invSet Config.params c then [] else s.cmdFifo }

/-- R102: QEN is idempotent on CTRL and NOTIFY. -/
def Obligations.EnableIsIdempotent : Prop :=
  ∀ (s t : State) (rs1 rs2 : HostVar) (c n : Word), readVar s rs1 = some c → readVar s rs2 = some n →
    invSet Config.params c = false → exec (.qen rs1 rs2) s = .next t →
    ∃ t', exec (.qen rs1 rs2) t = .next t' ∧ t'.ctrl = t.ctrl ∧ t'.notify = t.notify ∧
      t.ctrl = ctrlOfWord Config.params c ∧ t.notify = n

/-- QDIS in a queue with nothing in progress: the six steps complete, whatever the schedule, and so they do where QDIS held
at its third (R103, R105, R106, R109); a second `disable` ends in the state it found (R108). -/
def Obligations.DisableCompletesWhenIdle : Prop :=
  (∀ s : State,
    (s.op = none ∨
      (s.ctrl = ⟨.disabled, 0#32⟩ ∧ s.notify = 0#32 ∧
        ∃ temps, s.op = some ⟨[(disableActs Config.params).drop 2], .ok, temps⟩)) →
    s.busy = none →
    ∃ o, exec .qdis s =
      .next { s with ctrl := ⟨.disabled, 0#32⟩, notify := 0#32, cmdFifo := [], flags := 0#32, op := none, pc := s.pc + 1,
                     oracle := o }) ∧
  ∀ s : State, DisabledPost s → s.op = none → ∃ o, exec .qdis s = .next { s with pc := s.pc + 1, oracle := o }

/-- R107: the post-state of a `disable` that completes in the step it starts, and of one that held. -/
def Obligations.CompletedDisablePostState : Prop :=
  ∀ s t : State,
    (s.op = none ∨
      (s.ctrl = ⟨.disabled, 0#32⟩ ∧ s.notify = 0#32 ∧
        ∃ temps, s.op = some ⟨[(disableActs Config.params).drop 2], .ok, temps⟩)) →
    exec .qdis s = .next t → t.pc = s.pc + 1 →
    DisabledPost t ∧ engineStep Config.params t = none ∧ t.op = none ∧ t.err = s.err ∧
      (t.respFifo = s.respFifo ∨ ∃ e, t.respFifo = s.respFifo ++ [e]) ∧
      (t.conv = s.conv ∨ ∃ w u r v, s.busy = some w ∧ Config.params.decodeCmd w = .write u r v ∧
        t.conv = convWrite Config.params u r v s.conv)

/-- R105, R221, R265: while the command in progress cannot complete (no engine step is enabled, or it is unknown and records
its fault only), QDIS holds at step 3, or times out at the bound; mode and NOTIFY are written, the FIFO is not
invalidated, the flags are not cleared. Where it has held, each failed poll adds one, up to the bound. -/
def Obligations.DisableHoldsWhileTheCommandIsStuck : Prop :=
  (∀ (s : State) (w : Word), s.op = none → s.busy = some w →
    (engineStep Config.params s = none ∨ Config.params.decodeCmd w = .unknown) →
    ∃ o faults,
      (faults = s.faults ∨
        (Config.params.decodeCmd w = .unknown ∧ faults = { s.faults with unmodelledCommand := true })) ∧
      exec .qdis s =
        .next (afterFailedPoll Config.params ((disableActs Config.params).drop 2) .start .timeoutIdle
          { s with ctrl := ⟨.disabled, 0#32⟩, notify := 0#32, faults := faults, oracle := o })) ∧
  ∀ (s : State) (w : Word) (temps : Temps), s.op = some ⟨[(disableActs Config.params).drop 2], .ok, temps⟩ →
    s.busy = some w →
    ∃ o, exec .qdis s =
      .next (afterFailedPoll Config.params ((disableActs Config.params).drop 2) temps .timeoutIdle { s with oracle := o })

/-- R111: with fewer than four commands outstanding QPUSH appends its word, whatever the schedule; it does so too where
it has held. A push into a disabled idle queue waits in the FIFO and changes nothing else (R112 c). -/
def Obligations.PushAppendsTheWord : Prop :=
  (∀ (s : State) (rs1 : HostVar) (w : Word),
    ((s.op = none ∧ readVar s rs1 = some w) ∨ ∃ temps, s.op = some ⟨[pushActs (.word w)], .ok, temps⟩) →
    s.cmdFifo.length < 4 →
    exec (.qpush rs1) s =
      .next { interleave Config.params s with
              cmdFifo := (interleave Config.params s).cmdFifo ++ [w], op := none, pc := s.pc + 1 }) ∧
  ∀ (s : State) (rs1 : HostVar) (w : Word), s.op = none → readVar s rs1 = some w → s.cmdFifo.length < 4 →
    s.busy = none → s.ctrl.mode = .disabled →
    ∃ o, exec (.qpush rs1) s = .next { s with cmdFifo := s.cmdFifo ++ [w], pc := s.pc + 1, oracle := o }

/-- R112 a, R202, R222: with four commands outstanding an operation at a push's poll holds, one more failed poll counted, or
raises at the bound with the word not pushed and no later step of the operation taken: QPUSH, REGWR, PWRON, PWROFF and
CALIB at their first push, and at any push they have held at. -/
def Obligations.PushHoldsWhenFourAreOutstanding : Prop :=
  ∀ (s : State) (i : Instr) (src : PushSource) (acts : List CallerAct) (temps : Temps), s.cmdFifo.length = 4 →
    ((s.op = none ∧ temps = .start ∧ pushStart Config.params s i = some (.holdPush src :: acts)) ∨
      (i.mnemonic ∈ [.QPUSH, .REGWR, .PWRON, .PWROFF, .CALIB] ∧ s.op = some ⟨[.holdPush src :: acts], .ok, temps⟩)) →
    exec i s =
      .next (afterFailedPoll Config.params (.holdPush src :: acts) temps
        (fun k => .timeoutPush k (pushWord Config.params temps src)) s)

/-- R115, R116: with enough responses QWAIT clears every flag and removes no entry, also where it has held. -/
def Obligations.WaitClearsEveryFlag : Prop :=
  ∀ (s : State) (n : BitVec 16),
    (s.op = none ∨ ∃ temps, s.op = some ⟨[waitActs Config.params n.toNat], .ok, temps⟩) →
    n.toNat ≤ s.respFifo.length →
    s.respFifo.length ≤ Config.params.respDepth →
    exec (.qwait n) s = .next { interleave Config.params s with flags := 0#32, op := none, pc := s.pc + 1 } ∧
      n.toNat ≤ (interleave Config.params s).respFifo.length ∧
      ∃ l, (interleave Config.params s).respFifo = s.respFifo ++ l

/-- R117 b, R202, R223: with too few responses QWAIT, and CALIB where it has held at its wait, holds, one more failed poll
counted, or times out at the bound; no flag is cleared and no later step of the operation is taken. -/
def Obligations.WaitHoldsWhileResponsesAreMissing : Prop :=
  ∀ (s : State) (i : Instr) (n : Nat) (acts : List CallerAct) (temps : Temps), s.respFifo.length < n →
    s.respFifo.length ≤ Config.params.respDepth →
    ((s.op = none ∧ temps = .start ∧ .holdResponses n :: acts = waitActs Config.params n ∧
        ∃ imm : BitVec 16, i = .qwait imm ∧ imm.toNat = n) ∨
      (i.mnemonic ∈ [.QWAIT, .CALIB] ∧ s.op = some ⟨[.holdResponses n :: acts], .ok, temps⟩)) →
    exec i s =
      .next (afterFailedPoll Config.params (.holdResponses n :: acts) temps
        (fun k => .timeoutResponse k n s.respFifo.length) s)

/-- Under the fair engine (R150, entry 17) a wait that an engine step can end does end: a push held on four commands of an
enabled idle queue, a `disable` held on a command that can complete, a wait held one response short with a command in
progress that can answer. Each completes, or times out where polls are bounded (R270). -/
def Obligations.FairEngineEndsTheWaits : Prop :=
  ∀ (s : State) (word cw : Word) (i : Instr) (temps : Temps), s.refused = false → s.err = .ok →
    s.program[s.pc]? = some word → decode word = .ok i →
    (∀ rs1 w, i = .qpush rs1 → s.op = some ⟨[pushActs (.word w)], .ok, temps⟩ → s.cmdFifo.length = 4 → s.busy = none →
      s.ctrl.mode ≠ .disabled → WaitEnds Config.params s fun e => ∃ k, e = .timeoutPush k w) ∧
    (i = .qdis → s.op = some ⟨[(disableActs Config.params).drop 2], .ok, temps⟩ → s.ctrl.mode = .disabled →
      s.busy = some cw → Config.params.decodeCmd cw ≠ .unknown → (∃ u, engineStep Config.params s = some u) →
      WaitEnds Config.params s fun e => ∃ k, e = .timeoutIdle k) ∧
    ∀ imm, i = .qwait imm → s.op = some ⟨[waitActs Config.params imm.toNat], .ok, temps⟩ →
      imm.toNat = s.respFifo.length + 1 → s.busy = some cw → producesResponse Config.params cw = true →
      (∃ u, engineStep Config.params s = some u) →
      WaitEnds Config.params s fun e => ∃ k, e = .timeoutResponse k imm.toNat s.respFifo.length

/-- R119, R120: QPOP takes the head entry into its variable; on an empty FIFO it records the fault and writes none. -/
def Obligations.PopTakesTheHeadEntry : Prop :=
  ∀ (s : State) (rd : HostVar),
    (∀ e rest, s.respFifo = e :: rest →
      exec (.qpop rd) s =
        .next { s with x := s.x.set rd.val (some e) rd.isLt, respFifo := rest, op := none, pc := s.pc + 1 }) ∧
    (s.respFifo = [] →
      exec (.qpop rd) s =
        .next { s with faults := { s.faults with respUnderflow := true }, op := none, pc := s.pc + 1 })

/-- R122: LI writes the zero-extended immediate and nothing else. -/
def Obligations.LoadImmediateWritesOneVariable : Prop :=
  ∀ (s : State) (rd : HostVar) (imm : BitVec 16),
    exec (.li rd imm) s =
      .next { s with x := s.x.set rd.val (some (BitVec.ofNat 32 imm.toNat)) rd.isLt, op := none, pc := s.pc + 1 }

/-- R228: an operation that reads a host variable never written records the fault and does nothing else. -/
def Obligations.UnwrittenHostVariableFaults : Prop :=
  ∀ (s : State) (a b : HostVar),
    (readVar s a = none ∨ readVar s b = none →
      exec (.qen a b) s =
        .next { s with faults := { s.faults with unwrittenHostVar := true }, op := none, pc := s.pc + 1 } ∧
      ∀ rd rd2, exec (.calcGain rd rd2 a b) s =
        .next { s with faults := { s.faults with unwrittenHostVar := true }, op := none, pc := s.pc + 1 }) ∧
    (readVar s a = none → s.op = none →
      exec (.qpush a) s =
        .next { s with faults := { s.faults with unwrittenHostVar := true }, pc := s.pc + 1 } ∧
      ∀ u (r : RegIndex), r.toNat < 2 ^ Config.params.regW →
        exec (.regwr u r a) s =
          .next { s with faults := { s.faults with unwrittenHostVar := true }, pc := s.pc + 1 })

/-- Only QPOP, CALC and LI write a host variable; the composites keep their values to themselves (R84, and the head of
44_client_sequences.md). No operation writes the program; that State holds one is the model's choice (entry 1). -/
def Obligations.OtherOperationsWriteNoHostVariable : Prop :=
  ∀ (i : Instr) (s t : State), exec i s = .next t →
    t.program = s.program ∧
      (i.mnemonic ≠ .QPOP → i.mnemonic ≠ .CALC → i.mnemonic ≠ .LI → t.x = s.x)

/-- In a disabled idle queue no operation but QEN and BRINGUP moves the engine: converters and responses stay, but for
the entries QPOP and CALIB take themselves (R37, R149). -/
def Obligations.DisabledQueueReachesNoConverter : Prop :=
  ∀ (i : Instr) (s t : State), exec i s = .next t → s.op = none → s.busy = none → s.ctrl.mode = .disabled →
    i.mnemonic ≠ .QEN → i.mnemonic ≠ .BRINGUP →
    t.conv = s.conv ∧ t.busy = none ∧ t.ctrl.mode = .disabled ∧
      (i.mnemonic ≠ .QPOP → i.mnemonic ≠ .CALIB → t.respFifo = s.respFifo)

/-! ## The calibration datapath (43_calibration_datapath.md) -/

/-- R171: CALC on a pair that is not degenerate, both inputs read first, gain written first and offset second; the
values are those of the formulas over the integers. -/
def Obligations.CalcWritesGainThenOffset : Prop :=
  ∀ (s : State) (rd rd2 rs1 rs2 : HostVar) (a b : Word), readVar s rs1 = some a → readVar s rs2 = some b →
    a.toNat % 65536 < b.toNat % 65536 →
    exec (.calcGain rd rd2 rs1 rs2) s =
      .next { s with
        x := (s.x.set rd.val (some (BitVec.ofNat 32 (134217728 / (b.toNat % 65536 - a.toNat % 65536)))) rd.isLt).set
          rd2.val
          (some (BitVec.ofNat 32 (((12286 : Int) -
            (((134217728 / (b.toNat % 65536 - a.toNat % 65536) * (b.toNat % 65536)) % 4294967296 / 16384 : Nat) : Int)) %
              65536).toNat)) rd2.isLt
        op := none
        pc := s.pc + 1 }

/-- R172, R224: on a pair with `res75 <= res25` CALC raises the error and writes nothing. -/
def Obligations.CalcRaisesOnADegeneratePair : Prop :=
  ∀ (s : State) (rd rd2 rs1 rs2 : HostVar) (a b : Word), readVar s rs1 = some a → readVar s rs2 = some b →
    b.toNat % 65536 ≤ a.toNat % 65536 →
    exec (.calcGain rd rd2 rs1 rs2) s = .next { s with op := none, err := .degenerate (codeOf a) (codeOf b) } ∧
      (codeOf a).toNat = a.toNat % 65536 ∧ (codeOf b).toNat = b.toNat % 65536

/-- R174: the gain's value and its range over the guarded pairs, exact for a power of two. -/
def Obligations.GainIsTheFloorAndStaysInRange : Prop :=
  ∀ r25 r75 : BitVec 16, r25.toNat < r75.toNat →
    (calGain r25 r75).toNat = 134217728 / (r75.toNat - r25.toNat) ∧
      2048 ≤ (calGain r25 r75).toNat ∧ (calGain r25 r75).toNat ≤ 134217728 ∧
      ∀ j ≤ 15, r75.toNat - r25.toNat = 2 ^ j → (calGain r25 r75).toNat = 2 ^ (27 - j)

/-- R178: with any product width of 30 bits or more the scaled product is the unbounded one modulo `2^(width-14)`, and the
offset is the same as with no wrap at all. -/
def Obligations.OffsetDoesNotDependOnTheProductWidth : Prop :=
  ∀ (r25 r75 : BitVec 16), r25.toNat < r75.toNat →
    (∀ width ≥ 30, (calGain r25 r75).toNat * r75.toNat % 2 ^ width / 16384 =
        (calGain r25 r75).toNat * r75.toNat / 16384 % 2 ^ (width - 14) ∧
      ((calOffset r25 r75).toNat : Int) =
      (12286 - ((((calGain r25 r75).toNat * r75.toNat) % 2 ^ width / 16384 : Nat) : Int)) % 65536) ∧
    ((calOffset r25 r75).toNat : Int) =
      (12286 - ((((calGain r25 r75).toNat * r75.toNat) / 16384 : Nat) : Int)) % 65536

/-! ## The client sequences (44_client_sequences.md) -/

/-- R190: REGWR pushes the encoded register write, whatever the schedule, at its start and where it has held. -/
def Obligations.RegisterWriteIsEnqueued : Prop :=
  ∀ (s : State) (u : ConvUnit) (r : RegIndex) (rs1 : HostVar) (v : Word),
    ((s.op = none ∧ r.toNat < 2 ^ Config.params.regW ∧ readVar s rs1 = some v) ∨
      ∃ temps, s.op = some ⟨[pushActs (.word (Config.params.encWrite u r v))], .ok, temps⟩) →
    s.cmdFifo.length < 4 →
    exec (.regwr u r rs1) s =
      .next { interleave Config.params s with
              cmdFifo := (interleave Config.params s).cmdFifo ++ [Config.params.encWrite u r v],
              op := none, pc := s.pc + 1 }

/-- R83, R229: a REGWR register index outside the index set is refused. That this comes before the operand is read, so that
an unwritten variable records no fault, is the model's reading (entry 18, DEDUCED); that everything but the refusal mark
stays as it was is its choice (entry 15). -/
def Obligations.RegisterIndexOutsideTheSetIsRefused : Prop :=
  (∀ P : Params, P.Lawful → ∀ (s : State) (u : ConvUnit) (r : RegIndex) (rs1 : HostVar), s.op = none →
    2 ^ P.regW ≤ r.toNat → regwrOp P u r rs1 s = s.markRefused) ∧
  ∀ (s : State) (u : ConvUnit) (r : RegIndex) (rs1 : HostVar),
    exec (.regwr u r rs1) s = .next (regwrOp Config.params u r rs1 s)

/-- R192 to R194: PWRON and PWROFF push unit A's control write, then unit B's; the word is PRESCALE with the enable bit for
the one, without it for the other. With room for both they complete, whatever the schedule. Where three commands stand,
at the start or where the first push has held, A's is pushed; then, as the engine made room or not, B's is pushed or its
poll fails. Where the second push has held, it goes in as soon as there is room. -/
def Obligations.PowerOperationsPushAThenB : Prop :=
  ∀ (s : State) (i : Instr) (v wA wB : Word) (temps : Temps),
    ((i = .pwron ∧ v = Config.params.prescale ||| Config.params.enBit) ∨ (i = .pwroff ∧ v = Config.params.prescale)) →
    wA = Config.params.encWrite .A (Config.params.reg .cr) v →
    wB = Config.params.encWrite .B (Config.params.reg .cr) v →
    (((s.op = none ∧ temps = .start) ∨ s.op = some ⟨[pushActs (.word wA) ++ pushActs (.word wB)], .ok, temps⟩) →
      ∃ s1 s2 : State,
        s1 = { interleave Config.params s with cmdFifo := (interleave Config.params s).cmdFifo ++ [wA] } ∧
        s2 = interleave Config.params s1 ∧
        (s.cmdFifo.length ≤ 2 → s2.cmdFifo.length < 4) ∧
        (s.cmdFifo.length < 4 →
          exec i s =
            .next (if s2.cmdFifo.length < 4 then
                { interleave Config.params s2 with
                  cmdFifo := (interleave Config.params s2).cmdFifo ++ [wB], op := none, pc := s.pc + 1 }
              else
                afterFailedPoll Config.params (pushActs (.word wB)) { temps with polls := 0 } (fun k => .timeoutPush k wB)
                  s2))) ∧
    (s.op = some ⟨[pushActs (.word wB)], .ok, temps⟩ → s.cmdFifo.length < 4 →
      exec i s =
        .next { interleave Config.params s with
                cmdFifo := (interleave Config.params s).cmdFifo ++ [wB], op := none, pc := s.pc + 1 })

/-- CALIB on an enabled, empty queue whose engine takes every enabled step: the two responses are paired in push order
and the one computed pair goes to all three modes' registers (R196 to R200). The last of the six writes is the one
still in the FIFO when the operation completes. -/
def Obligations.CalibrateWritesTheSixCorrections : Prop :=
  ∀ (s : State) (u : ConvUnit) (e25 e75 : Word) (rest : List Word),
    s.op = none → s.ctrl.mode ≠ .disabled → s.busy = none → s.cmdFifo = [] → s.respFifo = [] →
    unitEnabled Config.params u s.conv = true → s.oracle.sched = .eager → s.oracle.responses = e25 :: e75 :: rest →
    (codeOf e25).toNat < (codeOf e75).toNat →
    ∃ t, exec (.calib u) s = .next t ∧ t.pc = s.pc + 1 ∧ t.op = none ∧ t.err = s.err ∧ t.x = s.x ∧ t.ctrl = s.ctrl ∧
      t.notify = s.notify ∧ t.faults = s.faults ∧ t.refused = s.refused ∧ t.program = s.program ∧
      t.respFifo = [] ∧ t.busy = none ∧
      t.cmdFifo = [Config.params.encWrite u (Config.params.reg (.occ .alt2))
        ((calOffset (codeOf e25) (codeOf e75)).setWidth 32)] ∧
      (∀ m, convRead Config.params u (Config.params.reg (.gcc m)) t.conv =
        Word.trunc Config.params.payloadW (calGain (codeOf e25) (codeOf e75))) ∧
      (∀ m, m ≠ .alt2 → convRead Config.params u (Config.params.reg (.occ m)) t.conv =
        Word.trunc Config.params.payloadW ((calOffset (codeOf e25) (codeOf e75)).setWidth 32)) ∧
      ∀ w q, (w ≠ u ∨ ∀ m, q ≠ Config.params.reg (.gcc m) ∧ q ≠ Config.params.reg (.occ m)) →
        convRead Config.params w q t.conv = convRead Config.params w q s.conv

/-- R201, R224: on a degenerate pair CALIB raises the error, has popped both responses, and pushes none of the six
writes. -/
def Obligations.CalibrateOnADegeneratePairWritesNothing : Prop :=
  ∀ (s : State) (u : ConvUnit) (e25 e75 : Word) (rest : List Word),
    s.op = none → s.ctrl.mode ≠ .disabled → s.busy = none → s.cmdFifo = [] → s.respFifo = [] →
    unitEnabled Config.params u s.conv = true → s.oracle.sched = .eager → s.oracle.responses = e25 :: e75 :: rest →
    (codeOf e75).toNat ≤ (codeOf e25).toNat →
    ∃ t, exec (.calib u) s = .next t ∧ t.pc = s.pc ∧ t.op = none ∧ t.err = .degenerate (codeOf e25) (codeOf e75) ∧
      t.x = s.x ∧ t.ctrl = s.ctrl ∧ t.notify = s.notify ∧ t.faults = s.faults ∧ t.refused = s.refused ∧
      t.respFifo = s.respFifo ∧ t.busy = none ∧ t.cmdFifo = [] ∧ t.conv = s.conv

/-- BRINGUP from the clean entry state with an eager engine (R205, R256, R257 where the FIFO has drained): the queue is
disabled and empty, both units are powered down, and every configured unit holds its constants and its resolution
selects; a unit takes the next two responses, A first; no other register changes. -/
def Obligations.BringupFromCleanCalibratesAndPowersDown : Prop :=
  ∀ (s : State) (e1 e2 e3 e4 : Word) (rest : List Word),
    Clean Config.params s → s.op = none → s.err = .ok → s.oracle.sched = .eager →
    s.oracle.responses = e1 :: e2 :: e3 :: e4 :: rest →
    (codeOf e1).toNat < (codeOf e2).toNat → (codeOf e3).toNat < (codeOf e4).toNat →
    ∃ t, exec .bringup s = .next t ∧ t.pc = s.pc + 1 ∧ t.op = none ∧ t.err = .ok ∧ DisabledPost t ∧
      engineStep Config.params t = none ∧ t.respFifo = [] ∧ t.x = s.x ∧ t.faults = s.faults ∧ t.refused = false ∧
      t.program = s.program ∧
      (∀ u, convRead Config.params u (Config.params.reg .cr) t.conv = Config.params.prescale ∧
        unitEnabled Config.params u t.conv = false) ∧
      ∀ u, if Config.params.units u = true then
          (∀ a b, (a, b) = (if u = .B ∧ Config.params.units .A = true then (e3, e4) else (e1, e2)) →
            ∀ m, convRead Config.params u (Config.params.reg (.gcc m)) t.conv =
                Word.trunc Config.params.payloadW (calGain (codeOf a) (codeOf b)) ∧
              convRead Config.params u (Config.params.reg (.occ m)) t.conv =
                Word.trunc Config.params.payloadW ((calOffset (codeOf a) (codeOf b)).setWidth 32)) ∧
          convRead Config.params u (Config.params.reg .acr1) t.conv = Config.params.res10 ∧
          convRead Config.params u (Config.params.reg .acr2) t.conv = Config.params.res8 ∧
          ∀ q, (∀ n, q ≠ Config.params.reg n) → convRead Config.params u q t.conv = convRead Config.params u q s.conv
        else ∀ q, q ≠ Config.params.reg .cr →
          convRead Config.params u q t.conv = convRead Config.params u q s.conv

/-- R204: where the first configured unit's pair is degenerate, bring-up still powers both units down and disables the
queue, calibrates no unit, and reports that error. -/
def Obligations.BringupCleansUpAfterAnError : Prop :=
  ∀ (s : State) (e1 e2 : Word) (rest : List Word),
    Clean Config.params s → s.op = none → s.err = .ok → s.oracle.sched = .eager →
    s.oracle.responses = e1 :: e2 :: rest → (codeOf e2).toNat ≤ (codeOf e1).toNat →
    ∃ t, exec .bringup s = .next t ∧ t.op = none ∧ DisabledPost t ∧ t.respFifo = [] ∧
      (∀ u, convRead Config.params u (Config.params.reg .cr) t.conv = Config.params.prescale) ∧
      (∀ u q, q ≠ Config.params.reg .cr → convRead Config.params u q t.conv = convRead Config.params u q s.conv) ∧
      if Config.params.units .A = true ∨ Config.params.units .B = true then
        t.err = .degenerate (codeOf e1) (codeOf e2) ∧ t.pc = s.pc
      else t.err = .ok ∧ t.pc = s.pc + 1

/-- Whatever the schedule and the draws, a bring-up that ends, in the step it starts or in a later one, leaves the queue
disabled with its enables clear; one that completes leaves `disable`'s post-state, and one that does not has an error to
report; one that does not end holds where a later step finds it again (R203, R204: enable, use, disable, strictly
bracketed). -/
def Obligations.BringupAlwaysLeavesTheQueueDisabled : Prop :=
  (∀ P : Params, P.Lawful → ∀ s : State, Inv P s → s.op = none ∨ BringupHeld P s →
    ((bringupOp P s).op = none →
      (bringupOp P s).ctrl.mode = .disabled ∧ (bringupOp P s).notify = 0#32 ∧
        ((bringupOp P s).pc = s.pc + 1 → DisabledPost (bringupOp P s) ∧ (bringupOp P s).err = s.err) ∧
        ((bringupOp P s).pc = s.pc → (bringupOp P s).err ≠ .ok)) ∧
      ((bringupOp P s).op ≠ none → BringupHeld P (bringupOp P s) ∧ (bringupOp P s).pc = s.pc)) ∧
  ∀ s : State, exec .bringup s = .next (bringupOp Config.params s)
end

