-- ==== Sys2Proof/Laws/Conv.lean ====
section
/-! SUPPORT. The converter register file: read after write, and the canonical form is kept. -/

set_option Elab.async false

namespace Sys2Proof.Machine

variable (P : Params)

theorem convRank_injective {u v : ConvUnit} {r q : RegIndex} (h : convRank u r = convRank v q) : u = v ∧ r = q := by
  have hr := r.isLt
  have hq := q.isLt
  cases u <;> cases v <;> simp [convRank, ConvUnit.index] at h ⊢ <;> first | exact BitVec.eq_of_toNat_eq h | omega

theorem convRead_convPut_same (n : ConvCell) (f : ConvFile) :
    convRead P n.unit n.reg (convPut n f) = n.value := by
  induction f with
  | nil => simp [convPut, convRead, cellRank]
  | cons c cs ih =>
    unfold convPut
    split
    · simp [convRead, cellRank]
    · split
      · simp [convRead, cellRank]
      · rename_i h
        simpa [convRead, show ¬cellRank c = convRank n.unit n.reg from h] using ih

theorem convRead_convPut_other (n : ConvCell) (f : ConvFile) (u : ConvUnit) (r : RegIndex)
    (h : cellRank n ≠ convRank u r) : convRead P u r (convPut n f) = convRead P u r f := by
  induction f with
  | nil => simp [convPut, convRead, h]
  | cons c cs ih =>
    unfold convPut
    split
    · simp [convRead, h]
    · split
      · rename_i e
        simp [convRead, h, e]
      · simp [convRead, ih]

theorem convRead_convDrop_same (f : ConvFile) (u : ConvUnit) (r : RegIndex) :
    convRead P u r (convDrop (convRank u r) f) = P.convReset u r := by
  induction f with
  | nil => rfl
  | cons c cs ih =>
    by_cases h : cellRank c = convRank u r
    · simpa [convDrop, h] using ih
    · simpa [convDrop, h, convRead] using ih

theorem convRead_convDrop_other (f : ConvFile) (k : Nat) (u : ConvUnit) (r : RegIndex) (h : k ≠ convRank u r) :
    convRead P u r (convDrop k f) = convRead P u r f := by
  induction f with
  | nil => rfl
  | cons c cs ih =>
    by_cases hc : cellRank c = k
    · have : cellRank c ≠ convRank u r := hc ▸ h
      simpa [convDrop, hc, convRead, this, h] using ih
    · have ih' : convRead P u r (List.filter (fun c => cellRank c != k) cs) = convRead P u r cs := ih
      simp [convDrop, hc, convRead, ih']

/-- A register just written holds what was written (R141). -/
@[simp] theorem convRead_convWrite_same (u : ConvUnit) (r : RegIndex) (v : Word) (f : ConvFile) :
    convRead P u r (convWrite P u r v f) = v := by
  unfold convWrite
  split
  · rename_i h
    rw [convRead_convDrop_same, h]
  · exact convRead_convPut_same P ⟨u, r, v⟩ f

/-- Writing one register leaves every other alone (R141). -/
theorem convRead_convWrite_other (u w : ConvUnit) (r q : RegIndex) (v : Word) (f : ConvFile)
    (h : ¬(u = w ∧ r = q)) : convRead P w q (convWrite P u r v f) = convRead P w q f := by
  have hk : convRank u r ≠ convRank w q := fun e => h (convRank_injective e)
  unfold convWrite
  split
  · exact convRead_convDrop_other P f _ w q hk
  · exact convRead_convPut_other P ⟨u, r, v⟩ f w q hk

theorem mem_convPut {n c : ConvCell} {f : ConvFile} (h : c ∈ convPut n f) : c = n ∨ c ∈ f := by
  induction f with
  | nil => exact .inl (by simpa [convPut] using h)
  | cons d ds ih =>
    unfold convPut at h
    split at h
    · simpa using h
    · split at h
      · rcases List.mem_cons.1 h with e | m
        · exact .inl e
        · exact .inr (List.mem_cons_of_mem _ m)
      · rcases List.mem_cons.1 h with e | m
        · exact .inr (e ▸ List.mem_cons_self)
        · rcases ih m with e | m'
          · exact .inl e
          · exact .inr (List.mem_cons_of_mem _ m')

theorem convPut_sorted (n : ConvCell) {f : ConvFile} (h : f.Pairwise fun a b => cellRank a < cellRank b) :
    (convPut n f).Pairwise fun a b => cellRank a < cellRank b := by
  induction f with
  | nil => simp [convPut]
  | cons c cs ih =>
    obtain ⟨hc, hcs⟩ := List.pairwise_cons.1 h
    unfold convPut
    split
    · rename_i hlt
      refine List.pairwise_cons.2 ⟨fun b hb => ?_, h⟩
      rcases List.mem_cons.1 hb with rfl | m
      · exact hlt
      · exact hlt.trans (hc b m)
    · split
      · rename_i e
        exact List.pairwise_cons.2 ⟨fun b hb => by rw [← e]; exact hc b hb, hcs⟩
      · refine List.pairwise_cons.2 ⟨fun b hb => ?_, ih hcs⟩
        rcases mem_convPut hb with rfl | m
        · omega
        · exact hc b m

/-- A write keeps the canonical form, when its register and its payload are of the right width. -/
theorem convWf_convWrite (u : ConvUnit) (r : RegIndex) (v : Word) {f : ConvFile} (h : convWf P f)
    (hr : r.toNat < 2 ^ P.regW) (hv : Word.trunc P.payloadW v = v) : convWf P (convWrite P u r v f) := by
  obtain ⟨hs, hm⟩ := h
  unfold convWrite
  split
  · exact ⟨hs.filter _, fun c hc => hm c (List.mem_filter.1 hc).1⟩
  · rename_i hne
    refine ⟨convPut_sorted _ hs, fun c hc => ?_⟩
    rcases mem_convPut hc with rfl | m
    · exact ⟨hne, hr, hv⟩
    · exact hm c m

/-- After reset the converter file has its canonical form. -/
theorem convWf_reset : convWf P State.reset.conv := by
  have h : State.reset.conv = [] := rfl
  rw [h]
  exact ⟨List.Pairwise.nil, fun _ h => absurd h List.not_mem_nil⟩

end Sys2Proof.Machine
end

