-- ==== Sys2Proof/Laws/State.lean ====
section
/-! SUPPORT. One lemma per field per named update of State, so that no proof unfolds a record update. -/

set_option Elab.async false

namespace Sys2Proof.Machine

variable (s : State)

@[simp] theorem State.complete_ctrl : (s.complete).ctrl = s.ctrl := rfl
@[simp] theorem State.complete_notify : (s.complete).notify = s.notify := rfl
@[simp] theorem State.complete_flags : (s.complete).flags = s.flags := rfl
@[simp] theorem State.complete_cmdFifo : (s.complete).cmdFifo = s.cmdFifo := rfl
@[simp] theorem State.complete_busy : (s.complete).busy = s.busy := rfl
@[simp] theorem State.complete_respFifo : (s.complete).respFifo = s.respFifo := rfl
@[simp] theorem State.complete_conv : (s.complete).conv = s.conv := rfl
@[simp] theorem State.complete_faults : (s.complete).faults = s.faults := rfl
@[simp] theorem State.complete_refused : (s.complete).refused = s.refused := rfl
@[simp] theorem State.complete_x : (s.complete).x = s.x := rfl
@[simp] theorem State.complete_pc : (s.complete).pc = s.pc + 1 := rfl
@[simp] theorem State.complete_err : (s.complete).err = s.err := rfl
@[simp] theorem State.complete_program : (s.complete).program = s.program := rfl
@[simp] theorem State.complete_op : (s.complete).op = none := rfl
@[simp] theorem State.complete_oracle : (s.complete).oracle = s.oracle := rfl

@[simp] theorem State.raiseError_ctrl (e : Err) : (s.raiseError e).ctrl = s.ctrl := rfl
@[simp] theorem State.raiseError_notify (e : Err) : (s.raiseError e).notify = s.notify := rfl
@[simp] theorem State.raiseError_flags (e : Err) : (s.raiseError e).flags = s.flags := rfl
@[simp] theorem State.raiseError_cmdFifo (e : Err) : (s.raiseError e).cmdFifo = s.cmdFifo := rfl
@[simp] theorem State.raiseError_busy (e : Err) : (s.raiseError e).busy = s.busy := rfl
@[simp] theorem State.raiseError_respFifo (e : Err) : (s.raiseError e).respFifo = s.respFifo := rfl
@[simp] theorem State.raiseError_conv (e : Err) : (s.raiseError e).conv = s.conv := rfl
@[simp] theorem State.raiseError_faults (e : Err) : (s.raiseError e).faults = s.faults := rfl
@[simp] theorem State.raiseError_refused (e : Err) : (s.raiseError e).refused = s.refused := rfl
@[simp] theorem State.raiseError_x (e : Err) : (s.raiseError e).x = s.x := rfl
@[simp] theorem State.raiseError_pc (e : Err) : (s.raiseError e).pc = s.pc := rfl
@[simp] theorem State.raiseError_err (e : Err) : (s.raiseError e).err = e := rfl
@[simp] theorem State.raiseError_program (e : Err) : (s.raiseError e).program = s.program := rfl
@[simp] theorem State.raiseError_op (e : Err) : (s.raiseError e).op = none := rfl
@[simp] theorem State.raiseError_oracle (e : Err) : (s.raiseError e).oracle = s.oracle := rfl

@[simp] theorem State.markRefused_ctrl : (s.markRefused).ctrl = s.ctrl := rfl
@[simp] theorem State.markRefused_notify : (s.markRefused).notify = s.notify := rfl
@[simp] theorem State.markRefused_flags : (s.markRefused).flags = s.flags := rfl
@[simp] theorem State.markRefused_cmdFifo : (s.markRefused).cmdFifo = s.cmdFifo := rfl
@[simp] theorem State.markRefused_busy : (s.markRefused).busy = s.busy := rfl
@[simp] theorem State.markRefused_respFifo : (s.markRefused).respFifo = s.respFifo := rfl
@[simp] theorem State.markRefused_conv : (s.markRefused).conv = s.conv := rfl
@[simp] theorem State.markRefused_faults : (s.markRefused).faults = s.faults := rfl
@[simp] theorem State.markRefused_refused : (s.markRefused).refused = true := rfl
@[simp] theorem State.markRefused_x : (s.markRefused).x = s.x := rfl
@[simp] theorem State.markRefused_pc : (s.markRefused).pc = s.pc := rfl
@[simp] theorem State.markRefused_err : (s.markRefused).err = s.err := rfl
@[simp] theorem State.markRefused_program : (s.markRefused).program = s.program := rfl
@[simp] theorem State.markRefused_op : (s.markRefused).op = s.op := rfl
@[simp] theorem State.markRefused_oracle : (s.markRefused).oracle = s.oracle := rfl

@[simp] theorem State.countDraw_ctrl : (s.countDraw).ctrl = s.ctrl := rfl
@[simp] theorem State.countDraw_notify : (s.countDraw).notify = s.notify := rfl
@[simp] theorem State.countDraw_flags : (s.countDraw).flags = s.flags := rfl
@[simp] theorem State.countDraw_cmdFifo : (s.countDraw).cmdFifo = s.cmdFifo := rfl
@[simp] theorem State.countDraw_busy : (s.countDraw).busy = s.busy := rfl
@[simp] theorem State.countDraw_respFifo : (s.countDraw).respFifo = s.respFifo := rfl
@[simp] theorem State.countDraw_conv : (s.countDraw).conv = s.conv := rfl
@[simp] theorem State.countDraw_faults : (s.countDraw).faults = s.faults := rfl
@[simp] theorem State.countDraw_refused : (s.countDraw).refused = s.refused := rfl
@[simp] theorem State.countDraw_x : (s.countDraw).x = s.x := rfl
@[simp] theorem State.countDraw_pc : (s.countDraw).pc = s.pc := rfl
@[simp] theorem State.countDraw_err : (s.countDraw).err = s.err := rfl
@[simp] theorem State.countDraw_program : (s.countDraw).program = s.program := rfl
@[simp] theorem State.countDraw_op : (s.countDraw).op = s.op := rfl
@[simp] theorem State.countDraw_oracle : (s.countDraw).oracle = { s.oracle with drawn := s.oracle.drawn + 1 } := rfl

@[simp] theorem State.countTurn_ctrl : (s.countTurn).ctrl = s.ctrl := rfl
@[simp] theorem State.countTurn_notify : (s.countTurn).notify = s.notify := rfl
@[simp] theorem State.countTurn_flags : (s.countTurn).flags = s.flags := rfl
@[simp] theorem State.countTurn_cmdFifo : (s.countTurn).cmdFifo = s.cmdFifo := rfl
@[simp] theorem State.countTurn_busy : (s.countTurn).busy = s.busy := rfl
@[simp] theorem State.countTurn_respFifo : (s.countTurn).respFifo = s.respFifo := rfl
@[simp] theorem State.countTurn_conv : (s.countTurn).conv = s.conv := rfl
@[simp] theorem State.countTurn_faults : (s.countTurn).faults = s.faults := rfl
@[simp] theorem State.countTurn_refused : (s.countTurn).refused = s.refused := rfl
@[simp] theorem State.countTurn_x : (s.countTurn).x = s.x := rfl
@[simp] theorem State.countTurn_pc : (s.countTurn).pc = s.pc := rfl
@[simp] theorem State.countTurn_err : (s.countTurn).err = s.err := rfl
@[simp] theorem State.countTurn_program : (s.countTurn).program = s.program := rfl
@[simp] theorem State.countTurn_op : (s.countTurn).op = s.op := rfl
@[simp] theorem State.countTurn_oracle : (s.countTurn).oracle = { s.oracle with turns := s.oracle.turns + 1 } := rfl

@[simp] theorem writeVar_ctrl (i : HostVar) (v : Word) : (writeVar s i v).ctrl = s.ctrl := rfl
@[simp] theorem writeVar_notify (i : HostVar) (v : Word) : (writeVar s i v).notify = s.notify := rfl
@[simp] theorem writeVar_flags (i : HostVar) (v : Word) : (writeVar s i v).flags = s.flags := rfl
@[simp] theorem writeVar_cmdFifo (i : HostVar) (v : Word) : (writeVar s i v).cmdFifo = s.cmdFifo := rfl
@[simp] theorem writeVar_busy (i : HostVar) (v : Word) : (writeVar s i v).busy = s.busy := rfl
@[simp] theorem writeVar_respFifo (i : HostVar) (v : Word) : (writeVar s i v).respFifo = s.respFifo := rfl
@[simp] theorem writeVar_conv (i : HostVar) (v : Word) : (writeVar s i v).conv = s.conv := rfl
@[simp] theorem writeVar_faults (i : HostVar) (v : Word) : (writeVar s i v).faults = s.faults := rfl
@[simp] theorem writeVar_refused (i : HostVar) (v : Word) : (writeVar s i v).refused = s.refused := rfl
@[simp] theorem writeVar_x (i : HostVar) (v : Word) : (writeVar s i v).x = s.x.set i.val (some v) i.isLt := rfl
@[simp] theorem writeVar_pc (i : HostVar) (v : Word) : (writeVar s i v).pc = s.pc := rfl
@[simp] theorem writeVar_err (i : HostVar) (v : Word) : (writeVar s i v).err = s.err := rfl
@[simp] theorem writeVar_program (i : HostVar) (v : Word) : (writeVar s i v).program = s.program := rfl
@[simp] theorem writeVar_op (i : HostVar) (v : Word) : (writeVar s i v).op = s.op := rfl
@[simp] theorem writeVar_oracle (i : HostVar) (v : Word) : (writeVar s i v).oracle = s.oracle := rfl

@[simp] theorem State.recordFault_ctrl (f : FaultName) : (s.recordFault f).ctrl = s.ctrl := by cases f <;> rfl
@[simp] theorem State.recordFault_notify (f : FaultName) : (s.recordFault f).notify = s.notify := by cases f <;> rfl
@[simp] theorem State.recordFault_flags (f : FaultName) : (s.recordFault f).flags = s.flags := by cases f <;> rfl
@[simp] theorem State.recordFault_cmdFifo (f : FaultName) : (s.recordFault f).cmdFifo = s.cmdFifo := by cases f <;> rfl
@[simp] theorem State.recordFault_busy (f : FaultName) : (s.recordFault f).busy = s.busy := by cases f <;> rfl
@[simp] theorem State.recordFault_respFifo (f : FaultName) : (s.recordFault f).respFifo = s.respFifo := by cases f <;> rfl
@[simp] theorem State.recordFault_conv (f : FaultName) : (s.recordFault f).conv = s.conv := by cases f <;> rfl
@[simp] theorem State.recordFault_refused (f : FaultName) : (s.recordFault f).refused = s.refused := by cases f <;> rfl
@[simp] theorem State.recordFault_x (f : FaultName) : (s.recordFault f).x = s.x := by cases f <;> rfl
@[simp] theorem State.recordFault_pc (f : FaultName) : (s.recordFault f).pc = s.pc := by cases f <;> rfl
@[simp] theorem State.recordFault_err (f : FaultName) : (s.recordFault f).err = s.err := by cases f <;> rfl
@[simp] theorem State.recordFault_program (f : FaultName) : (s.recordFault f).program = s.program := by cases f <;> rfl
@[simp] theorem State.recordFault_op (f : FaultName) : (s.recordFault f).op = s.op := by cases f <;> rfl
@[simp] theorem State.recordFault_oracle (f : FaultName) : (s.recordFault f).oracle = s.oracle := by cases f <;> rfl

@[simp] theorem State.recordFault_has (f g : FaultName) :
    (s.recordFault f).faults.has g = (s.faults.has g || decide (g = f)) := by
  cases f <;> cases g <;> simp [State.recordFault, FaultSet.has]

theorem State.recordFault_idem (f : FaultName) : (s.recordFault f).recordFault f = s.recordFault f := by
  cases f <;> rfl

/-- A host variable just written holds what was written (R14). -/
@[simp] theorem readVar_writeVar_same (i : HostVar) (v : Word) : readVar (writeVar s i v) i = some v := by
  simp [readVar, writeVar, Vector.get_eq_getElem]

/-- Writing one host variable leaves every other alone (R14). -/
theorem readVar_writeVar_other (i j : HostVar) (v : Word) (h : i ≠ j) :
    readVar (writeVar s i v) j = readVar s j := by
  have : i.val ≠ j.val := fun e => h (Fin.ext e)
  simp [readVar, writeVar, Vector.get_eq_getElem, Vector.getElem_set_ne, this]

end Sys2Proof.Machine
end

