-- ==== Sys2Proof/Laws/Registers.lean ====
section
/-! SUPPORT. The fields of the controller's words, and what one register access can do. -/

set_option Elab.async false

namespace Sys2Proof.Machine

variable {P : Params}

/-- R91 law 3: no sample word is a register-write word. -/
theorem encSample_ne_encWrite (hP : P.Lawful) (u w : ConvUnit) (r : RegIndex) (v : Word) (hr : r.toNat < 2 ^ P.regW) :
    P.encSample25 u ≠ P.encWrite w r v ∧ P.encSample75 u ≠ P.encWrite w r v := by
  refine ⟨fun h => ?_, fun h => ?_⟩ <;> have e := congrArg P.decodeCmd h <;>
    simp [hP.decode_encWrite w r v hr, hP.decode_encSample25, hP.decode_encSample75] at e

theorem Word.trunc_trunc (n : Nat) (v : Word) : Word.trunc n (Word.trunc n v) = Word.trunc n v := by
  simp [Word.trunc, BitVec.and_assoc]

theorem modeBits_modeOfBits (P : Params) (v : Word) : modeBits P (modeOfBits P v) = v := by
  unfold modeOfBits
  split
  · simp_all [modeBits]
  · split <;> simp_all [modeBits]

theorem OneBit_ne_zero {v : Word} (h : v.OneBit) : v ≠ 0#32 := by
  obtain ⟨k, rfl⟩ := h
  revert k
  decide

/-- What `CQ_CTRL` stores is what a write of its own word stores (R24, R25). -/
theorem ctrlOfWord_ctrlWord (P : Params) (v : Word) :
    ctrlOfWord P (ctrlWord P (ctrlOfWord P v)) = ctrlOfWord P v := by
  have h1 : ((v &&& P.modeMask) ||| (v &&& ~~~(P.modeMask ||| P.invMask))) &&& P.modeMask = v &&& P.modeMask := by
    ext i hi
    cases hm : P.modeMask[i] <;> simp [hm]
  have h2 : ((v &&& P.modeMask) ||| (v &&& ~~~(P.modeMask ||| P.invMask))) &&& ~~~(P.modeMask ||| P.invMask) =
      v &&& ~~~(P.modeMask ||| P.invMask) := by
    ext i hi
    cases hm : P.modeMask[i] <;> simp [hm]
  simp [ctrlOfWord, ctrlWord, modeBits_modeOfBits, h1, h2]

/-- `CTRL_DIS` stores the disabled mode and nothing else (R93, R104). -/
@[simp] theorem ctrlOfWord_ctrlDis (hP : P.Lawful) : ctrlOfWord P (ctrlDis P) = ⟨.disabled, 0#32⟩ := by
  have h : P.modeDisabled &&& ~~~(P.modeMask ||| P.invMask) = 0#32 := by
    apply BitVec.eq_of_getLsbD_eq
    intro i hi
    have := congrArg (BitVec.getLsbD · i) hP.modeDisabled_in
    by_cases hm : P.modeDisabled.getLsbD i <;> simp_all
  simp [ctrlOfWord, ctrlDis, hP.modeDisabled_in, modeOfBits, h]

theorem invSet_ctrlDis (hP : P.Lawful) : invSet P (ctrlDis P) = false := by
  have h : P.modeDisabled &&& P.invMask = 0#32 := by
    rw [← hP.modeDisabled_in, BitVec.and_assoc, hP.mode_inv_disjoint]; simp
  simp [invSet, ctrlDis, h]

/-- `CTRL_DIS_INV` stores what `CTRL_DIS` stores (R93, R106). -/
theorem ctrlOfWord_ctrlDisInv (hP : P.Lawful) : ctrlOfWord P (ctrlDisInv P) = ⟨.disabled, 0#32⟩ := by
  have h1 : ctrlDisInv P &&& P.modeMask = P.modeDisabled := by
    apply BitVec.eq_of_getLsbD_eq
    intro i hi
    have a := congrArg (BitVec.getLsbD · i) hP.modeDisabled_in
    have b := congrArg (BitVec.getLsbD · i) hP.mode_inv_disjoint
    by_cases hm : P.modeDisabled.getLsbD i <;> by_cases hn : P.invMask.getLsbD i <;> simp_all [ctrlDisInv]
  have h2 : ctrlDisInv P &&& ~~~(P.modeMask ||| P.invMask) = 0#32 := by
    apply BitVec.eq_of_getLsbD_eq
    intro i hi
    have a := congrArg (BitVec.getLsbD · i) hP.modeDisabled_in
    by_cases hm : P.modeDisabled.getLsbD i <;> by_cases hn : P.invMask.getLsbD i <;> simp_all [ctrlDisInv]
  simp [ctrlOfWord, h1, h2, modeOfBits]

theorem invSet_ctrlDisInv (hP : P.Lawful) : invSet P (ctrlDisInv P) = true := by
  have h : ctrlDisInv P &&& P.invMask = P.invMask := by
    apply BitVec.eq_of_getLsbD_eq
    intro i hi
    by_cases hn : P.invMask.getLsbD i <;> simp_all [ctrlDisInv]
  simp [invSet, h, OneBit_ne_zero hP.inv_oneBit]

/-- `CTRL_BRINGUP` stores the single-scan mode and nothing else (R93). -/
theorem ctrlOfWord_ctrlBringup (hP : P.Lawful) : ctrlOfWord P (ctrlBringup P) = ⟨.swss, 0#32⟩ := by
  have h : P.modeSwss &&& ~~~(P.modeMask ||| P.invMask) = 0#32 := by
    apply BitVec.eq_of_getLsbD_eq
    intro i hi
    have := congrArg (BitVec.getLsbD · i) hP.modeSwss_in
    by_cases hm : P.modeSwss.getLsbD i <;> simp_all
  simp [ctrlOfWord, ctrlBringup, hP.modeSwss_in, modeOfBits, h, hP.modes_distinct.symm]

theorem invSet_ctrlBringup (hP : P.Lawful) : invSet P (ctrlBringup P) = false := by
  have h : P.modeSwss &&& P.invMask = 0#32 := by
    rw [← hP.modeSwss_in, BitVec.and_assoc, hP.mode_inv_disjoint]; simp
  simp [invSet, ctrlBringup, h]

/-- Writing `FLAG_CLEAR_ALL` makes `flags = 0` (R28). -/
theorem clearFlags_all (P : Params) (f : Word) : clearFlags P f (flagClearAll P) = 0#32 := by
  apply BitVec.eq_of_getLsbD_eq
  intro i hi
  by_cases hm : (Word.lowMask P.flagW).getLsbD i <;> simp [clearFlags, flagClearAll, Word.trunc, hm, hi]

/-- A count below `2^COUNT_W` reads back (R23). -/
theorem countOf_countWord (hP : P.Lawful) {n : Nat} (h : n < 2 ^ P.countW) : countOf P (countWord P n) = n := by
  have : 2 ^ P.countW ≤ 2 ^ 32 := Nat.pow_le_pow_right (by decide) hP.countW_le
  simp only [countOf, countWord, BitVec.toNat_ofNat]
  rw [Nat.mod_eq_of_lt h, Nat.mod_eq_of_lt (lt_of_lt_of_le h this), Nat.mod_eq_of_lt h]

/-- The idle test of `disable` step 3 succeeds exactly when nothing is in progress (R27, R105). -/
theorem statusWord_idle (hP : P.Lawful) (d : Word) (b : Option Word) :
    statusWord P d b &&& P.idleMask = P.idleMask ↔ b = none := by
  cases b with
  | none =>
    simp only [statusWord, if_true, iff_true]
    apply BitVec.eq_of_getLsbD_eq
    intro i hi
    by_cases hn : P.idleMask.getLsbD i <;> simp [hn]
  | some w =>
    have h : statusWord P d (some w) &&& P.idleMask = 0#32 := by
      apply BitVec.eq_of_getLsbD_eq
      intro i hi
      by_cases hn : P.idleMask.getLsbD i <;> simp [statusWord, hn, hi]
    simp [h, (OneBit_ne_zero hP.idle_oneBit).symm]

/-- What a register read can leave behind (R64): only a CQ_POP read takes an entry, only a CQ_STATUS read takes a draw. -/
theorem regRead_cases (P : Params) (r : Reg) (s : State) :
    (∃ v, regRead P r s = .done v s) ∨
    (r = .status ∧ ∃ o, regRead P r s = .done (statusWord P (drawStatusBits s).1 s.busy) { s with oracle := o }) ∨
    (r = .push ∧ regRead P r s = .refused s.markRefused) ∨
    (r = .pop ∧ s.respFifo = [] ∧ regRead P r s = .faulted (s.recordFault .respUnderflow)) ∨
    (r = .pop ∧ ∃ e rest, s.respFifo = e :: rest ∧ regRead P r s = .done e { s with respFifo := rest }) := by
  cases r
  case status =>
    refine .inr (.inl ⟨rfl, (drawStatusBits s).2.oracle, ?_⟩)
    simp only [regRead, drawStatusBits]
    split <;> rfl
  case push => exact .inr (.inr (.inl ⟨rfl, rfl⟩))
  case pop =>
    cases h : s.respFifo with
    | nil => exact .inr (.inr (.inr (.inl ⟨rfl, rfl, by simp [regRead, h]⟩)))
    | cons e rest => exact .inr (.inr (.inr (.inr ⟨rfl, e, rest, rfl, by simp [regRead, h]⟩)))
  all_goals exact .inl ⟨_, rfl⟩

/-- What a register write can leave behind (R64). -/
theorem regWrite_cases (P : Params) (r : Reg) (v : Word) (s : State) :
    (r = .ctrl ∧ regWrite P r v s =
      .done () { s with ctrl := ctrlOfWord P v, cmdFifo := if invSet P v then [] else s.cmdFifo }) ∨
    (r = .notify ∧ regWrite P r v s = .done () { s with notify := v }) ∨
    (r = .flags ∧ regWrite P r v s = .done () { s with flags := clearFlags P s.flags v }) ∨
    (r = .push ∧ s.cmdFifo.length < Config.cmdDepth ∧
      regWrite P r v s = .done () { s with cmdFifo := s.cmdFifo ++ [v] }) ∨
    (r = .txcnt ∧ v = 0#32 ∧ regWrite P r v s = .done () { s with cmdFifo := [] }) ∨
    regWrite P r v s = .refused s.markRefused := by
  cases r <;> simp only [regWrite, reduceCtorEq, false_and, true_and, false_or, or_false]
  case push => by_cases h : s.cmdFifo.length < Config.cmdDepth <;> simp [h]
  case txcnt => by_cases h : v = 0#32 <;> simp [h]

/-- The address of a register finds that register (R65). -/
theorem regAt_addr (hP : P.Lawful) (r : Reg) : regAt P (P.addr r) = some r := by
  have h : ∀ a b : Reg, (P.addr a == P.addr b) = decide (a = b) := fun a b => by
    by_cases e : a = b
    · simp [e]
    · simpa [e] using fun h => e (hP.addr_injective a b h)
  cases r <;> simp [regAt, allRegs, List.find?, h]

end Sys2Proof.Machine
end

