-- ==== Sys2Proof/Laws/Engine.lean ====
section
/-! SUPPORT. What the engine can do (R140 to R149): one inversion lemma for a step, one induction for a run, and what
both leave alone. -/

set_option Elab.async false

namespace Sys2Proof.Machine

open Sys2Proof.Safety

variable {P : Params}

/-- Setting drawn flags changes the flags, within their width, and the model's record of answers. -/
theorem setDrawnFlags_spec (P : Params) (s : State) :
    ∃ f o, setDrawnFlags P s = { s with flags := orFlags P s.flags f, oracle := o } := by
  refine ⟨(drawFlags s).1, (drawFlags s).2.oracle, ?_⟩
  simp only [setDrawnFlags, drawFlags]
  split <;> rfl

/-- A response command's completion appends exactly one entry (R142). -/
theorem engineRespond_spec (P : Params) (s : State) :
    ∃ e f o, engineRespond P s =
      { s with respFifo := s.respFifo ++ [e], busy := none, flags := orFlags P s.flags f, oracle := o } := by
  obtain ⟨f, o, h⟩ := setDrawnFlags_spec P
    { (drawResponse s).2 with respFifo := s.respFifo ++ [(drawResponse s).1], busy := none }
  refine ⟨(drawResponse s).1, f, o, ?_⟩
  have hd : (drawResponse s).2 = { s with oracle := (drawResponse s).2.oracle } := by
    simp only [drawResponse]
    split <;> rfl
  simp only [engineRespond, engineRetire, h]
  rw [hd]

/-- Everything an engine step can be: TAKE, or one of the three kinds of DONE (R140, R141, R145). -/
theorem engineStep_cases {s t : State} (h : engineStep P s = some t) :
    (∃ w rest f o, s.busy = none ∧ s.ctrl.mode ≠ .disabled ∧ s.cmdFifo = w :: rest ∧
      t = { s with busy := some w, cmdFifo := rest, flags := orFlags P s.flags f, oracle := o }) ∨
    (∃ w u r v f o, s.busy = some w ∧ P.decodeCmd w = .write u r v ∧
      t = { s with busy := none, conv := convWrite P u r v s.conv, flags := orFlags P s.flags f, oracle := o }) ∨
    (∃ w u e f o, s.busy = some w ∧ producesResponse P w = true ∧ s.respFifo.length < P.respDepth ∧
      sampleAllowed P u s = true ∧ (P.decodeCmd w = .sample u .p25 ∨ P.decodeCmd w = .sample u .p75 ∨
        ∃ r, P.decodeCmd w = .read u r) ∧
      t = { s with respFifo := s.respFifo ++ [e], busy := none, flags := orFlags P s.flags f, oracle := o }) ∨
    (∃ w, s.busy = some w ∧ P.decodeCmd w = .unknown ∧ t = s.recordFault .unmodelledCommand) := by
  unfold engineStep at h
  cases hb : s.busy with
  | none =>
    simp only [hb] at h
    split at h
    · cases h
    · rename_i hm
      split at h
      · cases h
      · rename_i w rest hc
        obtain ⟨f, o, e⟩ := setDrawnFlags_spec P { s with busy := some w, cmdFifo := rest }
        refine .inl ⟨w, rest, f, o, rfl, hm, hc, ?_⟩
        rw [← Option.some.inj h, engineTake, e]
  | some w =>
    simp only [hb] at h
    cases hk : P.decodeCmd w with
    | write u r v =>
      simp only [hk, engineDone] at h
      obtain ⟨f, o, e⟩ := setDrawnFlags_spec P { s with conv := convWrite P u r v s.conv, busy := none }
      refine .inr (.inl ⟨w, u, r, v, f, o, rfl, hk, ?_⟩)
      rw [← Option.some.inj h, engineRetire, e]
    | sample u p =>
      simp only [hk, engineDone, Option.ite_none_right_eq_some, Option.some.injEq] at h
      obtain ⟨hm, rfl⟩ := h
      simp only [mayRespond, Bool.and_eq_true, decide_eq_true_eq] at hm
      obtain ⟨e, f, o, eq⟩ := engineRespond_spec P s
      refine .inr (.inr (.inl ⟨w, u, e, f, o, rfl, by simp [producesResponse, hk], hm.1, hm.2, ?_, eq⟩))
      cases p <;> simp [hk]
    | read u r =>
      simp only [hk, engineDone, Option.ite_none_right_eq_some, Option.some.injEq] at h
      obtain ⟨hm, rfl⟩ := h
      simp only [mayRespond, Bool.and_eq_true, decide_eq_true_eq] at hm
      obtain ⟨e, f, o, eq⟩ := engineRespond_spec P s
      exact .inr (.inr (.inl ⟨w, u, e, f, o, rfl, by simp [producesResponse, hk], hm.1, hm.2, by simp [hk], eq⟩))
    | unknown =>
      simp only [hk, engineDone, Option.some.injEq] at h
      exact .inr (.inr (.inr ⟨w, rfl, hk, h.symm⟩))

/-- No engine step is enabled in a quiescent queue (R149). -/
theorem engineStep_quiescent {s : State} (hb : s.busy = none) (h : s.ctrl.mode = .disabled ∨ s.cmdFifo = []) :
    engineStep P s = none := by
  unfold engineStep
  simp only [hb]
  rcases h with h | h
  · simp [h]
  · simp [h]

/-- One induction for every run of the engine: a relation that holds of a state and itself, is transitive, and holds
across one engine step, holds across any number of them. -/
theorem engineRun_induct {R : State → State → Prop} (refl : ∀ s, R s s) (trans : ∀ a b c, R a b → R b c → R a c)
    (one : ∀ s t, engineStep P s = some t → R s t) (n : Nat) (s : State) : R s (engineRun P n s) := by
  induction n generalizing s with
  | zero => exact refl s
  | succ n ih =>
    unfold engineRun
    split
    · exact refl s
    · rename_i t h
      exact trans _ _ _ (one s t h) (ih t)

/-- A quiescent queue stays as it is. -/
theorem engineRun_of_none {s : State} (h : engineStep P s = none) (n : Nat) : engineRun P n s = s := by
  cases n with
  | zero => rfl
  | succ n => simp [engineRun, h]

/-- Drawing the number of engine steps touches the model's record of answers only. -/
theorem drawEngineSteps_spec (s : State) : ∃ o, (drawEngineSteps s).2 = { s with oracle := o } := by
  refine ⟨(drawEngineSteps s).2.oracle, ?_⟩
  unfold drawEngineSteps
  split <;> rfl

/-- Whether a step is enabled, and what it does to the rest, does not depend on the model's record of answers. -/
theorem engineStep_oracle_none {s : State} (o : Oracle) (h : engineStep P s = none) :
    engineStep P { s with oracle := o } = none := by
  unfold engineStep at h ⊢
  cases hb : s.busy with
  | none =>
    simp only [hb] at h ⊢
    split at h
    · rename_i hm; simp [hm]
    · rename_i hm
      cases hc : s.cmdFifo with
      | nil => simp [hm]
      | cons w rest => simp [hc] at h
  | some w =>
    simp only [hb] at h ⊢
    cases hk : P.decodeCmd w <;> simp_all [engineDone, mayRespond, sampleAllowed]

/-- The engine steps between two caller steps, as a run (R148). -/
theorem interleave_eq_run (P : Params) (s : State) :
    ∃ n o, interleave P s = engineRun P n { s with oracle := o } := by
  obtain ⟨o, h⟩ := drawEngineSteps_spec s
  exact ⟨(drawEngineSteps s).1, o, by simp only [interleave, h]⟩

/-- Nothing falls between two caller steps where no engine step is enabled. -/
theorem interleave_of_none {s : State} (h : engineStep P s = none) : ∃ o, interleave P s = { s with oracle := o } := by
  obtain ⟨n, o, e⟩ := interleave_eq_run P s
  exact ⟨o, by rw [e, engineRun_of_none (engineStep_oracle_none o h)]⟩

theorem interleave_induct {R : State → State → Prop} (refl : ∀ s, R s s) (trans : ∀ a b c, R a b → R b c → R a c)
    (draw : ∀ s o, R s { s with oracle := o }) (one : ∀ s t, engineStep P s = some t → R s t) (s : State) :
    R s (interleave P s) := by
  obtain ⟨n, o, e⟩ := interleave_eq_run P s
  rw [e]
  exact trans _ _ _ (draw s o) (engineRun_induct refl trans one n _)

theorem EngineFrame.refl (s : State) : EngineFrame s s := ⟨rfl, rfl, rfl, rfl, rfl, rfl, rfl, rfl⟩

theorem EngineFrame.trans {a b c : State} (h : EngineFrame a b) (k : EngineFrame b c) : EngineFrame a c :=
  ⟨k.ctrl.trans h.ctrl, k.notify.trans h.notify, k.refused.trans h.refused, k.x.trans h.x, k.pc.trans h.pc,
    k.err.trans h.err, k.program.trans h.program, k.op.trans h.op⟩

/-- The engine touches neither the caller's side nor CTRL nor NOTIFY (R140, R141). -/
theorem engineStep_frame {s t : State} (h : engineStep P s = some t) : EngineFrame s t := by
  rcases engineStep_cases h with ⟨w, rest, f, o, -, -, -, rfl⟩ | ⟨w, u, r, v, f, o, -, -, rfl⟩ |
    ⟨w, u, e, f, o, -, -, -, -, -, rfl⟩ | ⟨w, -, -, rfl⟩
  case inr.inr.inr => constructor <;> simp
  all_goals exact ⟨rfl, rfl, rfl, rfl, rfl, rfl, rfl, rfl⟩

theorem engineRun_frame (n : Nat) (s : State) : EngineFrame s (engineRun P n s) :=
  engineRun_induct EngineFrame.refl (fun _ _ _ => EngineFrame.trans) (fun _ _ => engineStep_frame) n s

theorem interleave_frame (P : Params) (s : State) : EngineFrame s (interleave P s) :=
  interleave_induct EngineFrame.refl (fun _ _ _ => EngineFrame.trans) (fun _ _ => ⟨rfl, rfl, rfl, rfl, rfl, rfl, rfl, rfl⟩)
    (fun _ _ => engineStep_frame) s

/-- Between caller steps the transmit count only falls and responses are only appended (R147). -/
def Monotone (s t : State) : Prop :=
  t.cmdFifo.length ≤ s.cmdFifo.length ∧ ∃ l, t.respFifo = s.respFifo ++ l

theorem engineStep_monotone {s t : State} (h : engineStep P s = some t) : Monotone s t := by
  rcases engineStep_cases h with ⟨w, rest, f, o, -, -, hc, rfl⟩ | ⟨w, u, r, v, f, o, -, -, rfl⟩ |
    ⟨w, u, e, f, o, -, -, -, -, -, rfl⟩ | ⟨w, -, -, rfl⟩
  · exact ⟨by simp [hc], [], by simp⟩
  · exact ⟨le_rfl, [], by simp⟩
  · exact ⟨le_rfl, [e], rfl⟩
  · exact ⟨by simp, [], by simp⟩

theorem interleave_monotone (P : Params) (s : State) : Monotone s (interleave P s) :=
  interleave_induct (R := Monotone) (fun _ => ⟨le_rfl, [], by simp⟩)
    (fun _ _ _ ⟨h, l, e⟩ ⟨h', l', e'⟩ => ⟨h'.trans h, l ++ l', by rw [e', e, List.append_assoc]⟩)
    (fun _ _ => ⟨le_rfl, [], by simp⟩) (fun _ _ => engineStep_monotone) s

end Sys2Proof.Machine
end

