-- ==== Sys2Proof/Laws/Caller.lean ====
section
/-! SUPPORT. What the caller's steps can do: one inversion lemma for a caller step, and one induction that carries any
relation across an operation. -/

set_option Elab.async false

namespace Sys2Proof.Machine

variable {P : Params}

/-- Everything a failed poll can be (R16). -/
theorem pollFailed_cases (P : Params) (e : Nat → Err) (t : Temps) (s : State) :
    (P.pollBound = none ∧ pollFailed P e t s = .hold t s) ∨
    (∃ k, P.pollBound = some k ∧ t.polls + 1 < k ∧ pollFailed P e t s = .hold { t with polls := t.polls + 1 } s) ∨
    (∃ k, P.pollBound = some k ∧ k ≤ t.polls + 1 ∧ pollFailed P e t s = .raised (e (t.polls + 1)) s) := by
  unfold pollFailed
  cases h : P.pollBound with
  | none => exact .inl ⟨rfl, rfl⟩
  | some k =>
    by_cases hk : k ≤ t.polls + 1
    · exact .inr (.inr ⟨k, rfl, hk, by simp [hk]⟩)
    · exact .inr (.inl ⟨k, rfl, by omega, by simp [hk]⟩)

/-- The state a caller step leaves. -/
def ActEnd.state : ActEnd → State
  | .ok _ s => s
  | .hold _ s => s
  | .raised _ s => s
  | .over s => s

/-- Everything one caller step can do to the state (R25 to R34, R64). -/
inductive ActEffect (P : Params) (s : State) : State → Prop where
  | none : ActEffect P s s
  | status (o : Oracle) : ActEffect P s { s with oracle := o }
  | ctrl (v : Word) :
    ActEffect P s { s with ctrl := ctrlOfWord P v, cmdFifo := if invSet P v then [] else s.cmdFifo }
  | notify (v : Word) : ActEffect P s { s with notify := v }
  | flags (v : Word) : ActEffect P s { s with flags := clearFlags P s.flags v }
  | push (v : Word) (h : s.cmdFifo.length < Config.cmdDepth) : ActEffect P s { s with cmdFifo := s.cmdFifo ++ [v] }
  | txcnt : ActEffect P s { s with cmdFifo := [] }
  | pop (e : Word) (rest : List Word) (h : s.respFifo = e :: rest) : ActEffect P s { s with respFifo := rest }
  | underflow (h : s.respFifo = []) : ActEffect P s (s.recordFault .respUnderflow).complete
  | refused : ActEffect P s s.markRefused

theorem onWrite_effect (r : Reg) (v : Word) (t : Temps) (s : State) :
    ActEffect P s (onWrite (regWrite P r v s) t).state := by
  rcases regWrite_cases P r v s with ⟨-, h⟩ | ⟨-, h⟩ | ⟨-, h⟩ | ⟨-, hl, h⟩ | ⟨-, -, h⟩ | h <;>
    simp only [h, onWrite, ActEnd.state]
  · exact .ctrl v
  · exact .notify v
  · exact .flags v
  · exact .push v hl
  · exact .txcnt
  · exact .refused

theorem pollFailed_state (e : Nat → Err) (t : Temps) (s : State) : (pollFailed P e t s).state = s := by
  rcases pollFailed_cases P e t s with ⟨-, h⟩ | ⟨k, -, -, h⟩ | ⟨k, -, -, h⟩ <;> rw [h] <;> rfl

theorem runAct_effect (a : CallerAct) (t : Temps) (s : State) : ActEffect P s (runAct P a t s).state := by
  cases a with
  | write r v => exact onWrite_effect r v t s
  | push src => exact onWrite_effect .push _ t s
  | holdIdle =>
    obtain ⟨o, h⟩ : ∃ o, regRead P .status s = .done (statusWord P (drawStatusBits s).1 s.busy) { s with oracle := o } := by
      refine ⟨(drawStatusBits s).2.oracle, ?_⟩
      simp only [regRead, drawStatusBits]
      split <;> rfl
    simp only [runAct, h, onRead]
    split
    · exact .status o
    · rw [pollFailed_state]; exact .status o
  | holdPush src =>
    simp only [runAct, regRead, onRead]
    split
    · exact .none
    · rw [pollFailed_state]; exact .none
  | holdResponses n =>
    simp only [runAct, regRead, onRead]
    split
    · exact .none
    · rw [pollFailed_state]; exact .none
  | pop25 =>
    cases h : s.respFifo with
    | nil => simp only [runAct, regRead, h, onRead]; exact .underflow h
    | cons e rest => simp only [runAct, regRead, h, onRead]; exact .pop e rest h
  | pop75 =>
    cases h : s.respFifo with
    | nil => simp only [runAct, regRead, h, onRead]; exact .underflow h
    | cons e rest => simp only [runAct, regRead, h, onRead]; exact .pop e rest h
  | compute =>
    simp only [runAct]
    split <;> exact .none

/-- What carries a relation across an operation: it holds of a state and itself, is transitive, and holds across the
engine's turns, one caller step, a hold put down, and the operation's end. -/
structure Carries (P : Params) (R : State → State → Prop) : Prop where
  refl : ∀ s, R s s
  trans : ∀ a b c, R a b → R b c → R a c
  engine : ∀ s, R s (interleave P s)
  act : ∀ s t, ActEffect P s t → R s t
  held : ∀ s p, R s { s with op := some p }
  complete : ∀ s : State, R s s.complete
  raise : ∀ (s : State) e, R s (s.raiseError e)

/-- The state a block leaves. -/
def BlockEnd.state : BlockEnd → State
  | .done _ s => s
  | .held _ _ s => s
  | .raised _ _ s => s
  | .over s => s

theorem runBlock_carries {R : State → State → Prop} (h : Carries P R) (fresh : Bool) (acts : List CallerAct)
    (t : Temps) (s : State) : R s (runBlock P fresh acts t s).state := by
  induction acts generalizing fresh t s with
  | nil => exact h.refl s
  | cons a rest ih =>
    have h0 : R s (if fresh then s else interleave P s) := by
      split
      · exact h.refl s
      · exact h.engine s
    have h1 := h.trans _ _ _ h0 (h.act _ _ (runAct_effect a t (if fresh then s else interleave P s)))
    unfold runBlock
    split <;> rename_i e <;> rw [e] at h1
    · exact h.trans _ _ _ h1 (ih false _ _)
    · exact h1
    · exact h1
    · exact h1

/-- Any relation of that kind holds between the state an operation finds and the state it leaves. -/
theorem runBlocks_carries {R : State → State → Prop} (h : Carries P R) (fresh : Bool) (blocks : List (List CallerAct))
    (first : Err) (t : Temps) (s : State) : R s (runBlocks P fresh blocks first t s) := by
  induction blocks generalizing fresh first t s with
  | nil =>
    unfold runBlocks finish
    split
    · exact h.complete s
    · exact h.raise s first
  | cons b bs ih =>
    have h1 := runBlock_carries h fresh b t s
    unfold runBlocks
    split <;> rename_i e <;> rw [e] at h1
    · exact h.trans _ _ _ h1 (ih _ _ _ _)
    · exact h.trans _ _ _ h1 (ih _ _ _ _)
    · exact h.trans _ _ _ h1 (h.held _ _)
    · exact h1

end Sys2Proof.Machine
end

