-- ==== Sys2Proof/Laws/Exec.lean ====
section
/-! SUPPORT. Every instruction at once: what a relation between states must satisfy to hold between the state `exec` finds
and the state it leaves. -/

set_option Elab.async false

namespace Sys2Proof.Machine

/-- A relation that the caller's steps, the engine, a host-variable write and an unwritten-variable fault all carry holds
across every instruction, whatever it does. -/
theorem exec_carries {R : State → State → Prop} (h : Carries Config.params R)
    (hw : ∀ (s : State) i v, R s (writeVar s i v)) (hf : ∀ s : State, R s (s.recordFault .unwrittenHostVar))
    {i : Instr} {s t : State} (e : exec i s = .next t) : R s t := by
  have hv : ∀ (s : State) i k, (∀ v, R s (k v)) → R s (withVar s i k) := by
    intro s i k hk
    unfold withVar
    split
    · exact hk _
    · exact h.trans _ _ _ (hf s) (h.complete _)
  have hp : ∀ (f : State → State) s, R s (f s) → R s (perform Config.params f s) := by
    intro f s hk
    unfold perform
    split
    · exact runBlocks_carries h _ _ _ _ _
    · exact hk
  cases i <;> cases e
  case qen => exact hv _ _ _ fun _ => hv _ _ _ fun _ => runBlocks_carries h _ _ _ _ _
  case qpush => exact hp _ _ (hv _ _ _ fun _ => runBlocks_carries h _ _ _ _ _)
  case qpop =>
    unfold popOp
    cases hr : s.respFifo with
    | nil => simp only [regRead, hr]; exact h.act _ _ (.underflow hr)
    | cons e rest =>
      simp only [regRead, hr]
      exact h.trans _ _ _ (h.act _ _ (.pop e rest hr)) (h.trans _ _ _ (hw _ _ _) (h.complete _))
  case calcGain =>
    refine hv _ _ _ fun _ => hv _ _ _ fun _ => ?_
    dsimp only
    split
    · exact h.raise _ _
    · exact h.trans _ _ _ (hw _ _ _) (h.trans _ _ _ (hw _ _ _) (h.complete _))
  case regwr =>
    refine hp _ _ ?_
    split
    · exact hv _ _ _ fun _ => runBlocks_carries h _ _ _ _ _
    · exact h.act _ _ .refused
  case li => exact h.trans _ _ _ (hw _ _ _) (h.complete _)
  all_goals exact hp _ _ (runBlocks_carries h _ _ _ _ _)

end Sys2Proof.Machine
end

