-- ==== Sys2Proof/Laws/Fairness.lean ====
section
/-! SUPPORT. The fair schedule (R150): one induction over the turns until an engine step falls. -/

set_option Elab.async false

namespace Sys2Proof.Machine

open Sys2Proof.Safety

variable {P : Params}

/-- A turn without an engine step hands the schedule on; nothing but the schedule decides which turns those are. So what
holds where an engine step falls, and where it holds of every state the next turn may find, holds everywhere. -/
theorem turn_induct {C : State → Prop} (move : ∀ s n, (drawEngineSteps s).1 = n + 1 → C s)
    (wait : ∀ s, (drawEngineSteps s).1 = 0 →
      (∀ t : State, t.oracle.sched = (drawEngineSteps s).2.oracle.sched →
        t.oracle.turns = (drawEngineSteps s).2.oracle.turns → C t) → C s) (s : State) : C s := by
  have free : ∀ d (s : State) m, (s.oracle.sched = .free ∨ s.oracle.sched = .script []) → s.oracle.turns + d = m →
      0 < Config.freeEngineSteps m → C s := by
    intro d
    induction d with
    | zero =>
      intro s m hs hm hp
      obtain ⟨n, hn⟩ := Nat.exists_eq_add_of_lt hp
      refine move s n ?_
      rcases hs with hs | hs <;> simp only [drawEngineSteps, hs] <;> subst hm <;> simpa using hn
    | succ d ih =>
      intro s m hs hm hp
      cases hz : (drawEngineSteps s).1 with
      | succ n => exact move s n hz
      | zero =>
        refine wait s hz fun t h1 h2 => ih t m ?_ ?_ hp
        · rw [h1]; rcases hs with hs | hs <;> simp [drawEngineSteps, hs]
        · have : (drawEngineSteps s).2.oracle.turns = s.oracle.turns + 1 := by
            rcases hs with hs | hs <;> simp [drawEngineSteps, hs]
          omega
  have script : ∀ (l : List Nat) (s : State), s.oracle.sched = .script l → C s := by
    intro l
    induction l with
    | nil =>
      intro s hs
      obtain ⟨m, hm, hp⟩ := Config.freeEngineSteps_fair s.oracle.turns
      exact free (m - s.oracle.turns) s m (.inr hs) (by omega) hp
    | cons a l ih =>
      intro s hs
      cases hz : (drawEngineSteps s).1 with
      | succ n => exact move s n hz
      | zero => exact wait s hz fun t h1 _ => ih t (by rw [h1]; simp [drawEngineSteps, hs])
  cases hs : s.oracle.sched with
  | free =>
    obtain ⟨m, hm, hp⟩ := Config.freeEngineSteps_fair s.oracle.turns
    exact free (m - s.oracle.turns) s m (.inl hs) (by omega) hp
  | eager => exact move s (2 * s.cmdFifo.length) (by simp [drawEngineSteps, hs])
  | script l => exact script l s hs

/-- In a turn without an engine step nothing changes but the model's record of answers. -/
theorem interleave_of_no_steps {s : State} (h : (drawEngineSteps s).1 = 0) :
    interleave P s = { s with oracle := (drawEngineSteps s).2.oracle } := by
  obtain ⟨o, e⟩ := drawEngineSteps_spec s
  simp only [interleave, h, engineRun, e]

/-- A turn with an engine step, where one is enabled, is that step and the ones after it. -/
theorem interleave_of_steps {s u : State} {n : Nat} (h : (drawEngineSteps s).1 = n + 1)
    (e : engineStep P (drawEngineSteps s).2 = some u) : interleave P s = engineRun P n u := by
  simp only [interleave, h, engineRun, e]

/-- Whether an engine step is enabled does not depend on the model's record of answers. -/
theorem engineStep_oracle_some {s u : State} (o : Oracle) (h : engineStep P s = some u) :
    ∃ v, engineStep P { s with oracle := o } = some v := by
  cases e : engineStep P { s with oracle := o } with
  | some v => exact ⟨v, rfl⟩
  | none =>
    have := engineStep_oracle_none s.oracle e
    rw [show ({ ({ s with oracle := o } : State) with oracle := s.oracle } : State) = s from rfl, h] at this
    cases this

theorem reaches_trans {s t u : State} (h : Reaches s t) (k : Reaches t u) : Reaches s u := by
  induction h with
  | refl => exact k
  | step e _ ih => exact .step e (ih k)

/-- A step that runs the decoded instruction, as a machine step of a run (R21). -/
theorem step_exec {s t : State} {w : Word} {i : Instr} (hr : s.refused = false) (he : s.err = .ok)
    (hp : s.program[s.pc]? = some w) (hd : decode w = .ok i) (h : exec i (interleave Config.params s) = .next t) :
    step s = .next t := by
  simp [step, hr, he, hp, hd, h]

end Sys2Proof.Machine
end

