-- ==== Sys2Proof/Laws/Operations.lean ====
section
/-! SUPPORT. What each caller step answers, what a push does whatever the schedule, and what an eager engine does with
the one command a push gave it. -/

set_option Elab.async false

namespace Sys2Proof.Machine

open Sys2Proof.Safety

variable {P : Params}

/-! ### Single caller steps -/

theorem runAct_holdPush_pass (hP : P.Lawful) (src : PushSource) (t : Temps) {s : State} (h : s.cmdFifo.length < 4) :
    runAct P (.holdPush src) t s = .ok { t with polls := 0 } s := by
  have hc : countOf P (countWord P s.cmdFifo.length) = s.cmdFifo.length :=
    countOf_countWord hP (h.trans hP.countW_cmdDepth)
  simp [runAct, regRead, onRead, hc, Config.cmdDepth, h, pollPassed]

theorem runAct_holdPush_fail (hP : P.Lawful) (src : PushSource) (t : Temps) {s : State} (h : s.cmdFifo.length = 4) :
    runAct P (.holdPush src) t s = pollFailed P (fun k => .timeoutPush k (pushWord P t src)) t s := by
  have hc : countOf P (countWord P s.cmdFifo.length) = s.cmdFifo.length :=
    countOf_countWord hP (by rw [h]; exact hP.countW_cmdDepth)
  simp only [runAct, regRead, onRead, hc, Config.cmdDepth]
  simp [h]

theorem runAct_push (src : PushSource) (t : Temps) {s : State} (h : s.cmdFifo.length < 4) :
    runAct P (.push src) t s = .ok t { s with cmdFifo := s.cmdFifo ++ [pushWord P t src] } := by
  simp [runAct, regWrite, onWrite, Config.cmdDepth, h]

theorem runAct_holdResponses_pass (hP : P.Lawful) (n : Nat) (t : Temps) {s : State} (hd : s.respFifo.length ≤ P.respDepth)
    (h : n ≤ s.respFifo.length) : runAct P (.holdResponses n) t s = .ok { t with polls := 0 } s := by
  have hc : countOf P (countWord P s.respFifo.length) = s.respFifo.length :=
    countOf_countWord hP (lt_of_le_of_lt hd hP.countW_respDepth)
  simp [runAct, regRead, onRead, hc, h, pollPassed]

theorem runAct_holdResponses_fail (hP : P.Lawful) (n : Nat) (t : Temps) {s : State} (hd : s.respFifo.length ≤ P.respDepth)
    (h : s.respFifo.length < n) : runAct P (.holdResponses n) t s =
      pollFailed P (fun k => .timeoutResponse k n s.respFifo.length) t s := by
  have hc : countOf P (countWord P s.respFifo.length) = s.respFifo.length :=
    countOf_countWord hP (lt_of_le_of_lt hd hP.countW_respDepth)
  simp [runAct, regRead, onRead, hc, Nat.not_le.2 h]

theorem runAct_holdIdle_pass (hP : P.Lawful) (t : Temps) {s : State} (h : s.busy = none) :
    ∃ o, o.sched = s.oracle.sched ∧ o.responses = s.oracle.responses ∧
      runAct P .holdIdle t s = .ok { t with polls := 0 } { s with oracle := o } := by
  have hi := (statusWord_idle hP (drawStatusBits s).1 s.busy).2 h
  refine ⟨(drawStatusBits s).2.oracle, ?_, ?_, ?_⟩
  · simp only [drawStatusBits]; split <;> rfl
  · simp only [drawStatusBits]; split <;> rfl
  · simp only [runAct, regRead, onRead, hi, if_true, pollPassed]
    simp only [drawStatusBits]
    split <;> rfl

theorem runAct_holdIdle_fail (hP : P.Lawful) (t : Temps) {s : State} {w : Word} (h : s.busy = some w) :
    ∃ o, o.sched = s.oracle.sched ∧ o.turns = s.oracle.turns ∧
      runAct P .holdIdle t s = pollFailed P .timeoutIdle t { s with oracle := o } := by
  have hi : ¬statusWord P (drawStatusBits s).1 s.busy &&& P.idleMask = P.idleMask := by
    rw [statusWord_idle hP]; simp [h]
  refine ⟨(drawStatusBits s).2.oracle, ?_, ?_, ?_⟩
  · simp only [drawStatusBits]; split <;> rfl
  · simp only [drawStatusBits]; split <;> rfl
  · simp only [runAct, regRead, onRead, if_neg hi]
    simp only [drawStatusBits]
    split <;> rfl

/-! ### Blocks of steps -/

/-- A step that is done hands over to the steps after it. -/
theorem runBlock_cons_ok {fresh : Bool} {a : CallerAct} {rest : List CallerAct} {t t' : Temps} {s s' : State}
    (h : runAct P a t (if fresh then s else interleave P s) = .ok t' s') :
    runBlock P fresh (a :: rest) t s = runBlock P false rest t' s' := by
  rw [runBlock, h]

/-- An operation whose one block stands at a poll that fails is left as `afterFailedPoll` says (R16, R220). -/
theorem runBlocks_pollFailed {fresh : Bool} {a : CallerAct} {acts : List CallerAct} {t : Temps} {s s' : State}
    {raised : Nat → Err} (hr : ∀ k, raised k ≠ .ok)
    (h : runAct P a t (if fresh then s else interleave P s) = pollFailed P raised t s') :
    runBlocks P fresh [a :: acts] .ok t s = afterFailedPoll P (a :: acts) t raised s' := by
  simp only [runBlocks, runBlock, h]
  rcases pollFailed_cases P raised t s' with ⟨hb, e⟩ | ⟨k, hb, hk, e⟩ | ⟨k, hb, hk, e⟩ <;>
    simp only [e, afterFailedPoll, hb]
  · rw [if_pos hk]
  · rw [if_neg (by omega)]
    simp only [firstError, if_true, finish, if_neg (hr _), State.raiseError]

theorem interleave_cmdFifo_le (P : Params) (s : State) : (interleave P s).cmdFifo.length ≤ s.cmdFifo.length :=
  (interleave_monotone P s).1

/-- A push at an operation's start, with room: the word goes in after the engine's turn (R111). -/
theorem runBlock_pushActs_fresh (hP : P.Lawful) (src : PushSource) (rest : List CallerAct) (t : Temps) {s : State}
    (h : s.cmdFifo.length < 4) :
    runBlock P true (pushActs src ++ rest) t s =
      runBlock P false rest { t with polls := 0 }
        { interleave P s with cmdFifo := (interleave P s).cmdFifo ++ [pushWord P t src] } := by
  have h1 : (interleave P s).cmdFifo.length < 4 := (interleave_cmdFifo_le P s).trans_lt h
  have h2 : pushWord P { t with polls := 0 } src = pushWord P t src := by cases src <;> rfl
  simp only [pushActs, List.cons_append, List.nil_append]
  rw [runBlock_cons_ok (by simpa using runAct_holdPush_pass hP src t h),
    runBlock_cons_ok (by simpa using runAct_push (P := P) src { t with polls := 0 } h1), h2]

/-- A later push, with room: the engine has a turn before the poll and before the write (R111, R148). -/
theorem runBlock_pushActs (hP : P.Lawful) (src : PushSource) (rest : List CallerAct) (t : Temps) {s : State}
    (h : (interleave P s).cmdFifo.length < 4) :
    runBlock P false (pushActs src ++ rest) t s =
      runBlock P false rest { t with polls := 0 }
        { interleave P (interleave P s) with
          cmdFifo := (interleave P (interleave P s)).cmdFifo ++ [pushWord P t src] } := by
  have h1 : (interleave P (interleave P s)).cmdFifo.length < 4 := (interleave_cmdFifo_le P _).trans_lt h
  have h2 : pushWord P { t with polls := 0 } src = pushWord P t src := by cases src <;> rfl
  simp only [pushActs, List.cons_append, List.nil_append]
  rw [runBlock_cons_ok (by simpa using runAct_holdPush_pass hP src t h),
    runBlock_cons_ok (by simpa using runAct_push (P := P) src { t with polls := 0 } h1), h2]

/-! ### An eager engine -/

theorem interleave_eager {s : State} (h : s.oracle.sched = .eager) :
    interleave P s = engineRun P (2 * s.cmdFifo.length + 1) s := by
  simp [interleave, drawEngineSteps, h]

/-- An eager engine with nothing to do leaves the state as it is. -/
theorem interleave_eager_still {s : State} (h : s.oracle.sched = .eager) (hn : engineStep P s = none) :
    interleave P s = s := by
  rw [interleave_eager h, engineRun_of_none hn]

/-- A flag draw keeps the schedule and the responses lined up. -/
theorem setDrawnFlags_eager (P : Params) (s : State) :
    ∃ f o, o.sched = s.oracle.sched ∧ o.responses = s.oracle.responses ∧
      setDrawnFlags P s = { s with flags := f, oracle := o } := by
  refine ⟨orFlags P s.flags (drawFlags s).1, (drawFlags s).2.oracle, ?_, ?_, ?_⟩
  · simp only [drawFlags]; split <;> rfl
  · simp only [drawFlags]; split <;> rfl
  · simp only [setDrawnFlags, drawFlags]; split <;> rfl

/-- An eager engine takes and completes the one register write that waits. -/
theorem interleave_eager_write (hP : P.Lawful) {s : State} (h : s.oracle.sched = .eager) (hb : s.busy = none)
    (hm : s.ctrl.mode ≠ .disabled) (u : ConvUnit) (r : RegIndex) (v : Word) (hr : r.toNat < 2 ^ P.regW)
    (hc : s.cmdFifo = [P.encWrite u r v]) :
    ∃ f o, o.sched = .eager ∧ o.responses = s.oracle.responses ∧
      interleave P s =
        { s with cmdFifo := [], conv := convWrite P u r (Word.trunc P.payloadW v) s.conv, flags := f, oracle := o } := by
  obtain ⟨f1, o1, hs1, hr1, e1⟩ := setDrawnFlags_eager P { s with busy := some (P.encWrite u r v), cmdFifo := [] }
  obtain ⟨f2, o2, hs2, hr2, e2⟩ := setDrawnFlags_eager P
    { s with cmdFifo := [], conv := convWrite P u r (Word.trunc P.payloadW v) s.conv, busy := none, flags := f1,
             oracle := o1 }
  refine ⟨f2, o2, hs2.trans (hs1.trans h), hr2.trans hr1, ?_⟩
  have t1 : engineStep P s =
      some { s with busy := some (P.encWrite u r v), cmdFifo := [], flags := f1, oracle := o1 } := by
    simp only [engineStep, hb, hm, if_false, hc, engineTake, e1]
  have t2 : engineStep P { s with busy := some (P.encWrite u r v), cmdFifo := [], flags := f1, oracle := o1 } =
      some { s with cmdFifo := [], conv := convWrite P u r (Word.trunc P.payloadW v) s.conv, busy := none, flags := f2,
                    oracle := o2 } := by
    simp only [engineStep, hP.decode_encWrite u r v hr, engineDone, engineRetire, e2]
  rw [interleave_eager h, hc]
  simp only [List.length_singleton, Nat.mul_one, engineRun, t1, t2]
  rw [show engineStep P _ = none from engineStep_quiescent rfl (.inr rfl), ← hb]

/-- An eager engine takes and answers the one sample command that waits. -/
theorem interleave_eager_sample {s : State} (h : s.oracle.sched = .eager) (hb : s.busy = none)
    (hm : s.ctrl.mode ≠ .disabled) (u : ConvUnit) (p : SamplePoint) (w e : Word) (es : List Word)
    (hk : P.decodeCmd w = .sample u p) (hc : s.cmdFifo = [w]) (hl : s.respFifo.length < P.respDepth)
    (ha : sampleAllowed P u s = true) (he : s.oracle.responses = e :: es) :
    ∃ f o, o.sched = .eager ∧ o.responses = es ∧
      interleave P s = { s with cmdFifo := [], respFifo := s.respFifo ++ [e], flags := f, oracle := o } := by
  obtain ⟨f1, o1, hs1, hr1, e1⟩ := setDrawnFlags_eager P { s with busy := some w, cmdFifo := [] }
  obtain ⟨f2, o2, hs2, hr2, e2⟩ := setDrawnFlags_eager P
    { s with cmdFifo := [], respFifo := s.respFifo ++ [e], busy := none, flags := f1,
             oracle := { o1 with responses := es } }
  refine ⟨f2, o2, hs2.trans (hs1.trans h), hr2, ?_⟩
  have t1 : engineStep P s = some { s with busy := some w, cmdFifo := [], flags := f1, oracle := o1 } := by
    simp only [engineStep, hb, hm, if_false, hc, engineTake, e1]
  have hd : drawResponse { s with busy := some w, cmdFifo := [], flags := f1, oracle := o1 } =
      (e, { s with busy := some w, cmdFifo := [], flags := f1, oracle := { o1 with responses := es } }) := by
    simp only [drawResponse, hr1.trans he]
  have ha' : sampleAllowed P u { s with busy := some w, cmdFifo := [], flags := f1, oracle := o1 } = true := ha
  have t2 : engineStep P { s with busy := some w, cmdFifo := [], flags := f1, oracle := o1 } =
      some { s with cmdFifo := [], respFifo := s.respFifo ++ [e], busy := none, flags := f2, oracle := o2 } := by
    simp only [engineStep, hk, engineDone, mayRespond, hl, ha', decide_true, Bool.and_self, if_true, engineRespond,
      engineRetire, hd, e2]
  rw [interleave_eager h, hc]
  simp only [List.length_singleton, Nat.mul_one, engineRun, t1, t2]
  rw [show engineStep P _ = none from engineStep_quiescent rfl (.inr rfl), ← hb]

/-- A push whose first turn lets an eager engine drain the queue. -/
theorem runBlock_pushActs_drained (hP : P.Lawful) (src : PushSource) (rest : List CallerAct) (t : Temps) {s s' : State}
    (hi : interleave P s = s') (hc : s'.cmdFifo = []) (hb : s'.busy = none) (he : s'.oracle.sched = .eager) :
    runBlock P false (pushActs src ++ rest) t s =
      runBlock P false rest { t with polls := 0 } { s' with cmdFifo := [pushWord P t src] } := by
  rw [runBlock_pushActs hP src rest t (by rw [hi, hc]; decide), hi,
    interleave_eager_still he (engineStep_quiescent hb (.inr hc)), hc, List.nil_append]

end Sys2Proof.Machine
end

