-- ==== Sys2Proof/Laws/PerInstr.lean ====
section
/-! SUPPORT. A per-instruction family: bits 31 to 28 of an encoded word are the operation's number, whatever its operands
(R81, R82, R84). -/

set_option Elab.async false

namespace Sys2Proof

/-- The top four bits of a word of format R (R81), for fields within their widths. -/
theorem bits_op_wordR (op rd rs1 rs2 rd2 imm : Nat) (ho : op < 16) (h1 : rd < 8) (h2 : rs1 < 8) (h3 : rs2 < 8)
    (h4 : rd2 < 8) (h5 : imm < 65536) : bits (wordR op rd rs1 rs2 rd2 imm) 31 28 = op := by
  simp only [bits, wordR, BitVec.toNat_ofNat]
  omega

/-- The top four bits of a word of format U (R82), for fields within their widths. -/
theorem bits_op_wordU (op u rs1 imm : Nat) (ho : op < 16) (h1 : u < 2) (h2 : rs1 < 8) (h3 : imm < 65536) :
    bits (wordU op u rs1 imm) 31 28 = op := by
  simp only [bits, wordU, BitVec.toNat_ofNat]
  omega

theorem ConvUnit.index_lt (u : ConvUnit) : u.index < 2 := by cases u <;> decide

end Sys2Proof

namespace Sys2Proof.Laws.OpField

/-- The `OP` field of the instruction's word is the number R84 gives its mnemonic. -/
def Statement (i : Instr) : Prop := bits (encode i) 31 28 = opOf i.mnemonic

theorem qen (rs1 rs2 : HostVar) : Statement (.qen rs1 rs2) :=
  bits_op_wordR _ _ _ _ _ _ (by decide) (by decide) rs1.isLt rs2.isLt (by decide) (by decide)

theorem qdis : Statement .qdis :=
  bits_op_wordR _ _ _ _ _ _ (by decide) (by decide) (by decide) (by decide) (by decide) (by decide)

theorem qpush (rs1 : HostVar) : Statement (.qpush rs1) :=
  bits_op_wordR _ _ _ _ _ _ (by decide) (by decide) rs1.isLt (by decide) (by decide) (by decide)

theorem qwait (imm : BitVec 16) : Statement (.qwait imm) :=
  bits_op_wordR _ _ _ _ _ _ (by decide) (by decide) (by decide) (by decide) (by decide) imm.isLt

theorem qpop (rd : HostVar) : Statement (.qpop rd) :=
  bits_op_wordR _ _ _ _ _ _ (by decide) rd.isLt (by decide) (by decide) (by decide) (by decide)

theorem calcGain (rd rd2 rs1 rs2 : HostVar) : Statement (.calcGain rd rd2 rs1 rs2) :=
  bits_op_wordR _ _ _ _ _ _ (by decide) rd.isLt rs1.isLt rs2.isLt rd2.isLt (by decide)

theorem regwr (u : ConvUnit) (reg : RegIndex) (rs1 : HostVar) : Statement (.regwr u reg rs1) :=
  bits_op_wordU _ _ _ _ (by decide) u.index_lt rs1.isLt reg.isLt

theorem pwron : Statement .pwron :=
  bits_op_wordR _ _ _ _ _ _ (by decide) (by decide) (by decide) (by decide) (by decide) (by decide)

theorem pwroff : Statement .pwroff :=
  bits_op_wordR _ _ _ _ _ _ (by decide) (by decide) (by decide) (by decide) (by decide) (by decide)

theorem calib (u : ConvUnit) : Statement (.calib u) :=
  bits_op_wordU _ _ _ _ (by decide) u.index_lt (by decide) (by decide)

theorem bringup : Statement .bringup :=
  bits_op_wordR _ _ _ _ _ _ (by decide) (by decide) (by decide) (by decide) (by decide) (by decide)

theorem li (rd : HostVar) (imm : BitVec 16) : Statement (.li rd imm) :=
  bits_op_wordR _ _ _ _ _ _ (by decide) rd.isLt (by decide) (by decide) (by decide) imm.isLt

end Sys2Proof.Laws.OpField
end

