-- ==== Sys2Proof/Laws/Sequences.lean ====
section
/-! SUPPORT. The calibration sequence under an eager engine, as one lemma per outcome, wherever it stands in an operation. -/

set_option Elab.async false

namespace Sys2Proof.Machine

variable {P : Params}

/-- A push that finds one register write waiting: the engine completes that write first. -/
theorem runBlock_push_after_write (hP : P.Lawful) (src : PushSource) (rest : List CallerAct) (t : Temps) {s : State}
    (h : s.oracle.sched = .eager) (hb : s.busy = none) (hm : s.ctrl.mode ≠ .disabled) {u : ConvUnit} {r : RegIndex}
    {v : Word} (hr : r.toNat < 2 ^ P.regW) (hc : s.cmdFifo = [P.encWrite u r v]) :
    ∃ f o, o.sched = .eager ∧ o.responses = s.oracle.responses ∧
      runBlock P false (pushActs src ++ rest) t s =
        runBlock P false rest { t with polls := 0 }
          { s with cmdFifo := [pushWord P t src], conv := convWrite P u r (Word.trunc P.payloadW v) s.conv,
                   flags := f, oracle := o } := by
  obtain ⟨f, o, h1, h2, e⟩ := interleave_eager_write hP h hb hm u r v hr hc
  exact ⟨f, o, h1, h2, runBlock_pushActs_drained hP src rest t e rfl hb h1⟩

/-- A push that finds one sample command of an enabled unit waiting: the engine answers it first. -/
theorem runBlock_push_after_sample (hP : P.Lawful) (src : PushSource) (rest : List CallerAct) (t : Temps) {s : State}
    (h : s.oracle.sched = .eager) (hb : s.busy = none) (hm : s.ctrl.mode ≠ .disabled) {u : ConvUnit} {p : SamplePoint}
    {w e : Word} {es : List Word} (hk : P.decodeCmd w = .sample u p) (hc : s.cmdFifo = [w])
    (hl : s.respFifo.length < P.respDepth) (ha : unitEnabled P u s.conv = true) (he : s.oracle.responses = e :: es) :
    ∃ f o, o.sched = .eager ∧ o.responses = es ∧
      runBlock P false (pushActs src ++ rest) t s =
        runBlock P false rest { t with polls := 0 }
          { s with cmdFifo := [pushWord P t src], respFifo := s.respFifo ++ [e], flags := f, oracle := o } := by
  obtain ⟨f, o, h1, h2, e⟩ := interleave_eager_sample h hb hm u p w e es hk hc hl (by simp [sampleAllowed, ha]) he
  exact ⟨f, o, h1, h2, runBlock_pushActs_drained hP src rest t e rfl hb h1⟩

/-- `calibrate` from its second push to its second pop (R196 to R199), the first sample word just pushed. -/
theorem runBlock_sample_pair (hP : P.Lawful) (rest : List CallerAct) (t : Temps) {s : State} {u : ConvUnit}
    {e25 e75 : Word} {es : List Word} (h : s.oracle.sched = .eager) (hb : s.busy = none)
    (hm : s.ctrl.mode ≠ .disabled) (hc : s.cmdFifo = [P.encSample25 u]) (hl : s.respFifo = [])
    (ha : unitEnabled P u s.conv = true) (he : s.oracle.responses = e25 :: e75 :: es) :
    ∃ f o, o.sched = .eager ∧ o.responses = es ∧
      runBlock P false (pushActs (.word (P.encSample75 u)) ++ (waitActs P 2 ++ (.pop25 :: .pop75 :: rest))) t s =
        runBlock P false rest { t with polls := 0, e25 := e25, e75 := e75 }
          { s with cmdFifo := [], flags := f, oracle := o } := by
  have hd := hP.respDepth_ge
  obtain ⟨f, o, h1, h2, e⟩ := runBlock_push_after_sample hP (.word (P.encSample75 u))
    (waitActs P 2 ++ (.pop25 :: .pop75 :: rest)) t h hb hm (hP.decode_encSample25 u) hc
    (by rw [hl]; exact Nat.lt_of_lt_of_le (by decide) hd) ha he
  obtain ⟨f2, o2, h3, h4, e2⟩ := interleave_eager_sample (P := P)
    (s := { s with cmdFifo := [P.encSample75 u], respFifo := s.respFifo ++ [e25], flags := f, oracle := o }) h1 hb hm u
    .p75 _ e75 es (hP.decode_encSample75 u) rfl (by simp [hl]; omega) (by simp [sampleAllowed, ha]) h2
  refine ⟨0#32, o2, h3, h4, ?_⟩
  rw [e]
  simp only [pushWord, waitActs, List.cons_append, List.nil_append]
  let X : Word → List Word → State := fun f r => { s with cmdFifo := [], respFifo := r, flags := f, oracle := o2 }
  have q : ∀ f r, interleave P (X f r) = X f r := fun _ _ =>
    interleave_eager_still h3 (engineStep_quiescent hb (.inr rfl))
  have g : s.respFifo ++ [e25, e75] = [e25, e75] := by simp [hl]
  rw [runBlock_cons_ok (by simpa [e2] using runAct_holdResponses_pass hP 2 _ (by simp [hl]; omega) (by simp [hl]))]
  simp only [g]
  rw [runBlock_cons_ok (t' := _) (s' := X 0#32 [e25, e75]) (by
    change runAct P _ _ (interleave P (X f2 [e25, e75])) = _
    rw [q]; simp only [runAct, regWrite, onWrite, clearFlags_all, X]; rfl)]
  rw [runBlock_cons_ok (t' := _) (s' := X 0#32 [e75]) (by
    change runAct P _ _ (interleave P (X _ _)) = _
    rw [q]; simp only [runAct, regRead, onRead, X]; rfl)]
  rw [runBlock_cons_ok (t' := _) (s' := X 0#32 []) (by
    change runAct P _ _ (interleave P (X _ _)) = _
    rw [q]; simp only [runAct, regRead, onRead, X]; rfl)]
  simp only [hl, X]

/-- The converter file after the engine has completed the first five of the six correction writes (R200). -/
def fiveCorrections (P : Params) (u : ConvUnit) (gain offset : Word) (f : ConvFile) : ConvFile :=
  let g := Word.trunc P.payloadW gain
  let o := Word.trunc P.payloadW offset
  convWrite P u (P.reg (.gcc .alt2)) g <| convWrite P u (P.reg (.occ .alt1)) o <|
    convWrite P u (P.reg (.gcc .alt1)) g <| convWrite P u (P.reg (.occ .dflt)) o <|
      convWrite P u (P.reg (.gcc .dflt)) g f

/-- The six correction pushes (R200): the engine completes five of them, the sixth still waits. -/
theorem runBlock_corrections (hP : P.Lawful) (rest : List CallerAct) (t : Temps) {s : State} {u : ConvUnit}
    (h : s.oracle.sched = .eager) (hb : s.busy = none) (hm : s.ctrl.mode ≠ .disabled) (hc : s.cmdFifo = []) :
    ∃ f o, o.sched = .eager ∧ o.responses = s.oracle.responses ∧
      runBlock P false (correctionActs u .dflt ++ (correctionActs u .alt1 ++ (correctionActs u .alt2 ++ rest))) t s =
        runBlock P false rest { t with polls := 0 }
          { s with cmdFifo := [P.encWrite u (P.reg (.occ .alt2)) t.offset], flags := f, oracle := o,
                   conv := fiveCorrections P u t.gain t.offset s.conv } := by
  simp only [correctionActs, List.append_assoc]
  rw [runBlock_pushActs_drained hP _ _ _ (interleave_eager_still h (engineStep_quiescent hb (.inr hc))) hc hb h]
  simp only [pushWord]
  obtain ⟨f1, o1, h1, r1, e1⟩ := runBlock_push_after_write hP (.offsetWrite u .dflt)
    (pushActs (.gainWrite u .alt1) ++ (pushActs (.offsetWrite u .alt1) ++ (pushActs (.gainWrite u .alt2) ++
      (pushActs (.offsetWrite u .alt2) ++ rest)))) { t with polls := 0 }
    (s := { s with cmdFifo := [P.encWrite u (P.reg (.gcc .dflt)) t.gain] }) h hb hm (hP.reg_in_set _) rfl
  obtain ⟨f2, o2, h2, r2, e2⟩ := runBlock_push_after_write hP (.gainWrite u .alt1)
    (pushActs (.offsetWrite u .alt1) ++ (pushActs (.gainWrite u .alt2) ++ (pushActs (.offsetWrite u .alt2) ++ rest)))
    { t with polls := 0 }
    (s := { s with cmdFifo := [P.encWrite u (P.reg (.occ .dflt)) t.offset], conv := _, flags := f1, oracle := o1 })
    h1 hb hm (hP.reg_in_set _) rfl
  obtain ⟨f3, o3, h3, r3, e3⟩ := runBlock_push_after_write hP (.offsetWrite u .alt1)
    (pushActs (.gainWrite u .alt2) ++ (pushActs (.offsetWrite u .alt2) ++ rest)) { t with polls := 0 }
    (s := { s with cmdFifo := [P.encWrite u (P.reg (.gcc .alt1)) t.gain], conv := _, flags := f2, oracle := o2 })
    h2 hb hm (hP.reg_in_set _) rfl
  obtain ⟨f4, o4, h4, r4, e4⟩ := runBlock_push_after_write hP (.gainWrite u .alt2)
    (pushActs (.offsetWrite u .alt2) ++ rest) { t with polls := 0 }
    (s := { s with cmdFifo := [P.encWrite u (P.reg (.occ .alt1)) t.offset], conv := _, flags := f3, oracle := o3 })
    h3 hb hm (hP.reg_in_set _) rfl
  obtain ⟨f5, o5, h5, r5, e5⟩ := runBlock_push_after_write hP (.offsetWrite u .alt2) rest { t with polls := 0 }
    (s := { s with cmdFifo := [P.encWrite u (P.reg (.gcc .alt2)) t.gain], conv := _, flags := f4, oracle := o4 })
    h4 hb hm (hP.reg_in_set _) rfl
  exact ⟨f5, o5, h5, r5.trans (r4.trans (r3.trans (r2.trans r1))),
    e1.trans (e2.trans (e3.trans (e4.trans e5)))⟩

/-- The state a calibration starts from: the first caller step of a machine step finds it as it is, a later one after the
engine's turn. -/
def StartsFrom (P : Params) (fresh : Bool) (s0 s : State) : Prop :=
  (fresh = true ∧ s0 = s) ∨ (fresh = false ∧ interleave P s0 = s)

/-- `calibrate` up to its datapath step (R196 steps 1 to 3), on an idle, empty, enabled queue. -/
theorem runBlock_calibrate_samples (hP : P.Lawful) (fresh : Bool) (rest : List CallerAct) (t : Temps) {s s0 : State}
    {u : ConvUnit} {e25 e75 : Word} {es : List Word} (hs : StartsFrom P fresh s0 s) (h : s.oracle.sched = .eager)
    (hb : s.busy = none) (hm : s.ctrl.mode ≠ .disabled) (hc : s.cmdFifo = []) (hl : s.respFifo = [])
    (ha : unitEnabled P u s.conv = true) (he : s.oracle.responses = e25 :: e75 :: es) :
    ∃ f o, o.sched = .eager ∧ o.responses = es ∧
      runBlock P fresh (calibrateActs P u ++ rest) t s0 =
        runBlock P false
          (.compute :: (correctionActs u .dflt ++ (correctionActs u .alt1 ++ (correctionActs u .alt2 ++ rest))))
          { t with polls := 0, e25 := e25, e75 := e75 } { s with cmdFifo := [], flags := f, oracle := o } := by
  have hst := interleave_eager_still (P := P) h (engineStep_quiescent hb (.inr hc))
  obtain ⟨f, o, h1, h2, e⟩ := runBlock_sample_pair hP
    (.compute :: (correctionActs u .dflt ++ (correctionActs u .alt1 ++ (correctionActs u .alt2 ++ rest))))
    { t with polls := 0 } (s := { s with cmdFifo := [P.encSample25 u] }) (u := u) h hb hm rfl hl ha he
  refine ⟨f, o, h1, h2, Eq.trans ?_ e⟩
  have hr : calibrateActs P u ++ rest =
      pushActs (.word (P.encSample25 u)) ++ (pushActs (.word (P.encSample75 u)) ++ (waitActs P 2 ++ (.pop25 :: .pop75 ::
        (.compute :: (correctionActs u .dflt ++ (correctionActs u .alt1 ++ (correctionActs u .alt2 ++ rest))))))) := by
    simp [calibrateActs, List.append_assoc]
  rw [hr]
  rcases hs with ⟨rfl, rfl⟩ | ⟨rfl, hi⟩
  · rw [runBlock_pushActs_fresh hP _ _ _ (by simp [hc]), hst, hc]; rfl
  · rw [runBlock_pushActs_drained hP _ _ _ hi hc hb h]; rfl

/-- A calibration whose pair is not degenerate goes on after its six pushes (R196). -/
theorem runBlock_calibrate (hP : P.Lawful) (fresh : Bool) (rest : List CallerAct) (t : Temps) {s s0 : State}
    {u : ConvUnit} {e25 e75 : Word} {es : List Word} (hs : StartsFrom P fresh s0 s) (h : s.oracle.sched = .eager)
    (hb : s.busy = none) (hm : s.ctrl.mode ≠ .disabled) (hc : s.cmdFifo = []) (hl : s.respFifo = [])
    (ha : unitEnabled P u s.conv = true) (he : s.oracle.responses = e25 :: e75 :: es)
    (hg : (codeOf e25).toNat < (codeOf e75).toNat) :
    ∃ f o t', o.sched = .eager ∧ o.responses = es ∧
      runBlock P fresh (calibrateActs P u ++ rest) t s0 =
        runBlock P false rest t'
          { s with
            cmdFifo := [P.encWrite u (P.reg (.occ .alt2)) ((calOffset (codeOf e25) (codeOf e75)).setWidth 32)]
            flags := f
            oracle := o
            conv := fiveCorrections P u (calGain (codeOf e25) (codeOf e75))
              ((calOffset (codeOf e25) (codeOf e75)).setWidth 32) s.conv } := by
  obtain ⟨f, o, h1, h2, e⟩ := runBlock_calibrate_samples hP fresh rest t hs h hb hm hc hl ha he
  have hst := interleave_eager_still (P := P) (s := { s with cmdFifo := [], flags := f, oracle := o }) h1
    (engineStep_quiescent hb (.inr rfl))
  rw [e, runBlock_cons_ok (t' := _) (s' := { s with cmdFifo := [], flags := f, oracle := o }) (by
    simp only [Bool.false_eq_true, if_false, hst, runAct]
    rw [if_neg (by simp [degenerate]; omega)])]
  obtain ⟨f2, o2, h3, h4, e2⟩ := runBlock_corrections hP rest
    { polls := 0, e25 := e25, e75 := e75, gain := calGain (codeOf e25) (codeOf e75),
      offset := (calOffset (codeOf e25) (codeOf e75)).setWidth 32 }
    (s := { s with cmdFifo := [], flags := f, oracle := o }) (u := u) h1 hb hm rfl
  exact ⟨f2, o2, _, h3, h4.trans h2, e2⟩

/-- A calibration whose pair is degenerate raises, both responses popped and no correction pushed (R201). -/
theorem runBlock_calibrate_degenerate (hP : P.Lawful) (fresh : Bool) (rest : List CallerAct) (t : Temps) {s s0 : State}
    {u : ConvUnit} {e25 e75 : Word} {es : List Word} (hs : StartsFrom P fresh s0 s) (h : s.oracle.sched = .eager)
    (hb : s.busy = none) (hm : s.ctrl.mode ≠ .disabled) (hc : s.cmdFifo = []) (hl : s.respFifo = [])
    (ha : unitEnabled P u s.conv = true) (he : s.oracle.responses = e25 :: e75 :: es)
    (hg : (codeOf e75).toNat ≤ (codeOf e25).toNat) :
    ∃ f o t', o.sched = .eager ∧ o.responses = es ∧
      runBlock P fresh (calibrateActs P u ++ rest) t s0 =
        .raised (.degenerate (codeOf e25) (codeOf e75)) t' { s with cmdFifo := [], flags := f, oracle := o } := by
  obtain ⟨f, o, h1, h2, e⟩ := runBlock_calibrate_samples hP fresh rest t hs h hb hm hc hl ha he
  have hst := interleave_eager_still (P := P) (s := { s with cmdFifo := [], flags := f, oracle := o }) h1
    (engineStep_quiescent hb (.inr rfl))
  refine ⟨f, o, { t with polls := 0, e25 := e25, e75 := e75 }, h1, h2, ?_⟩
  rw [e, runBlock]
  simp only [Bool.false_eq_true, if_false, hst, runAct]
  rw [if_pos (by simp [degenerate]; omega)]

end Sys2Proof.Machine
end

