-- ==== Sys2Proof/Tests/Slice0.lean ====
section
/-! SUPPORT. Tests: words written out from the encoding tables, well-formedness, single steps under the example binding E
(expected results from 95_test_vectors.md), and for each statement with hypotheses a state that meets them. -/

set_option Elab.async false

namespace Sys2Proof.Tests

open Sys2Proof Sys2Proof.Machine Sys2Proof.Safety

/-! ## Encoding (95_test_vectors.md 2.1; R84 and R87 for the operations V-ENC leaves out) -/

theorem test_decode_qen : decode 0x10500000#32 = .ok (.qen 1 2) := by decide +kernel
theorem test_decode_qdis : decode 0x20000000#32 = .ok .qdis := by decide +kernel
theorem test_decode_qpush : decode 0x30C00000#32 = .ok (.qpush 3) := by decide +kernel
theorem test_decode_qwait : decode 0x4000FFFF#32 = .ok (.qwait 65535) := by decide +kernel
theorem test_decode_qpop : decode 0x5A000000#32 = .ok (.qpop 5) := by decide +kernel
theorem test_decode_calc : decode 0x6F700000#32 = .ok (.calcGain 7 0 5 6) := by decide +kernel
theorem test_decode_calc_aliased : decode 0x62510000#32 = .ok (.calcGain 1 1 1 2) := by decide +kernel
theorem test_decode_regwr : decode 0x72000004#32 = .ok (.regwr .B 4 0) := by decide +kernel
theorem test_decode_pwron : decode 0x80000000#32 = .ok .pwron := by decide +kernel
theorem test_decode_pwroff : decode 0x90000000#32 = .ok .pwroff := by decide +kernel
theorem test_decode_calib : decode 0xA2000000#32 = .ok (.calib .B) := by decide +kernel
theorem test_decode_bringup : decode 0xB0000000#32 = .ok .bringup := by decide +kernel
theorem test_decode_li : decode 0xC2000001#32 = .ok (.li 1 1) := by decide +kernel

/-- V-ENC-01, -11, -12: the reserved OP values. -/
theorem test_decode_reserved : decode 0#32 = .error (.reservedOp 0) ∧ decode 0xD0000000#32 = .error (.reservedOp 0xD) ∧
    decode 0xE0000000#32 = .error (.reservedOp 0xE) ∧ decode 0xF0000000#32 = .error (.reservedOp 0xF) := by decide +kernel

/-- V-ENC-03, -08, -10, -14, -16: a must-be-zero field that is not zero. -/
theorem test_decode_must_be_zero : decode 0x20000001#32 = .error (.mustBeZero 2) ∧
    decode 0x76000004#32 = .error (.mustBeZero 7) ∧ decode 0xA0400000#32 = .error (.mustBeZero 0xA) ∧
    decode 0xC2013000#32 = .error (.mustBeZero 0xC) ∧ decode 0x51000000#32 = .error (.mustBeZero 5) := by decide +kernel

theorem test_encode_calc : encode (.calcGain 7 0 5 6) = 0x6F700000#32 := by decide +kernel
theorem test_encode_regwr : encode (.regwr .B 4 0) = 0x72000004#32 := by decide +kernel
theorem test_table_word : decodeTableWord 32 0x72000004 = some (.regwr .B 4 0) := by decide +kernel

/-! ## Well-formedness (R83) -/

/-- Under binding E, where REG_W is 6, index 64 is ill formed and 63 is not. -/
theorem test_ill_formed_register : Instr.wellFormedIn Config.bindingE (.regwr .A 64 0) = false ∧
    Instr.wellFormedIn Config.bindingE (.regwr .A 63 0) = true := by decide

/-! ## Command words (V-CMD-01 to V-CMD-05) -/

theorem test_command_words : Config.encWriteE .A 4 0x12345678#32 = 0x84345678#32 ∧
    Config.decodeCmdE 0x84345678#32 = .write .A 4 0x345678#32 ∧ Config.decodeCmdE 0xC0000086#32 = .write .B 0 0x86#32 ∧
    Config.decodeCmdE 2#32 = .sample .A .p75 ∧ Config.decodeCmdE 3#32 = .read .A 0 ∧
    Config.decodeCmdE 5#32 = .unknown := by decide +kernel

/-! ## Single steps under binding E -/

/-- The clean entry state (R252) with an eager engine, no flag drawn, and a few status words lined up. -/
def clean : State where
  ctrl := ⟨.disabled, 0#32⟩
  notify := 0#32
  flags := 0#32
  cmdFifo := []
  busy := none
  respFifo := []
  conv := []
  faults := FaultSet.empty
  refused := false
  x := Vector.replicate 8 none
  pc := 0
  err := .ok
  program := []
  op := none
  oracle := ⟨.eager, [], List.replicate 80 0#32, [0#32, 0xFFFFFFFE#32], 0, 0⟩

/-- Enabled in single-scan mode. -/
def on (s : State) : State := { s with ctrl := ⟨.swss, 0#32⟩ }

/-- The oracle's answers to the next sample or read commands. -/
def answers (l : List Word) (s : State) : State := { s with oracle := { s.oracle with responses := l } }

/-- An engine that takes no step for a while. -/
def still (s : State) : State := { s with oracle := { s.oracle with sched := .script (List.replicate 80 0) } }

/-- Host variables set. -/
def vars (l : List (HostVar × Word)) (s : State) : State := l.foldl (fun s p => writeVar s p.1 p.2) s

abbrev E : Params := Config.bindingE
/-- Binding E with a poll bound. -/
def bounded (k : Nat) : Params := { E with pollBound := some k }

/-- V-Q-01. -/
theorem test_qen : enableOp E 1 2 (vars [(1, 1#32), (2, 0#32)] clean) =
    { on (vars [(1, 1#32), (2, 0#32)] clean) with pc := 1 } := by decide +kernel

/-- V-Q-02. -/
theorem test_qen_invalidates : (enableOp E 1 2 (vars [(1, 0x11#32), (2, 0#32)] { clean with cmdFifo := [7#32, 8#32] })).cmdFifo = [] := by
  decide +kernel

/-- Program P2, schedule S-a. -/
theorem test_qdis :
    let t := disableOp E { on clean with busy := some 0x84004000#32, cmdFifo := [0x8500FFFE#32, 0x86004000#32],
                                         flags := 3#32, notify := 5#32 }
    t.conv = [⟨.A, 4, 0x4000#32⟩] ∧ t.cmdFifo = [] ∧ t.busy = none ∧ t.flags = 0#32 ∧ t.notify = 0#32 ∧ t.pc = 1 := by
  decide +kernel

/-- V-Q-06 with one poll allowed: the idle timeout. -/
theorem test_qdis_timeout :
    let t := disableOp (bounded 1) { on clean with busy := some 1#32, respFifo := [1#32, 2#32, 3#32, 4#32], cmdFifo := [7#32], flags := 2#32 }
    t.err = .timeoutIdle 1 ∧ t.err.code = 1 ∧ t.cmdFifo = [7#32] ∧ t.flags = 2#32 ∧ t.ctrl.mode = .disabled := by decide +kernel

/-- V-Q-10. -/
theorem test_qpush : (pushOp E 1 (vars [(1, 9#32)] { clean with cmdFifo := [1#32, 2#32, 3#32] })).cmdFifo =
    [1#32, 2#32, 3#32, 9#32] := by decide +kernel

/-- V-Q-11: the second poll of two raises. -/
theorem test_qpush_timeout :
    let s := vars [(1, 9#32)] { clean with cmdFifo := [1#32, 2#32, 3#32, 4#32] }
    let t := pushOp (bounded 2) 1 (pushOp (bounded 2) 1 s)
    t.err = .timeoutPush 2 9#32 ∧ t.cmdFifo = s.cmdFifo ∧ t.pc = 0 := by decide +kernel

/-- V-Q-14. -/
theorem test_qwait :
    let t := waitOp E 2 { clean with respFifo := [1#32, 2#32], flags := 5#32 }
    t.flags = 0#32 ∧ t.respFifo = [1#32, 2#32] ∧ t.pc = 1 := by decide +kernel

/-- V-Q-16 without a bound: the operation holds. -/
theorem test_qwait_holds :
    let t := waitOp E 5 { clean with respFifo := [1#32, 2#32, 3#32, 4#32], flags := 5#32 }
    t.flags = 5#32 ∧ t.pc = 0 ∧ t.op ≠ none := by decide +kernel

/-- V-Q-17. -/
theorem test_qpop :
    let t := popOp E 3 { clean with respFifo := [0x1000#32, 0x3000#32] }
    readVar t 3 = some 0x1000#32 ∧ t.respFifo = [0x3000#32] := by decide +kernel

/-- V-Q-19, and program P6: the fault is recorded and the program goes on. -/
theorem test_qpop_underflow :
    let t := popOp E 3 clean
    t.faults.has .respUnderflow = true ∧ readVar t 3 = none ∧ t.pc = 1 ∧ t.err = .ok := by decide +kernel

/-- V-CAL-05: the product wraps. -/
theorem test_calc_wraps :
    let t := calcOp 3 4 1 2 (vars [(1, 0xFFFD#32), (2, 0xFFFF#32)] clean)
    readVar t 3 = some 0x4000000#32 ∧ readVar t 4 = some 0x3FFE#32 := by decide +kernel

/-- V-CAL-21: one variable is both destinations and a source. -/
theorem test_calc_aliased :
    readVar (calcOp 1 1 1 2 (vars [(1, 0x1000#32), (2, 0x3000#32)] clean)) 1 = some 0xFFFE#32 := by decide +kernel

/-- V-S-01. -/
theorem test_regwr : (regwrOp E .A 4 5 (vars [(5, 0x12345678#32)] clean)).cmdFifo = [0x84345678#32] := by decide +kernel

/-- R83: an index outside the set is refused. -/
theorem test_regwr_refused :
    (regwrOp E .A 64 5 (vars [(5, 0x12345678#32)] clean)).refused = true := by decide +kernel

/-- V-S-02. -/
theorem test_pwron : (pwronOp E clean).cmdFifo = [0x80000086#32, 0xC0000086#32] := by decide +kernel

/-- V-S-03. -/
theorem test_pwroff : (pwroffOp E clean).cmdFifo = [0x80000006#32, 0xC0000006#32] := by decide +kernel

/-- V-S-05, but for the sixth write, which still waits. -/
theorem test_calib :
    let t := calibOp E .A (answers [0x400#32, 0xC00#32] (on clean))
    t.cmdFifo = [0x8900FFFE#32] ∧ t.conv = [⟨.A, 4, 0x10000#32⟩, ⟨.A, 5, 0xFFFE#32⟩, ⟨.A, 6, 0x10000#32⟩,
      ⟨.A, 7, 0xFFFE#32⟩, ⟨.A, 8, 0x10000#32⟩] := by decide +kernel

/-- V-S-07: a response that stood there before is paired by order. -/
theorem test_calib_pairs_by_order :
    let t := calibOp E .A (answers [0x1000#32, 0x3000#32] { on clean with respFifo := [0xABCD#32] })
    t.err = .degenerate 0xABCD 0x1000 ∧ t.respFifo = [0x3000#32] ∧ t.err.code = 4 := by decide +kernel

/-- V-S-08, unit B. -/
theorem test_bringup :
    let t := bringupOp E (answers [0x1000#32, 0x3000#32, 0x1004#32, 0x300C#32] clean)
    t.pc = 1 ∧ t.conv.filter (fun c => c.unit == .B) = [⟨.B, 0, 6#32⟩, ⟨.B, 1, 1#32⟩, ⟨.B, 2, 2#32⟩, ⟨.B, 4, 0x3FF0#32⟩,
      ⟨.B, 5, 0xFFFF#32⟩, ⟨.B, 6, 0x3FF0#32⟩, ⟨.B, 7, 0xFFFF#32⟩, ⟨.B, 8, 0x3FF0#32⟩, ⟨.B, 9, 0xFFFF#32⟩] := by
  decide +kernel

/-- V-X-05: the first error is the one reported, and the clean-up runs. -/
theorem test_bringup_first_error :
    let t := bringupOp { bounded 1 with units := fun u => u == .A } (still clean)
    t.err = .timeoutResponse 1 2 0 ∧ t.conv = [] ∧ t.cmdFifo = [] ∧ t.ctrl.mode = .disabled := by decide +kernel

/-- V-Q-20. -/
theorem test_li : readVar (writeVar clean 2 (immWord 0x3000)) 2 = some 0x3000#32 := by decide +kernel

/-- V-E-07: the flags the engine draws at TAKE and at DONE. -/
theorem test_engine_flags :
    (engineRun E 2 { on clean with cmdFifo := [0x84004000#32]
                                   oracle := ⟨.eager, [], [4#32, 1#32], [], 0, 0⟩ }).flags = 5#32 := by decide +kernel

/-- V-E-06. -/
theorem test_engine_unknown :
    (engineRun E 3 { on clean with busy := some 5#32 }).busy = some 5#32 := by decide +kernel

/-- The very first step after reset runs the word placed for it. -/
theorem test_first_step (s : State) (h : step (State.reset.withFetchWord 32 0xC2000001) = .next s) :
    readVar s 1 = some 1#32 := by
  have e : step (State.reset.withFetchWord 32 0xC2000001) =
      exec (.li 1 1) (interleave Config.params (State.reset.withFetchWord 32 0xC2000001)) := rfl
  rw [e] at h
  cases h
  simp [readVar, writeVar, immWord, Vector.get_eq_getElem]

/-! ## Witnesses: for each statement with hypotheses, what meets them

Statements about every lawful choice of the parameters are met by binding E; those about `exec` and `step` are met under
`Config.params`, of which only its laws are known. -/

theorem test_binding_lawful : E.Lawful := Config.bindingE_lawful

/-- The machine's own parameters. -/
abbrev M : Params := Config.params

/-- Both control registers written with `v`. -/
def controls (v : Word) (s : State) : State :=
  { s with conv := convWrite M .B (M.reg .cr) v (convWrite M .A (M.reg .cr) v s.conv) }

/-- A command that no engine step can complete: a sample, the response FIFO full. -/
def stuck : State := { clean with busy := some (M.encSample25 .A), respFifo := List.replicate M.respDepth 0#32 }

theorem test_witness_encode_of_decode : decode 0x10500000#32 = .ok (.qen 1 2) := test_decode_qen

theorem test_witness_reserved :
    bits 0#32 31 28 ∈ [0x0, 0xD, 0xE, 0xF] ∧ bits 0xF0000000#32 31 28 ∈ [0x0, 0xD, 0xE, 0xF] ∧
      (bits 0x20000001#32 31 28 = bits (matchOf .QDIS) 31 28 ∧ 0x20000001#32 &&& maskOf .QDIS ≠ matchOf .QDIS) ∧
      clean.refused = false ∧ clean.err = .ok ∧ ({ clean with program := [0#32] } : State).program[0]? = some 0#32 := by
  decide +kernel

theorem test_witness_step_runs :
    let s := { clean with program := [0x20000000#32] }
    s.refused = false ∧ s.err = .ok ∧ s.program[s.pc]? = some 0x20000000#32 ∧ decode 0x20000000#32 = .ok .qdis := by
  decide +kernel

theorem test_witness_held :
    ({ clean with op := some ⟨[pushActs (.word 7#32)], .ok, .start⟩ } : State).op =
      some ⟨[pushActs (.word 7#32)], .ok, .start⟩ ∧ (Instr.qpush 1).mnemonic ∈
        [.QDIS, .QPUSH, .QWAIT, .REGWR, .PWRON, .PWROFF, .CALIB, .BRINGUP] := by decide

theorem test_witness_refused : clean.markRefused.refused = true := rfl

/-- Both clauses: an instruction and a step that find a fault recorded, an instruction that finds the refusal mark set. -/
theorem test_witness_marks_kept :
    (∃ t, step { clean with program := [0xC2000001#32], faults := ⟨true, false, false⟩ } = .next t) ∧
      (∃ t, exec (.li 1 1) clean.markRefused = .next t) ∧ (FaultSet.mk true false false).has .respUnderflow = true :=
  ⟨⟨_, rfl⟩, ⟨_, rfl⟩, rfl⟩

/-- Any register write the engine has in progress completes. -/
theorem engine_write_completes (s : State) (h : s.busy = some (M.encWrite .A (M.reg .cr) 0#32)) :
    ∃ t, engineStep M s = some t := by
  simp only [engineStep, h, Config.params_lawful.decode_encWrite _ _ _ (Config.params_lawful.reg_in_set _), engineDone]
  exact ⟨_, rfl⟩

theorem test_witness_error_stops : ∃ s t : State, s.err ≠ .ok ∧ step s = .next t := by
  refine ⟨{ clean with err := .timeoutIdle 1, busy := some (M.encWrite .A (M.reg .cr) 0#32) }, ?_⟩
  obtain ⟨t, h⟩ := engine_write_completes
    { clean with err := .timeoutIdle 1, busy := some (M.encWrite .A (M.reg .cr) 0#32) } rfl
  exact ⟨t, by decide, by simp [step, clean, engineOnly] at h ⊢; simp [h]⟩

/-- An operation completes, and one keeps what it holds (here it meets a refused access). -/
theorem test_witness_pc :
    (∃ t, exec (.li 1 1) clean = .next t ∧ t.pc = clean.pc + 1) ∧
      ∃ t, exec .qdis { clean with op := some ⟨[[.write .status 0#32]], .ok, .start⟩ } = .next t ∧ t.op ≠ none ∧
        t.pc = clean.pc :=
  ⟨⟨_, rfl, rfl⟩, ⟨_, rfl, by decide, rfl⟩⟩

theorem test_witness_inv : Inv M clean := by
  have h : ctrlWord M ⟨.disabled, 0#32⟩ = ctrlDis M := by simp [ctrlWord, modeBits, ctrlDis]
  exact ⟨by decide, Nat.zero_le _, by simp [clean, Word.trunc],
    by simpa [clean, h] using ctrlOfWord_ctrlDis Config.params_lawful, convWf_reset M,
    fun p k h => by simp [clean] at h⟩

theorem test_witness_inv_step : ∃ t, step { clean with program := [0xC2000001#32] } = .next t := ⟨_, rfl⟩

theorem test_witness_ended : clean.refused = false ∧ Ended M clean :=
  ⟨rfl, .inr (Nat.le_refl _), engineStep_quiescent rfl (.inl rfl)⟩

theorem test_witness_take :
    let s := { on clean with cmdFifo := [7#32, 8#32] }
    s.busy = none ∧ s.ctrl.mode ≠ .disabled ∧ s.cmdFifo = 7#32 :: [8#32] := by decide +kernel

/-- The three kinds of command; a sample that may complete, one that meets a full FIFO. -/
theorem test_witness_done :
    E.decodeCmd 0x84004000#32 = .write .A 4 0x4000#32 ∧ E.decodeCmd 1#32 = .sample .A .p25 ∧
      E.decodeCmd 3#32 = .read .A 0 ∧ E.decodeCmd 5#32 = .unknown ∧
      (∃ t, engineStep E { clean with busy := some 1#32, respFifo := [1#32, 2#32, 3#32] } = some t) ∧
      engineStep E { clean with busy := some 1#32, respFifo := [1#32, 2#32, 3#32, 4#32] } = none :=
  ⟨by decide +kernel, by decide +kernel, by decide +kernel, by decide +kernel, ⟨_, rfl⟩, by decide +kernel⟩

theorem test_witness_unknown : ({ clean with busy := some 5#32 } : State).busy = some 5#32 ∧
    E.decodeCmd 5#32 = .unknown := by decide +kernel

/-- V-E-05: both cases of the unit. -/
theorem test_witness_disabled_unit : unitEnabled E .A [⟨.A, 0, 0x86#32⟩] = true ∧ unitEnabled E .A clean.conv = false := by
  decide +kernel

/-- A TAKE and a DONE. -/
theorem test_witness_engine_step :
    (∃ t, engineStep E { on clean with cmdFifo := [7#32] } = some t) ∧
      ∃ t, engineStep E { clean with busy := some 1#32 } = some t := ⟨⟨_, rfl⟩, ⟨_, rfl⟩⟩

theorem test_witness_quiescent : clean.busy = none ∧ clean.ctrl.mode = .disabled ∧ (on clean).busy = none ∧
    (on clean).cmdFifo = [] := by decide

theorem test_witness_completed_write :
    let s := { on clean with cmdFifo := [E.encWrite .B 63 9#32] }
    s.busy = none ∧ s.ctrl.mode ≠ .disabled ∧ s.cmdFifo = [E.encWrite .B 63 9#32] ∧
      (63 : RegIndex).toNat < 2 ^ E.regW := by decide +kernel

/-- The two lists, as PWRON and PWROFF leave them in an empty FIFO. -/
theorem test_witness_power :
    (on (pwronOp E clean)).cmdFifo = [E.encWrite .A (E.reg .cr) (E.prescale ||| E.enBit),
        E.encWrite .B (E.reg .cr) (E.prescale ||| E.enBit)] ∧
      (on (pwroffOp E clean)).cmdFifo = [E.encWrite .A (E.reg .cr) E.prescale, E.encWrite .B (E.reg .cr) E.prescale] ∧
      (on (pwronOp E clean)).busy = none ∧ (on clean).ctrl.mode ≠ .disabled := by decide +kernel

theorem test_witness_flags : Word.trunc E.flagW 0xF#32 = 0xF#32 := by decide +kernel

theorem test_witness_accesses :
    (∃ t, regWrite E .flags 5#32 { clean with flags := 7#32 } = .done () t) ∧
      ∃ v t, regRead E .pop { clean with respFifo := [1#32] } = .done v t := ⟨⟨_, rfl⟩, ⟨_, _, rfl⟩⟩

/-- The counts at their limits. -/
theorem test_witness_counts : ({ clean with cmdFifo := [1#32, 2#32, 3#32, 4#32] } : State).cmdFifo.length ≤ Config.cmdDepth ∧
    ({ clean with respFifo := [1#32, 2#32, 3#32, 4#32] } : State).respFifo.length ≤ E.respDepth := by decide

/-- A full FIFO, one with a place left, a count write that is not zero. -/
theorem test_witness_refused_accesses :
    ({ clean with cmdFifo := [1#32, 2#32, 3#32, 4#32] } : State).cmdFifo.length = 4 ∧
      ({ clean with cmdFifo := [1#32, 2#32, 3#32] } : State).cmdFifo.length < 4 ∧ (1#32 : Word) ≠ 0#32 := by decide

/-- A narrow access at a register's address, and a whole word where no register stands. -/
theorem test_witness_addresses : (2 : Nat) ≠ 4 ∧ E.addr .ctrl = 0 ∧ ∀ r, E.addr r ≠ 32 :=
  ⟨by decide, rfl, fun r => by cases r <;> decide⟩

/-- Two variables written. -/
theorem test_witness_vars : readVar (vars [(1, 1#32), (2, 0#32)] clean) 1 = some 1#32 ∧
    readVar (vars [(1, 1#32), (2, 0#32)] clean) 2 = some 0#32 := by decide +kernel

/-- The three quiet queues of QEN: an empty FIFO, INV written, the disabled mode written. -/
theorem test_witness_quiet_enable : clean.busy = none ∧ clean.cmdFifo = [] ∧ invSet M (ctrlDisInv M) = true ∧
    (ctrlOfWord M (ctrlDis M)).mode = .disabled := by
  refine ⟨rfl, rfl, invSet_ctrlDisInv Config.params_lawful, ?_⟩
  rw [ctrlOfWord_ctrlDis Config.params_lawful]

theorem test_witness_idempotent_enable : invSet M (ctrlBringup M) = false ∧
    ∃ t, exec (.qen 1 2) (vars [(1, ctrlBringup M), (2, 0#32)] clean) = .next t ∧
      readVar (vars [(1, ctrlBringup M), (2, 0#32)] clean) 1 = some (ctrlBringup M) :=
  ⟨invSet_ctrlBringup Config.params_lawful, _, rfl, rfl⟩

theorem test_witness_disable_idle : clean.op = none ∧ clean.busy = none := ⟨rfl, rfl⟩

/-- The four steps of `disable` from its poll, in the clean state. -/
theorem disable_rest (s : State) (hs : s = clean ∨ ∃ p, s = { clean with op := some p }) :
    ∃ t', runBlock M true ((disableActs M).drop 2) .start s = .done .start t' ∧ t'.pc = 0 := by
  have hb : s.busy = none ∧ s.cmdFifo = [] ∧ s.oracle.sched = .eager ∧ s.pc = 0 := by
    rcases hs with rfl | ⟨p, rfl⟩ <;> exact ⟨rfl, rfl, rfl, rfl⟩
  obtain ⟨hb, hc, he, hp⟩ := hb
  have hP := Config.params_lawful
  obtain ⟨o, ho, -, e⟩ := runAct_holdIdle_pass hP .start hb
  let X : Word → Ctrl → State := fun f c => { s with oracle := o, flags := f, ctrl := c, cmdFifo := [] }
  have q : ∀ f c, interleave M (X f c) = X f c := fun f c =>
    interleave_eager_still (ho.trans he) (engineStep_quiescent hb (.inr rfl))
  have h0 : ({ s with oracle := o } : State) = X s.flags s.ctrl := by simp only [X, ← hc]
  refine ⟨X 0#32 ⟨.disabled, 0#32⟩, ?_, hp⟩
  simp only [disableActs, List.drop]
  rw [runBlock_cons_ok (t' := .start) (s' := X s.flags s.ctrl) (by rw [← h0]; exact e)]
  rw [runBlock_cons_ok (t' := .start) (s' := X s.flags ⟨.disabled, 0#32⟩) (by
    rw [q]; simp only [Bool.false_eq_true, runAct, regWrite, onWrite, ctrlOfWord_ctrlDisInv hP, X, ite_self])]
  rw [runBlock_cons_ok (t' := .start) (s' := X 0#32 ⟨.disabled, 0#32⟩) (by
    rw [q]; simp only [Bool.false_eq_true, if_false, runAct, regWrite, onWrite, clearFlags_all, X])]
  rw [runBlock_cons_ok (t' := .start) (s' := X 0#32 ⟨.disabled, 0#32⟩) (by
    rw [q]; simp only [Bool.false_eq_true, if_false, runAct, regWrite, onWrite, if_true, X])]
  rfl

/-- A `disable` that held completes. -/
theorem test_witness_disable_held :
    let s : State := { clean with op := some ⟨[(disableActs M).drop 2], .ok, .start⟩ }
    (s.ctrl = ⟨.disabled, 0#32⟩ ∧ s.notify = 0#32 ∧
      ∃ temps, s.op = some ⟨[(disableActs M).drop 2], .ok, temps⟩) ∧
      ∃ t, exec .qdis s = .next t ∧ t.pc = s.pc + 1 := by
  obtain ⟨t', h, hp⟩ := disable_rest { clean with op := some ⟨[(disableActs M).drop 2], .ok, .start⟩ } (.inr ⟨_, rfl⟩)
  refine ⟨⟨rfl, rfl, .start, rfl⟩, t'.complete, ?_, by simp [hp, clean]⟩
  simp only [exec, execQdis, disableOp, perform, runBlocks, h, finish, if_true]

/-- A `disable` from its start completes. -/
theorem test_witness_disable_fresh : clean.op = none ∧ ∃ t, exec .qdis clean = .next t ∧ t.pc = clean.pc + 1 := by
  have hP := Config.params_lawful
  obtain ⟨t', h, hp⟩ := disable_rest clean (.inl rfl)
  have q : interleave M clean = clean := interleave_eager_still rfl (engineStep_quiescent rfl (.inl rfl))
  refine ⟨rfl, t'.complete, ?_, by simp [hp, clean]⟩
  have e : runBlock M true (disableActs M) .start clean = runBlock M false ((disableActs M).drop 2) .start clean := by
    simp only [disableActs, List.drop]
    rw [runBlock_cons_ok (t' := .start) (s' := clean) (by
      simp only [if_true, runAct, regWrite, onWrite, ctrlOfWord_ctrlDis hP, invSet_ctrlDis hP]; rfl)]
    rw [runBlock_cons_ok (t' := .start) (s' := clean) (by
      rw [q]; simp only [Bool.false_eq_true, if_false, runAct, regWrite, onWrite]; rfl)]
  have e2 : runBlock M false ((disableActs M).drop 2) .start clean = .done .start t' := by
    rw [← h]
    simp only [disableActs, List.drop, runBlock, q, Bool.false_eq_true, if_false, if_true]
  simp only [exec, execQdis, disableOp, perform, clean, runOperation, runBlocks]
  change Host.Outcome.next (match runBlock M true (disableActs M) .start clean with
    | .done t' s' => finish .ok s'
    | .raised e t' s' => finish (firstError .ok e) s'
    | .held rest t' s' => { s' with op := some ⟨rest :: [], .ok, t'⟩ }
    | .over s' => s') = _
  rw [e, e2]
  rfl

theorem test_witness_stuck : stuck.op = none ∧ stuck.busy = some (M.encSample25 .A) ∧ engineStep M stuck = none := by
  refine ⟨rfl, rfl, ?_⟩
  simp [engineStep, stuck, Config.params_lawful.decode_encSample25, engineDone, mayRespond]

/-- A `disable` that held after two failed polls, its command stuck. -/
theorem test_witness_stuck_held :
    ({ stuck with op := some ⟨[(disableActs M).drop 2], .ok, { Temps.start with polls := 2 }⟩ } : State).op =
        some ⟨[(disableActs M).drop 2], .ok, { Temps.start with polls := 2 }⟩ ∧ stuck.busy = some (M.encSample25 .A) :=
  ⟨rfl, rfl⟩

theorem test_witness_disabled_post : DisabledPost clean ∧ clean.op = none := ⟨⟨rfl, rfl, rfl, rfl, rfl, rfl⟩, rfl⟩

/-- Room for one more, at the start and where the push has held. -/
theorem test_witness_push :
    let s := vars [(1, 9#32)] { clean with cmdFifo := [1#32, 2#32, 3#32] }
    (s.op = none ∧ readVar s 1 = some 9#32) ∧ s.cmdFifo.length < 4 ∧ s.busy = none ∧ s.ctrl.mode = .disabled ∧
      ∃ temps, ({ s with op := some ⟨[pushActs (.word 9#32)], .ok, .start⟩ } : State).op =
        some ⟨[pushActs (.word 9#32)], .ok, temps⟩ :=
  ⟨by decide +kernel, by decide +kernel, by decide +kernel, by decide +kernel, .start, rfl⟩

theorem test_witness_push_full :
    let s := vars [(1, 9#32)] { clean with cmdFifo := [1#32, 2#32, 3#32, 4#32] }
    s.op = none ∧ pushStart M s (.qpush 1) = some [.holdPush (.word 9#32), .push (.word 9#32)] ∧
      s.cmdFifo.length = 4 := ⟨rfl, rfl, by decide⟩

/-- The other operations that start with a push; CALIB held at its last correction write after two failed polls. -/
theorem test_witness_push_full_sequences :
    let s := vars [(1, 9#32)] { clean with cmdFifo := [1#32, 2#32, 3#32, 4#32] }
    (∃ src acts, pushStart M s .pwron = some (.holdPush src :: acts)) ∧
      (∃ src acts, pushStart M s .pwroff = some (.holdPush src :: acts)) ∧
      (∃ src acts, pushStart M s (.calib .B) = some (.holdPush src :: acts)) ∧
      (∃ src acts, pushStart M s (.regwr .A 0 1) = some (.holdPush src :: acts)) ∧
      (Instr.calib .B).mnemonic ∈ [.QPUSH, .REGWR, .PWRON, .PWROFF, .CALIB] ∧
      ({ s with op := some ⟨[pushActs (.offsetWrite .B .alt2)], .ok, { Temps.start with polls := 2 }⟩ } : State).op =
        some ⟨[[.holdPush (.offsetWrite .B .alt2), .push (.offsetWrite .B .alt2)]], .ok, { Temps.start with polls := 2 }⟩ := by
  refine ⟨⟨_, _, rfl⟩, ⟨_, _, rfl⟩, ⟨_, _, rfl⟩, ⟨.word (M.encWrite .A 0 9#32), [.push (.word (M.encWrite .A 0 9#32))], ?_⟩, by decide, rfl⟩
  have h : regInSet M 0 = true := decide_eq_true (Nat.two_pow_pos _)
  simp only [pushStart, h, if_true]
  rfl

/-- The three waits that a fair engine ends. -/
theorem test_witness_fair_waits :
    (let s := { on clean with cmdFifo := [1#32, 2#32, 3#32, 4#32], program := [0x30400000#32]
                              op := some ⟨[pushActs (.word 9#32)], .ok, .start⟩ }
     s.refused = false ∧ s.err = .ok ∧ s.program[s.pc]? = some 0x30400000#32 ∧ decode 0x30400000#32 = .ok (.qpush 1) ∧
       s.cmdFifo.length = 4 ∧ s.busy = none ∧ s.ctrl.mode ≠ .disabled) ∧
    (decode 0x20000000#32 = .ok .qdis ∧ clean.ctrl.mode = .disabled ∧
      M.decodeCmd (M.encWrite .A (M.reg .cr) 0#32) ≠ .unknown ∧
      ∃ u, engineStep M { clean with busy := some (M.encWrite .A (M.reg .cr) 0#32), program := [0x20000000#32]
                                     op := some ⟨[(disableActs M).drop 2], .ok, .start⟩ } = some u) ∧
    (let s := { clean with busy := some (M.encSample25 .A), conv := convWrite M .A (M.reg .cr) M.enBit []
                           program := [0x40000001#32], op := some ⟨[waitActs M (1#16).toNat], .ok, .start⟩ }
     decode 0x40000001#32 = .ok (.qwait 1) ∧ (1#16).toNat = s.respFifo.length + 1 ∧
       producesResponse M (M.encSample25 .A) = true ∧ ∃ u, engineStep M s = some u) := by
  have hP := Config.params_lawful
  refine ⟨⟨rfl, rfl, rfl, by decide +kernel, rfl, rfl, by decide⟩, ⟨by decide +kernel, rfl, ?_,
    engine_write_completes _ rfl⟩, by decide +kernel, rfl, ?_, ?_⟩
  · simp [hP.decode_encWrite _ _ _ (hP.reg_in_set _)]
  · simp [producesResponse, hP.decode_encSample25]
  · have h0 : 0 < M.respDepth := Nat.lt_of_lt_of_le (by decide) hP.respDepth_ge
    simp [engineStep, hP.decode_encSample25, engineDone, mayRespond, sampleAllowed, unitEnabled, clean, h0,
      OneBit_ne_zero hP.en_oneBit]

/-- Exactly as many responses as awaited (two, and none), one too few, and a wait that has held. -/
theorem test_witness_wait :
    let s := { clean with respFifo := [1#32, 2#32] }
    s.op = none ∧ (2#16).toNat ≤ s.respFifo.length ∧ s.respFifo.length ≤ M.respDepth ∧ (0#16).toNat ≤ clean.respFifo.length ∧
      s.respFifo.length < (3#16).toNat ∧ (3#16).toNat = 3 ∧ (Instr.calib .A).mnemonic ∈ [.QWAIT, .CALIB] ∧ ∃ temps, ({ s with op := some ⟨[waitActs M (2#16).toNat], .ok, .start⟩ } : State).op =
        some ⟨[waitActs M (2#16).toNat], .ok, temps⟩ :=
  ⟨rfl, by decide, Config.params_lawful.respDepth_ge, by decide, by decide, rfl, by decide, .start, rfl⟩

theorem test_witness_pop : ({ clean with respFifo := [1#32, 2#32] } : State).respFifo = 1#32 :: [2#32] ∧
    clean.respFifo = [] := by decide

/-- Unwritten variables, and a register index every choice of REG_W admits. -/
theorem test_witness_unwritten : readVar clean 0 = none ∧ readVar clean 7 = none ∧ clean.op = none ∧
    (0 : RegIndex).toNat < 2 ^ M.regW := ⟨by decide +kernel, by decide +kernel, rfl, Nat.two_pow_pos _⟩

theorem test_witness_no_variable : (∃ t, exec .pwron clean = .next t) ∧ Instr.pwron.mnemonic ≠ .QPOP ∧
    Instr.pwron.mnemonic ≠ .CALC ∧ Instr.pwron.mnemonic ≠ .LI := ⟨⟨_, rfl⟩, by decide, by decide, by decide⟩

theorem test_witness_disabled_queue : (∃ t, exec .pwron clean = .next t) ∧ clean.op = none ∧ clean.busy = none ∧
    clean.ctrl.mode = .disabled ∧ Instr.pwron.mnemonic ≠ .QEN ∧ Instr.pwron.mnemonic ≠ .BRINGUP ∧
    Instr.pwron.mnemonic ≠ .CALIB := ⟨⟨_, rfl⟩, rfl, rfl, rfl, by decide, by decide, by decide⟩

/-- A pair that is not degenerate by one, an equal pair, a falling pair; the upper halves do not count. -/
theorem test_witness_calc :
    let s := vars [(1, 0xFFFF1000#32), (2, 0xABCD1001#32), (3, 0x00001000#32)] clean
    readVar s 1 = some 0xFFFF1000#32 ∧ readVar s 2 = some 0xABCD1001#32 ∧ readVar s 3 = some 0x00001000#32 ∧
      (0xFFFF1000#32).toNat % 65536 < (0xABCD1001#32).toNat % 65536 ∧
      (0x00001000#32).toNat % 65536 ≤ (0xFFFF1000#32).toNat % 65536 ∧
      (0xFFFF1000#32).toNat % 65536 ≤ (0xABCD1001#32).toNat % 65536 := by decide +kernel

/-- The smallest and the largest difference; differences of 2^0 and 2^15. -/
theorem test_witness_gain : (0#16).toNat < (65535#16).toNat ∧ (65534#16).toNat < (65535#16).toNat ∧
    (8192#16).toNat - (8191#16).toNat = 2 ^ 0 ∧ (32768#16).toNat - (0#16).toNat = 2 ^ 15 := by decide +kernel

theorem test_witness_regwr :
    let s := vars [(5, 9#32)] { clean with cmdFifo := [1#32, 2#32, 3#32] }
    s.op = none ∧ (0 : RegIndex).toNat < 2 ^ M.regW ∧ readVar s 5 = some 9#32 ∧ s.cmdFifo.length < 4 :=
  ⟨by decide +kernel, Nat.two_pow_pos _, by decide +kernel, by decide +kernel⟩

/-- REGWR that has held, with room. -/
theorem test_witness_regwr_held :
    let s := { clean with cmdFifo := [1#32, 2#32, 3#32], op := some ⟨[pushActs (.word (M.encWrite .A 0 9#32))], .ok, .start⟩ }
    (∃ temps, s.op = some ⟨[pushActs (.word (M.encWrite .A 0 9#32))], .ok, temps⟩) ∧ s.cmdFifo.length < 4 :=
  ⟨⟨.start, rfl⟩, by decide⟩

theorem test_witness_regwr_refused : clean.op = none ∧ 2 ^ E.regW ≤ (64 : RegIndex).toNat := by decide +kernel

/-- Room for both, room for one, and the second push held. -/
theorem test_witness_power_pushes : ({ clean with cmdFifo := [1#32, 2#32] } : State).op = none ∧
    ({ clean with cmdFifo := [1#32, 2#32] } : State).cmdFifo.length ≤ 2 ∧
    ({ clean with cmdFifo := [1#32, 2#32, 3#32] } : State).cmdFifo.length < 4 ∧
    ({ clean with op := some ⟨[pushActs (.word (M.encWrite .B (M.reg .cr) M.prescale))], .ok, .start⟩ } : State).op =
      some ⟨[pushActs (.word (M.encWrite .B (M.reg .cr) M.prescale))], .ok, .start⟩ := ⟨rfl, by decide, by decide, rfl⟩

/-- A queue ready to calibrate unit `u`, with the two answers lined up. -/
def ready (u : ConvUnit) (e25 e75 : Word) : State :=
  answers [e25, e75] (on { clean with conv := convWrite M u (M.reg .cr) M.enBit [] })

theorem ready_hypotheses (u : ConvUnit) (a b : Word) : (ready u a b).op = none ∧ (ready u a b).ctrl.mode ≠ .disabled ∧
    (ready u a b).busy = none ∧ (ready u a b).cmdFifo = [] ∧ (ready u a b).respFifo = [] ∧
    unitEnabled M u (ready u a b).conv = true ∧ (ready u a b).oracle.sched = .eager ∧
    (ready u a b).oracle.responses = a :: b :: [] := by
  refine ⟨rfl, by simp [ready, answers, on], rfl, rfl, rfl, ?_, rfl, rfl⟩
  simp [unitEnabled, ready, answers, on, OneBit_ne_zero Config.params_lawful.en_oneBit]

/-- CALIB: a pair apart by one, an equal pair, a falling pair. -/
theorem test_witness_calib : (ready .A 0x1000#32 0x1001#32).op = none ∧
    unitEnabled M .A (ready .A 0x1000#32 0x1001#32).conv = true ∧ (codeOf 0x1000#32).toNat < (codeOf 0x1001#32).toNat ∧
    unitEnabled M .B (ready .B 0xC00#32 0xC00#32).conv = true ∧ (codeOf 0xC00#32).toNat ≤ (codeOf 0xC00#32).toNat ∧
    unitEnabled M .B (ready .B 0xC00#32 0x400#32).conv = true ∧ (codeOf 0x400#32).toNat ≤ (codeOf 0xC00#32).toNat :=
  ⟨rfl, (ready_hypotheses .A _ _).2.2.2.2.2.1, by decide +kernel, (ready_hypotheses .B _ _).2.2.2.2.2.1, by decide +kernel,
    (ready_hypotheses .B _ _).2.2.2.2.2.1, by decide +kernel⟩

/-- BRINGUP: the clean entry state, four answers lined up; the first pair degenerate. -/
theorem test_witness_bringup :
    let s := answers [0x1000#32, 0x3000#32, 0x1004#32, 0x300C#32] (controls 0#32 clean)
    Clean M s ∧ s.op = none ∧ s.err = .ok ∧ s.oracle.sched = .eager ∧
      s.oracle.responses = 0x1000#32 :: 0x3000#32 :: 0x1004#32 :: 0x300C#32 :: [] ∧
      (codeOf 0x1000#32).toNat < (codeOf 0x3000#32).toNat ∧ (codeOf 0x1004#32).toNat < (codeOf 0x300C#32).toNat ∧
      (answers [0x800#32, 0x800#32] (controls 0#32 clean)).oracle.responses = 0x800#32 :: 0x800#32 :: [] ∧
      (codeOf 0x800#32).toNat ≤ (codeOf 0x800#32).toNat := by
  refine ⟨⟨rfl, rfl, rfl, rfl, rfl, rfl, ?_, ?_, rfl, rfl⟩, rfl, rfl, rfl, rfl, by decide +kernel, by decide +kernel, rfl,
    by decide +kernel⟩
  · simp [unitEnabled, answers, controls, convRead_convWrite_other]
  · simp [unitEnabled, answers, controls]

/-- BRINGUP: an end by completion and an end by an error, in the step it starts. -/
theorem test_witness_bringup_ends : Inv E clean ∧ clean.op = none ∧
    (let t := bringupOp E (answers [0x1000#32, 0x3000#32, 0x1004#32, 0x300C#32] clean); t.op = none ∧ t.pc = clean.pc + 1) ∧
    (let t := bringupOp E (answers [0x800#32, 0x800#32] clean); t.op = none ∧ t.pc = clean.pc) := by
  refine ⟨⟨by decide, by decide, by decide, by decide +kernel, convWf_reset E, fun p k h => by simp [clean] at h⟩, rfl,
    by decide +kernel, by decide +kernel⟩

/-- BRINGUP held at each of its three places: at its first push, at `disableBoth`'s first push, at `disable`'s poll. -/
theorem test_witness_bringup_held :
    (let s := { on clean with cmdFifo := [1#32, 2#32, 3#32, 4#32]
                              op := some ⟨[(bringupTryActs E).drop 2, disableBothActs E, disableActs E], .ok, .start⟩ }
     Inv E s ∧ BringupHeld E s) ∧
    (let s := { on clean with cmdFifo := [1#32, 2#32, 3#32, 4#32]
                              op := some ⟨[disableBothActs E, disableActs E], .degenerate 1 1, .start⟩ }
     Inv E s ∧ BringupHeld E s) ∧
    (let s := { clean with busy := some 1#32, op := some ⟨[(disableActs E).drop 2], .ok, .start⟩ }
     Inv E s ∧ BringupHeld E s) := by
  have hi : ∀ s : State, s.cmdFifo.length ≤ 4 → s.respFifo = [] → s.flags = 0#32 →
      ctrlOfWord E (ctrlWord E s.ctrl) = s.ctrl → s.conv = [] → Inv E s := fun s h1 h2 h3 h4 h5 =>
    ⟨h1, by simp [h2], by simp [h3, Word.trunc], h4, by rw [h5]; exact convWf_reset E, fun p k _ h => by cases h⟩
  refine ⟨⟨hi _ (by decide) rfl rfl (by decide +kernel) rfl, .inl
    ⟨.holdPush (.word (E.encWrite .A (E.reg .cr) (E.prescale ||| E.enBit))), (bringupTryActs E).drop 3, _, ?_,
      List.drop_suffix 2 (bringupTryActs E), rfl⟩⟩,
    ⟨hi _ (by decide) rfl rfl (by decide +kernel) rfl, .inr (.inl ⟨_, _, _, _, ?_, List.suffix_rfl, rfl⟩)⟩,
    ⟨hi _ (by decide) rfl rfl (by decide +kernel) rfl, .inr (.inr ⟨rfl, rfl, _, _, rfl⟩)⟩⟩ <;> rfl

end Sys2Proof.Tests
end

section
/-! PROOF. What an operation leaves in `op`, one inversion lemma for `step`, and the statements about the step: a held
operation goes on, an error stops the caller, every step keeps the invariants. -/

namespace Sys2Proof.Machine

open Sys2Proof.Safety

variable {P : Params}

/-! ### The step and the held operation -/

theorem engineOnly_next {s t : State} (h : engineOnly P s = .next t) : engineStep P s = some t := by
  unfold engineOnly at h
  split at h
  next e => cases h; exact e
  next => cases h

/-- Everything a machine step that gives a next state can be (R12, R21, R86, R258). -/
theorem step_cases {s t : State} (h : step s = .next t) :
    s.refused = false ∧
      (((s.err ≠ .ok ∨ s.program[s.pc]? = none) ∧ engineStep Config.params s = some t) ∨
      (∃ w r, s.err = .ok ∧ s.program[s.pc]? = some w ∧ decode w = .error r ∧ t = s.markRefused) ∨
      (∃ w i, s.err = .ok ∧ s.program[s.pc]? = some w ∧ decode w = .ok i ∧
        exec i (interleave Config.params s) = .next t)) := by
  unfold step at h
  split at h
  next => cases h
  next hr =>
    refine ⟨eq_false_of_ne_true hr, ?_⟩
    split at h
    next he => exact .inl ⟨.inl he, engineOnly_next h⟩
    next he =>
      have he := not_not.1 he
      split at h
      next hp => exact .inl ⟨.inr hp, engineOnly_next h⟩
      next w hp =>
        split at h
        next r hd => cases h; exact .inr (.inl ⟨w, r, he, hp, hd, rfl⟩)
        next i hd => exact .inr (.inr ⟨w, i, he, hp, hd, h⟩)

/-- An operation in progress goes on where it stands (R100). -/
theorem perform_of_held (start : State → State) {s : State} {p : Progress} (h : s.op = some p) :
    perform P start s = runBlocks P true p.blocks p.first p.temps s := by
  simp only [perform, h]

/-- Where none is in progress, the operation starts (R100). -/
theorem perform_of_none (start : State → State) {s : State} (h : s.op = none) : perform P start s = start s := by
  simp only [perform, h]

/-- The eight operations that can hold go on from where they hold (R100). -/
theorem exec_of_held {i : Instr} {s : State} {p : Progress} (hp : s.op = some p)
    (hi : i.mnemonic ∈ [.QDIS, .QPUSH, .QWAIT, .REGWR, .PWRON, .PWROFF, .CALIB, .BRINGUP]) :
    exec i s = .next (runBlocks Config.params true p.blocks p.first p.temps s) := by
  cases i
  case qen | qpop | calcGain | li => simp [Instr.mnemonic] at hi
  all_goals exact congrArg Host.Outcome.next (perform_of_held _ hp)

/-- Settles O6: by the definition of `step`, each of its tests decided by a hypothesis. -/
theorem stepRunsTheDecodedInstruction : Obligations.StepRunsTheDecodedInstruction := by
  intro s w i hr he hp hd
  simp [step, hr, he, hp, hd]

/-- Settles O7: each of the eight goes through `perform`, which runs what remains of a held operation. -/
theorem heldOperationGoesOn : Obligations.HeldOperationGoesOn :=
  fun _ _ _ hp hi => exec_of_held hp hi

/-- Settles O10: of the things a step can be, only an engine step begins where an error was raised. -/
theorem errorStopsTheCaller : Obligations.ErrorStopsTheCaller := by
  intro s t he h
  obtain ⟨-, ⟨-, e⟩ | ⟨_, _, ok, -⟩ | ⟨_, _, ok, -⟩⟩ := step_cases h
  · exact ⟨e, engineStep_frame e⟩
  · exact absurd ok he
  · exact absurd ok he

/-! ### The invariants but for the poll bound -/

/-- The invariants of a state but for the one about the operation in progress (R28, R31, R32, R47). -/
def QueueInv (P : Params) (s : State) : Prop :=
  s.cmdFifo.length ≤ Config.cmdDepth ∧ s.respFifo.length ≤ P.respDepth ∧ Word.trunc P.flagW s.flags = s.flags ∧
    ctrlOfWord P (ctrlWord P s.ctrl) = s.ctrl ∧ convWf P s.conv

/-- An engine step keeps them: a TAKE shortens the command FIFO, a write is a payload for a register of the set, a
response needs room (R140 to R142). -/
theorem engineStep_queueInv (hP : P.Lawful) {s t : State} (e : engineStep P s = some t) (h : QueueInv P s) :
    QueueInv P t := by
  have ⟨hcmd, hresp, _, hctrl, hconv⟩ := h
  rcases engineStep_cases e with ⟨w, rest, f, o, -, -, hw, rfl⟩ | ⟨w, u, r, v, f, o, -, hw, rfl⟩ |
    ⟨w, u, e, f, o, -, -, hroom, -, -, rfl⟩ | ⟨w, -, -, rfl⟩
  · simp only [hw, List.length_cons] at hcmd
    exact ⟨Nat.le_of_succ_le hcmd, hresp, Word.trunc_trunc _ _, hctrl, hconv⟩
  · obtain ⟨hreg, hpay⟩ := hP.decode_write_fits w u r v hw
    exact ⟨hcmd, hresp, Word.trunc_trunc _ _, hctrl, convWf_convWrite P u r v hconv hreg hpay⟩
  · exact ⟨hcmd, by simpa using hroom, Word.trunc_trunc _ _, hctrl, hconv⟩
  · exact h

/-- A caller step keeps them: a push needs room, a CTRL or flags write stores within the fields (R25, R28, R29). -/
theorem actEffect_queueInv {s t : State} (e : ActEffect P s t) (h : QueueInv P s) : QueueInv P t := by
  have ⟨hcmd, hresp, hflags, hctrl, hconv⟩ := h
  cases e with
  | ctrl v =>
    refine ⟨?_, hresp, hflags, ctrlOfWord_ctrlWord P v, hconv⟩
    dsimp only
    split
    · exact Nat.zero_le _
    · exact hcmd
  | flags v => exact ⟨hcmd, hresp, Word.trunc_trunc _ _, hctrl, hconv⟩
  | push v hroom => exact ⟨by simpa using hroom, hresp, hflags, hctrl, hconv⟩
  | txcnt => exact ⟨Nat.zero_le _, hresp, hflags, hctrl, hconv⟩
  | pop e rest hp =>
    simp only [hp, List.length_cons] at hresp
    exact ⟨hcmd, Nat.le_of_succ_le hresp, hflags, hctrl, hconv⟩
  | none | status | notify | underflow | refused => exact h

theorem interleave_queueInv (hP : P.Lawful) (s : State) (h : QueueInv P s) : QueueInv P (interleave P s) :=
  interleave_induct (R := fun s t => QueueInv P s → QueueInv P t) (fun _ => id) (fun _ _ _ h k => k ∘ h)
    (fun _ _ => id) (fun _ _ => engineStep_queueInv hP) s h

theorem carries_queueInv (hP : P.Lawful) : Carries P fun s t => QueueInv P s → QueueInv P t where
  refl _ := id
  trans _ _ _ h k := k ∘ h
  engine := interleave_queueInv hP
  act _ _ := actEffect_queueInv
  held _ _ := id
  complete _ := id
  raise _ _ := id

theorem exec_queueInv {i : Instr} {s t : State} (e : exec i s = .next t) (h : QueueInv Config.params s) :
    QueueInv Config.params t :=
  exec_carries (carries_queueInv Config.params_lawful) (fun _ _ _ => id) (fun _ => id) e h

/-! ### The poll bound -/

/-- Fewer polls have failed than the bound, if polls are bounded (R16). -/
def Temps.Bounded (P : Params) (t : Temps) : Prop := ∀ k, P.pollBound = some k → t.polls < k

/-- An operation that holds is short of its poll bound (R16). -/
def PollsBounded (P : Params) (s : State) : Prop := ∀ p, s.op = some p → p.temps.Bounded P

/-- The state a block leaves is so; where it holds, the count it puts down is within the bound. -/
def BlockEnd.PollsBounded (P : Params) : BlockEnd → Prop
  | .done _ s => Machine.PollsBounded P s
  | .held _ t _ => t.Bounded P
  | .raised _ _ s => Machine.PollsBounded P s
  | .over s => Machine.PollsBounded P s

theorem inv_iff (P : Params) (s : State) : Inv P s ↔ QueueInv P s ∧ PollsBounded P s :=
  ⟨fun ⟨hcmd, hresp, hflags, hctrl, hconv, hp⟩ => ⟨⟨hcmd, hresp, hflags, hctrl, hconv⟩, fun p ho k => hp p k ho⟩,
    fun ⟨⟨hcmd, hresp, hflags, hctrl, hconv⟩, hp⟩ => ⟨hcmd, hresp, hflags, hctrl, hconv, fun p k ho => hp p ho k⟩⟩

theorem PollsBounded.of_none {s : State} (h : s.op = none) : PollsBounded P s := by
  intro p hp
  rw [h] at hp
  cases hp

theorem PollsBounded.of_op_eq {s t : State} (h : PollsBounded P s) (e : t.op = s.op) : PollsBounded P t :=
  fun p hp => h p (e ▸ hp)

/-- A caller step leaves the operation in progress as it was, or ends it. -/
theorem actEffect_pollsBounded {s t : State} (h : PollsBounded P s) (e : ActEffect P s t) : PollsBounded P t := by
  cases e
  case underflow => exact .of_none rfl
  all_goals exact h.of_op_eq rfl

/-- A failed poll that does not raise has not reached the bound (R16). -/
theorem pollFailed_hold_bounded {e : Nat → Err} {t t' : Temps} {s s' : State} (h : pollFailed P e t s = .hold t' s') :
    t'.Bounded P := by
  intro k hk
  rcases pollFailed_cases P e t s with ⟨hb, -⟩ | ⟨j, hb, hlt, eq⟩ | ⟨j, -, -, eq⟩
  · rw [hb] at hk
    cases hk
  · rw [hb] at hk
    rw [eq] at h
    cases hk
    cases h
    exact hlt
  · rw [eq] at h
    cases h

/-- Only a failed poll makes a caller step hold (R16). -/
theorem runAct_hold {a : CallerAct} {t t' : Temps} {s s' : State} (h : runAct P a t s = .hold t' s') :
    ∃ e u, pollFailed P e t u = .hold t' s' := by
  have write (x : Access Unit) : onWrite x t ≠ .hold t' s' := by cases x <;> nofun
  cases a with
  | write | push => exact absurd h (write _)
  | holdIdle | holdPush | holdResponses =>
    simp only [runAct, regRead, onRead] at h
    split at h
    · cases h
    · exact ⟨_, _, h⟩
  | pop25 | pop75 =>
    cases hr : s.respFifo <;> simp [runAct, regRead, onRead, hr] at h
  | compute =>
    simp only [runAct] at h
    split at h <;> cases h

theorem runBlock_pollsBounded (fresh : Bool) (acts : List CallerAct) (t : Temps) {s : State} (h : PollsBounded P s) :
    (runBlock P fresh acts t s).PollsBounded P := by
  induction acts generalizing fresh t s with
  | nil => exact h
  | cons a rest ih =>
    have found : PollsBounded P (if fresh then s else interleave P s) := by
      split
      · exact h
      · exact h.of_op_eq (interleave_frame P s).op
    have left := actEffect_pollsBounded found (runAct_effect (P := P) a t _)
    unfold runBlock
    split <;> rename_i e
    · rw [e] at left
      exact ih false _ left
    · obtain ⟨_, _, hf⟩ := runAct_hold e
      exact pollFailed_hold_bounded hf
    · rw [e] at left
      exact left
    · rw [e] at left
      exact left

theorem runBlocks_pollsBounded (fresh : Bool) (blocks : List (List CallerAct)) (first : Err) (t : Temps) {s : State}
    (h : PollsBounded P s) : PollsBounded P (runBlocks P fresh blocks first t s) := by
  induction blocks generalizing fresh first t s with
  | nil =>
    unfold runBlocks finish
    split <;> exact .of_none rfl
  | cons b bs ih =>
    have left := runBlock_pollsBounded fresh b t h
    unfold runBlocks
    split <;> rename_i e <;> rw [e] at left
    · exact ih _ _ _ left
    · exact ih _ _ _ left
    · rintro p ⟨⟩
      exact left
    · exact left

theorem withVar_pollsBounded (s : State) (i : HostVar) {k : Word → State} (h : ∀ v, PollsBounded P (k v)) :
    PollsBounded P (withVar s i k) := by
  unfold withVar
  split
  · exact h _
  · exact .of_none rfl

theorem runOperation_pollsBounded (blocks : List (List CallerAct)) {s : State} (h : PollsBounded P s) :
    PollsBounded P (runOperation P blocks s) :=
  runBlocks_pollsBounded true blocks .ok .start h

theorem perform_pollsBounded {start : State → State} {s : State} (h : PollsBounded P s)
    (hs : PollsBounded P (start s)) : PollsBounded P (perform P start s) := by
  unfold perform
  split
  · exact runBlocks_pollsBounded _ _ _ _ h
  · exact hs

theorem exec_pollsBounded {i : Instr} {s t : State} (e : exec i s = .next t) (h : PollsBounded Config.params s) :
    PollsBounded Config.params t := by
  cases i <;> cases e
  case qen => exact withVar_pollsBounded _ _ fun _ => withVar_pollsBounded _ _ fun _ => runOperation_pollsBounded _ h
  case qpush => exact perform_pollsBounded h (withVar_pollsBounded _ _ fun _ => runOperation_pollsBounded _ h)
  case regwr =>
    refine perform_pollsBounded h ?_
    split
    · exact withVar_pollsBounded _ _ fun _ => runOperation_pollsBounded _ h
    · exact h.of_op_eq rfl
  case qpop =>
    cases hr : s.respFifo <;> simp only [popOp, regRead, hr] <;> exact .of_none rfl
  case calcGain =>
    refine withVar_pollsBounded _ _ fun _ => withVar_pollsBounded _ _ fun _ => ?_
    dsimp only
    split <;> exact .of_none rfl
  case li => exact .of_none rfl
  case qdis | qwait | pwron | pwroff | calib | bringup =>
    exact perform_pollsBounded h (runOperation_pollsBounded _ h)

/-! ### Every step -/

theorem engineStep_inv (hP : P.Lawful) {s t : State} (e : engineStep P s = some t) (h : Inv P s) : Inv P t := by
  obtain ⟨hq, hp⟩ := (inv_iff P s).1 h
  exact (inv_iff P t).2 ⟨engineStep_queueInv hP e hq, hp.of_op_eq (engineStep_frame e).op⟩

theorem interleave_inv (hP : P.Lawful) {s : State} (h : Inv P s) : Inv P (interleave P s) := by
  obtain ⟨hq, hp⟩ := (inv_iff P s).1 h
  exact (inv_iff P _).2 ⟨interleave_queueInv hP s hq, hp.of_op_eq (interleave_frame P s).op⟩

theorem exec_inv {i : Instr} {s t : State} (e : exec i s = .next t) (h : Inv Config.params s) :
    Inv Config.params t := by
  obtain ⟨hq, hp⟩ := (inv_iff _ s).1 h
  exact (inv_iff _ t).2 ⟨exec_queueInv e hq, exec_pollsBounded e hp⟩

/-- Settles O13: a step is an engine step, a refusal, or the engine's turn and then an instruction, and each of the three
keeps the invariants. -/
theorem stepKeepsTheInvariants : Obligations.StepKeepsTheInvariants := by
  intro s t h e
  obtain ⟨-, ⟨-, e⟩ | ⟨_, _, -, -, -, rfl⟩ | ⟨_, i, -, -, -, e⟩⟩ := step_cases e
  · exact engineStep_inv Config.params_lawful e h
  · have ⟨hcmd, hresp, hflags, hctrl, hconv, hp⟩ := h
    exact ⟨hcmd, hresp, hflags, hctrl, hconv, hp⟩
  · exact exec_inv e (interleave_inv Config.params_lawful h)

end Sys2Proof.Machine
end

section
/-! PROOF. The polls that fail: a push on four outstanding commands, a wait for responses that are missing, a `disable`
whose command in progress cannot complete. -/

namespace Sys2Proof.Machine

open Sys2Proof.Safety

variable {P : Params}

/-! ### Operations that stand at a poll -/

/-- The operations with one block of caller steps, where they start (R111, R190, R192, R194, R196). -/
theorem exec_of_pushStart {i : Instr} {s : State} {acts : List CallerAct} (hs : s.op = none)
    (h : pushStart Config.params s i = some acts) :
    exec i s = .next (runBlocks Config.params true [acts] .ok .start s) := by
  have operand {j : HostVar} {f : Word → List CallerAct} (h : (readVar s j).map f = some acts) :
      withVar s j (fun w => runOperation Config.params [f w] s) = runBlocks Config.params true [acts] .ok .start s := by
    obtain ⟨w, hw, rfl⟩ := Option.map_eq_some_iff.1 h
    simp only [withVar, hw, runOperation]
  cases i <;> simp only [pushStart, reduceCtorEq, Option.some.injEq, Option.ite_none_right_eq_some] at h
  case qpush => exact congrArg Host.Outcome.next ((perform_of_none _ hs).trans (operand h))
  case regwr =>
    refine congrArg Host.Outcome.next ((perform_of_none _ hs).trans ?_)
    rw [if_pos h.1]
    exact operand h.2
  case pwron | pwroff | calib =>
    subst h
    exact congrArg Host.Outcome.next (perform_of_none _ hs)

theorem exec_qwait_start {s : State} (imm : BitVec 16) (hs : s.op = none) :
    exec (.qwait imm) s = .next (runBlocks Config.params true [waitActs Config.params imm.toNat] .ok .start s) := by
  have h : (immWord imm).toNat = imm.toNat := by simp [immWord]; omega
  simp only [exec, execQwait, waitOp, perform_of_none _ hs, runOperation, h]

theorem exec_qdis_start {s : State} (hs : s.op = none) :
    exec .qdis s = .next (runBlocks Config.params true [disableActs Config.params] .ok .start s) := by
  simp only [exec, execQdis, disableOp, perform_of_none _ hs, runOperation]

/-- The poll a machine step begins with, where it fails: no engine step falls between (R16, R220). -/
theorem runBlocks_first_pollFailed {a : CallerAct} {acts : List CallerAct} {t : Temps} {s s' : State}
    {raised : Nat → Err} (h : runAct P a t s = pollFailed P raised t s') (hr : ∀ k, raised k ≠ .ok) :
    runBlocks P true [a :: acts] .ok t s = afterFailedPoll P (a :: acts) t raised s' :=
  runBlocks_pollFailed hr h

/-- Settles O40: at the operation's start or where it holds, its first step is the poll, which four commands fail. -/
theorem pushHoldsWhenFourAreOutstanding : Obligations.PushHoldsWhenFourAreOutstanding := by
  intro s i src acts temps hfull h
  have hrun : exec i s = .next (runBlocks Config.params true [.holdPush src :: acts] .ok temps s) := by
    rcases h with ⟨hs, rfl, h⟩ | ⟨hi, hs⟩
    · exact exec_of_pushStart hs h
    · exact exec_of_held hs ((by decide : (_ : List Mnemonic) ⊆ _) hi)
  rw [hrun, runBlocks_first_pollFailed (runAct_holdPush_fail Config.params_lawful src temps hfull) fun _ h => by cases h]

/-- Settles O42: at the operation's start or where it holds, its first step is the poll, which too few responses fail. -/
theorem waitHoldsWhileResponsesAreMissing : Obligations.WaitHoldsWhileResponsesAreMissing := by
  intro s i n acts temps hfew hdepth h
  have hrun : exec i s = .next (runBlocks Config.params true [.holdResponses n :: acts] .ok temps s) := by
    rcases h with ⟨hs, rfl, hacts, imm, rfl, rfl⟩ | ⟨hi, hs⟩
    · rw [hacts, exec_qwait_start imm hs]
    · exact exec_of_held hs ((by decide : (_ : List Mnemonic) ⊆ _) hi)
  rw [hrun, runBlocks_first_pollFailed (runAct_holdResponses_fail Config.params_lawful n temps hdepth hfew)
    fun _ h => by cases h]

/-! ### A command in progress that cannot complete -/

/-- The command in progress cannot complete: no engine step is enabled, or it is unknown and a step of the engine's only
records its fault (R145, R154, R265). -/
def Stuck (P : Params) (w : Word) (s : State) : Prop :=
  s.busy = some w ∧ (engineStep P s = none ∨ P.decodeCmd w = .unknown)

/-- What the engine's turns may do meanwhile: record an unknown command's fault and use up answers, nothing else. -/
def FaultOnly (P : Params) (w : Word) (s t : State) : Prop :=
  ∃ o faults, (faults = s.faults ∨
      (P.decodeCmd w = .unknown ∧ faults = { s.faults with unmodelledCommand := true })) ∧
    t = { s with faults := faults, oracle := o }

/-- With a command in progress, whether the engine can step is up to the command, the room and the converter units. -/
theorem engineStep_none_congr {s t : State} {w : Word} (hw : s.busy = some w) (busy : t.busy = s.busy)
    (resp : t.respFifo = s.respFifo) (conv : t.conv = s.conv) (h : engineStep P s = none) : engineStep P t = none := by
  simp only [engineStep, busy, hw] at h ⊢
  cases hk : P.decodeCmd w <;> simp_all [engineDone, mayRespond, sampleAllowed]

theorem Stuck.congr {s t : State} {w : Word} (h : Stuck P w s) (busy : t.busy = s.busy)
    (resp : t.respFifo = s.respFifo) (conv : t.conv = s.conv) : Stuck P w t :=
  ⟨busy.trans h.1, h.2.imp_left (engineStep_none_congr h.1 busy resp conv)⟩

theorem FaultOnly.trans {a b c : State} {w : Word} (h : FaultOnly P w a b) (k : FaultOnly P w b c) :
    FaultOnly P w a c := by
  obtain ⟨_, f, hf, rfl⟩ := h
  obtain ⟨o, g, hg, rfl⟩ := k
  refine ⟨o, g, ?_, rfl⟩
  rcases hg with rfl | ⟨hu, rfl⟩
  · exact hf
  · refine .inr ⟨hu, ?_⟩
    rcases hf with rfl | ⟨-, rfl⟩ <;> rfl

theorem engineRun_unknown {s : State} {w : Word} (hw : s.busy = some w) (hu : P.decodeCmd w = .unknown) (n : Nat) :
    FaultOnly P w s (engineRun P n s) := by
  induction n generalizing s with
  | zero => exact ⟨_, _, .inl rfl, rfl⟩
  | succ n ih =>
    have h1 : engineStep P s = some (s.recordFault .unmodelledCommand) := by
      simp only [engineStep, hw, hu, engineDone]
    have h2 : FaultOnly P w s (s.recordFault .unmodelledCommand) := ⟨_, _, .inr ⟨hu, rfl⟩, rfl⟩
    simp only [engineRun, h1]
    exact h2.trans (ih hw)

theorem interleave_stuck {s : State} {w : Word} (h : Stuck P w s) : FaultOnly P w s (interleave P s) := by
  obtain ⟨hw, hn | hu⟩ := h
  · obtain ⟨o, e⟩ := interleave_of_none hn
    exact ⟨o, _, .inl rfl, e⟩
  · obtain ⟨n, o, e⟩ := interleave_eq_run P s
    have h1 : FaultOnly P w s { s with oracle := o } := ⟨o, _, .inl rfl, rfl⟩
    rw [e]
    exact h1.trans (engineRun_unknown (s := { s with oracle := o }) hw hu n)

/-- With a stuck command, the engine's turns before and after a NOTIFY write record its fault at most (R105). -/
theorem interleave_notify_stuck {s : State} {w : Word} (h : Stuck P w s) (v : Word) :
    FaultOnly P w { s with notify := v } (interleave P { interleave P s with notify := v }) := by
  obtain ⟨o, f, hf, e⟩ := interleave_stuck h
  have h1 : FaultOnly P w { s with notify := v } { interleave P s with notify := v } := ⟨o, f, hf, by rw [e]⟩
  refine h1.trans (interleave_stuck (h.congr ?_ ?_ ?_)) <;> simp only [e]

/-- `disable` up to its poll: CTRL and NOTIFY are written, with a turn of the engine between (R103 steps 1 and 2). -/
theorem runBlock_disable_writes (hP : P.Lawful) (t : Temps) (s : State) :
    runBlock P true (disableActs P) t s =
      runBlock P false ((disableActs P).drop 2) t
        { interleave P { s with ctrl := ⟨.disabled, 0#32⟩ } with notify := 0#32 } := by
  rw [disableActs, runBlock_cons_ok (t' := t) (s' := { s with ctrl := ⟨.disabled, 0#32⟩ }),
    runBlock_cons_ok (t' := t) (s' := { interleave P { s with ctrl := ⟨.disabled, 0#32⟩ } with notify := 0#32 })]
  · rfl
  · rfl
  · simp [runAct, regWrite, onWrite, hP, invSet_ctrlDis]

theorem runBlocks_cons_congr {fresh fresh' : Bool} {b b' : List CallerAct} (bs : List (List CallerAct)) (first : Err)
    {t t' : Temps} {s s' : State} (h : runBlock P fresh b t s = runBlock P fresh' b' t' s') :
    runBlocks P fresh (b :: bs) first t s = runBlocks P fresh' (b' :: bs) first t' s' := by
  simp only [runBlocks, h]

/-- Settles O38: neither the two writes nor a turn of the engine sets the stuck command free, so the poll fails. -/
theorem disableHoldsWhileTheCommandIsStuck : Obligations.DisableHoldsWhileTheCommandIsStuck := by
  have hP := Config.params_lawful
  refine ⟨fun s w hs hw hstuck => ?_, fun s w temps hs hw => ?_⟩
  · have hst : Stuck Config.params w { s with ctrl := ⟨.disabled, 0#32⟩ } :=
      Stuck.congr ⟨hw, hstuck⟩ rfl rfl rfl
    obtain ⟨_, f, hf, e⟩ := interleave_notify_stuck hst 0#32
    obtain ⟨o, -, -, hpoll⟩ := runAct_holdIdle_fail hP .start ((congrArg State.busy e).trans hw)
    refine ⟨o, f, hf, ?_⟩
    rw [exec_qdis_start hs, runBlocks_cons_congr [] .ok (runBlock_disable_writes hP .start s),
      show (disableActs Config.params).drop 2 = .holdIdle :: (disableActs Config.params).drop 3 from rfl,
      runBlocks_pollFailed (fun _ h => by cases h) hpoll, e]
  · obtain ⟨o, -, -, hpoll⟩ := runAct_holdIdle_fail hP temps hw
    refine ⟨o, ?_⟩
    rw [exec_of_held hs (by decide)]
    exact congrArg Host.Outcome.next (runBlocks_first_pollFailed hpoll fun _ h => by cases h)

end Sys2Proof.Machine
end

section
/-! PROOF. The controller's registers as the caller reads and writes them (R24 to R34, R64): what a CTRL write reads back,
write-one-to-clear, what the status and the counts report, and what no register access reaches. -/

namespace Sys2Proof.Machine

open Sys2Proof.Safety

variable {P : Params}

/-! ### The fields of a word -/

/-- What a CTRL write stores reads back as the word written, the strobe 0 (R24): the MODE field and the other bits make
up every bit but INV, since the two fields have no bit in common. -/
theorem ctrlWord_ctrlOfWord (hP : P.Lawful) (v : Word) : ctrlWord P (ctrlOfWord P v) = v &&& ~~~P.invMask := by
  simp only [ctrlWord, ctrlOfWord, modeBits_modeOfBits]
  apply BitVec.eq_of_getLsbD_eq
  intro i hi
  have disjoint := congrArg (BitVec.getLsbD · i) hP.mode_inv_disjoint
  by_cases hm : P.modeMask.getLsbD i <;> by_cases hn : P.invMask.getLsbD i <;> simp_all

/-- Where the flags are within their width, the bits above it clear nothing (R28). -/
theorem clearFlags_of_width {flags : Word} (h : Word.trunc P.flagW flags = flags) (v : Word) :
    clearFlags P flags v = flags &&& ~~~Word.trunc P.flagW v := by
  apply BitVec.eq_of_getLsbD_eq
  intro i hi
  have width : (flags.getLsbD i && (Word.lowMask P.flagW).getLsbD i) = flags.getLsbD i := by
    rw [← BitVec.getLsbD_and]
    exact congrArg (BitVec.getLsbD · i) h
  simp only [clearFlags, Word.trunc, BitVec.getLsbD_and, BitVec.getLsbD_not]
  cases hm : (Word.lowMask P.flagW).getLsbD i <;> simp_all

/-- Write-one-to-clear sets no flag (R28, R36). -/
theorem clearFlags_sets_none (P : Params) (flags v : Word) : clearFlags P flags v &&& ~~~flags = 0#32 := by
  apply BitVec.eq_of_getLsbD_eq
  intro i hi
  by_cases hf : flags.getLsbD i <;> simp [clearFlags, Word.trunc, hf]

/-- IDLE reads 1 exactly when nothing is in progress; the draw does not reach it (R27). -/
theorem statusWord_and_idleMask (P : Params) (draw : Word) (busy : Option Word) :
    statusWord P draw busy &&& P.idleMask = if busy = none then P.idleMask else 0#32 := by
  apply BitVec.eq_of_getLsbD_eq
  intro i hi
  by_cases hn : P.idleMask.getLsbD i <;> cases busy <;> simp [statusWord, hn]

/-- A count below `2^COUNT_W` is the whole word of its register (R23). -/
theorem countWord_toNat (hP : P.Lawful) {n : Nat} (h : n < 2 ^ P.countW) : (countWord P n).toNat = n := by
  have hw : 2 ^ P.countW ≤ 2 ^ 32 := Nat.pow_le_pow_right (by decide) hP.countW_le
  rw [countWord, BitVec.toNat_ofNat, Nat.mod_eq_of_lt h, Nat.mod_eq_of_lt (h.trans_le hw)]

/-! ### The registers -/

/-- Settles O27: the word stored reads back as the word written with INV 0, and INV alone decides on the FIFO. -/
theorem controlReadsBackWithoutTheStrobe : Obligations.ControlReadsBackWithoutTheStrobe := by
  intro P hP s v
  refine ⟨_, rfl, ?_, ?_⟩
  · simp only [regRead, ctrlWord_ctrlOfWord hP]
  · by_cases h : v &&& P.invMask = 0#32 <;> simp [invSet, h]

/-- Settles O28: the flags are within their width, so the bits of the word above it clear nothing. -/
theorem flagsAreWriteOneToClear : Obligations.FlagsAreWriteOneToClear := by
  intro P _ s h
  refine ⟨fun v => ?_, ?_, rfl⟩
  · simp only [regWrite, clearFlags_of_width h]
  · simp only [regWrite, clearFlags_all]

/-- Settles O29: the draw of a status read does not reach IDLE, and both depths are below `2^COUNT_W`. -/
theorem readsReportNotifyIdleAndCounts : Obligations.ReadsReportNotifyIdleAndCounts := by
  intro P hP s
  refine ⟨rfl, fun _ => rfl, ?_, fun h => ?_, fun h => ?_⟩
  · refine ⟨_, (drawStatusBits s).2.oracle, ?_, statusWord_and_idleMask P (drawStatusBits s).1 s.busy⟩
    simp only [regRead, drawStatusBits]
    split <;> rfl
  · exact ⟨_, rfl, countWord_toNat hP (h.trans_lt hP.countW_cmdDepth)⟩
  · exact ⟨_, rfl, countWord_toNat hP (h.trans_lt hP.countW_respDepth)⟩

theorem regWrite_done_frame {r : Reg} {v : Word} {s t : State} (h : regWrite P r v s = .done () t) :
    t.flags &&& ~~~s.flags = 0#32 ∧ t.conv = s.conv ∧ t.busy = s.busy ∧ t.respFifo = s.respFifo := by
  rcases regWrite_cases P r v s with ⟨-, e⟩ | ⟨-, e⟩ | ⟨-, e⟩ | ⟨-, -, e⟩ | ⟨-, -, e⟩ | e <;> rw [e] at h <;> cases h
  case inr.inr.inl => exact ⟨clearFlags_sets_none P s.flags v, rfl, rfl, rfl⟩
  all_goals exact ⟨BitVec.and_not_self .., rfl, rfl, rfl⟩

theorem regRead_done_frame {r : Reg} {v : Word} {s t : State} (h : regRead P r s = .done v t) :
    t.flags = s.flags ∧ t.conv = s.conv ∧ t.busy = s.busy ∧ t.cmdFifo = s.cmdFifo := by
  rcases regRead_cases P r s with ⟨_, e⟩ | ⟨-, _, e⟩ | ⟨-, e⟩ | ⟨-, -, e⟩ | ⟨-, _, _, -, e⟩ <;> rw [e] at h <;> cases h
  all_goals exact ⟨rfl, rfl, rfl, rfl⟩

/-- Settles O30: by what a completed write and a completed read can leave behind. -/
theorem callerAccessesSetNoFlagAndReachNoConverter : Obligations.CallerAccessesSetNoFlagAndReachNoConverter :=
  fun _ _ => ⟨fun _ _ _ _ => regWrite_done_frame, fun _ _ _ _ => regRead_done_frame⟩

theorem regWrite_push_full {s : State} (h : s.cmdFifo.length = 4) (v : Word) :
    regWrite P .push v s = .refused s.markRefused := by
  simp [regWrite, Config.cmdDepth, h]

theorem regWrite_push_room {s : State} (h : s.cmdFifo.length < 4) (v : Word) :
    regWrite P .push v s = .done () { s with cmdFifo := s.cmdFifo ++ [v] } := by
  simp [regWrite, Config.cmdDepth, h]

theorem regWrite_txcnt_nonzero {v : Word} (h : v ≠ 0#32) (s : State) :
    regWrite P .txcnt v s = .refused s.markRefused := by
  simp [regWrite, h]

/-- Settles O31: four of the accesses are refused whatever the state; a push is by the room, a count write by its word. -/
theorem accessesNoOperationMakesAreRefused : Obligations.AccessesNoOperationMakesAreRefused :=
  fun _ _ s v => ⟨rfl, rfl, rfl, rfl, (regWrite_push_full · v), (regWrite_push_room · v),
    (regWrite_txcnt_nonzero · s), rfl⟩

end Sys2Proof.Machine
end

section
/-! PROOF. The engine and the register writes it completes (R38, R140, R141): one write at the head, and the two power
writes. -/

namespace Sys2Proof.Machine

variable {P : Params}

/-- An enabled engine with nothing in progress takes the head command (R140). -/
theorem engineStep_take {s : State} {w : Word} {rest : List Word} (hb : s.busy = none) (hm : s.ctrl.mode ≠ .disabled)
    (hc : s.cmdFifo = w :: rest) :
    ∃ f o, engineStep P s = some { s with busy := some w, cmdFifo := rest, flags := f, oracle := o } := by
  obtain ⟨f, o, drawn⟩ := setDrawnFlags_spec P { s with busy := some w, cmdFifo := rest }
  exact ⟨orFlags P s.flags f, o, by simp only [engineStep, hb, hm, if_false, hc, engineTake, drawn]⟩

/-- The engine completes the register write in progress, whatever the mode (R141). -/
theorem engineStep_write {s : State} {w : Word} {u : ConvUnit} {r : RegIndex} {v : Word} (hw : s.busy = some w)
    (hk : P.decodeCmd w = .write u r v) :
    ∃ f o, engineStep P s =
      some { s with busy := none, conv := convWrite P u r v s.conv, flags := f, oracle := o } := by
  obtain ⟨f, o, drawn⟩ := setDrawnFlags_spec P { s with busy := none, conv := convWrite P u r v s.conv }
  exact ⟨orFlags P s.flags f, o, by simp only [engineStep, hw, hk, engineDone, engineRetire, drawn]⟩

/-- An enabled engine with nothing in progress takes and completes the register write at the head: two of its steps. -/
theorem engineRun_write_head (hP : P.Lawful) (n : Nat) {s : State} (hb : s.busy = none) (hm : s.ctrl.mode ≠ .disabled)
    {u : ConvUnit} {r : RegIndex} {v : Word} (hr : r.toNat < 2 ^ P.regW) {rest : List Word}
    (hc : s.cmdFifo = P.encWrite u r v :: rest) :
    ∃ f o, engineRun P (n + 2) s =
      engineRun P n { s with cmdFifo := rest, conv := convWrite P u r (Word.trunc P.payloadW v) s.conv, flags := f,
                             oracle := o } := by
  obtain ⟨f, o, taken⟩ := engineStep_take (P := P) hb hm hc
  obtain ⟨g, p, written⟩ := engineStep_write (s := { s with
    busy := some (P.encWrite u r v), cmdFifo := rest, flags := f, oracle := o }) rfl (hP.decode_encWrite u r v hr)
  exact ⟨g, p, by simp only [engineRun, taken, written, hb]⟩

/-- Two register writes queued, one to each unit's control register, leave each unit's control register with its
payload. -/
theorem engineRun_write_both (hP : P.Lawful) {s : State} (hb : s.busy = none) (hm : s.ctrl.mode ≠ .disabled) {v : Word}
    (hv : Word.trunc P.payloadW v = v)
    (hc : s.cmdFifo = [P.encWrite .A (P.reg .cr) v, P.encWrite .B (P.reg .cr) v]) (u : ConvUnit) :
    convRead P u (P.reg .cr) (engineRun P 4 s).conv = v := by
  obtain ⟨f, o, first⟩ := engineRun_write_head hP 2 hb hm (hP.reg_in_set .cr) hc
  obtain ⟨g, p, second⟩ := engineRun_write_head hP 0 (s := { s with
    cmdFifo := [P.encWrite .B (P.reg .cr) v], conv := convWrite P .A (P.reg .cr) (Word.trunc P.payloadW v) s.conv,
    flags := f, oracle := o }) hb hm (hP.reg_in_set .cr) rfl
  rw [first, second, engineRun, hv]
  cases u with
  | A => rw [convRead_convWrite_other _ _ _ _ _ _ _ (by simp), convRead_convWrite_same]
  | B => rw [convRead_convWrite_same]

theorem trunc_or (n : Nat) (v w : Word) : Word.trunc n (v ||| w) = Word.trunc n v ||| Word.trunc n w := by
  simp only [Word.trunc, BitVec.and_or_distrib_right]

/-- Settles O26: each unit's control register holds the word written, whose enable bit is the enable bit PWRON adds to the
prescale value, which has none. -/
theorem powerWritesSwitchBothUnits : Obligations.PowerWritesSwitchBothUnits := by
  intro P hP s hb hm
  refine ⟨fun hc u => ?_, fun hc u => ?_⟩
  · have hfits : Word.trunc P.payloadW (P.prescale ||| P.enBit) = P.prescale ||| P.enBit := by
      rw [trunc_or, hP.prescale_fits, hP.enBit_fits]
    simp [unitEnabled, engineRun_write_both hP hb hm hfits hc, BitVec.and_or_distrib_right, hP.prescale_en_disjoint,
      OneBit_ne_zero hP.en_oneBit]
  · simp [unitEnabled, engineRun_write_both hP hb hm hP.prescale_fits hc, hP.prescale_en_disjoint]

end Sys2Proof.Machine
end

section
/-! PROOF. What an instruction can end as, said once, and what follows of every instruction: the marks are kept, `pc` moves
by at most one, the host variables and the program stay, a disabled queue stays asleep; and QEN's exact effect. -/

namespace Sys2Proof.Machine

open Sys2Proof.Safety

variable {P : Params}

/-! ### How an instruction ends -/

/-- The blocks of caller steps each operation starts with (R101 to R115, R190 to R203), for some operand values. -/
inductive StartsWith (P : Params) : Instr → List (List CallerAct) → Prop where
  | qen (rs1 rs2 : HostVar) (c n : Word) : StartsWith P (.qen rs1 rs2) [enableActs c n]
  | qdis : StartsWith P .qdis [disableActs P]
  | qpush (rs1 : HostVar) (w : Word) : StartsWith P (.qpush rs1) [pushActs (.word w)]
  | qwait (imm : BitVec 16) : StartsWith P (.qwait imm) [waitActs P (immWord imm).toNat]
  | regwr (u : ConvUnit) (reg : RegIndex) (rs1 : HostVar) (v : Word) :
    StartsWith P (.regwr u reg rs1) [pushActs (.word (P.encWrite u reg v))]
  | pwron : StartsWith P .pwron [enableBothActs P]
  | pwroff : StartsWith P .pwroff [disableBothActs P]
  | calib (u : ConvUnit) : StartsWith P (.calib u) [calibrateActs P u]
  | bringup : StartsWith P .bringup (bringupBlocks P)

/-- Everything an instruction can do to the state: run its blocks from the start or from where it holds, end at once, or
write a host variable. -/
inductive ExecEffect (i : Instr) (s : State) : State → Prop where
  | started {blocks : List (List CallerAct)} (h : StartsWith Config.params i blocks) :
    ExecEffect i s (runOperation Config.params blocks s)
  | resumed {p : Progress} (h : s.op = some p) :
    i.mnemonic ∉ [.QPOP, .CALC, .LI] → ExecEffect i s (runBlocks Config.params true p.blocks p.first p.temps s)
  | unwritten : ExecEffect i s (s.faultOut .unwrittenHostVar)
  | refused : ExecEffect i s s.markRefused
  | popped {rd : HostVar} (hi : i = .qpop rd) {e : Word} {rest : List Word} (h : s.respFifo = e :: rest) :
    ExecEffect i s (writeVar { s with respFifo := rest } rd e).complete
  | underflow (h : s.respFifo = []) : ExecEffect i s (s.faultOut .respUnderflow)
  | degenerate (res25 res75 : BitVec 16) : ExecEffect i s (s.raiseError (.degenerate res25 res75))
  | calculated {rd rd2 rs1 rs2 : HostVar} (hi : i = .calcGain rd rd2 rs1 rs2) (gain offset : Word) :
    ExecEffect i s (writeVar (writeVar s rd gain) rd2 offset).complete
  | loaded {rd : HostVar} {imm : BitVec 16} (hi : i = .li rd imm) :
    ExecEffect i s (writeVar s rd (immWord imm)).complete

theorem withVar_effect {i : Instr} {s : State} (j : HostVar) {k : Word → State} (h : ∀ v, ExecEffect i s (k v)) :
    ExecEffect i s (withVar s j k) := by
  unfold withVar
  split
  · exact h _
  · exact .unwritten

theorem perform_effect {i : Instr} {s : State} {start : State → State} (hi : i.mnemonic ∉ [.QPOP, .CALC, .LI])
    (h : ExecEffect i s (start s)) : ExecEffect i s (perform Config.params start s) := by
  unfold perform
  split
  next hp => exact .resumed hp hi
  next => exact h

theorem exec_effect {i : Instr} {s t : State} (e : exec i s = .next t) : ExecEffect i s t := by
  cases i <;> cases e
  case qen => exact withVar_effect _ fun c => withVar_effect _ fun n => .started (.qen _ _ c n)
  case qpush => exact perform_effect (by simp [Instr.mnemonic]) (withVar_effect _ fun w => .started (.qpush _ w))
  case qpop =>
    unfold popOp
    cases hr : s.respFifo with
    | nil => simp only [regRead, hr]; exact .underflow hr
    | cons e rest => simp only [regRead, hr]; exact .popped rfl hr
  case calcGain =>
    refine withVar_effect _ fun e25 => withVar_effect _ fun e75 => ?_
    dsimp only
    split
    · exact .degenerate _ _
    · exact .calculated rfl _ _
  case regwr =>
    refine perform_effect (by simp [Instr.mnemonic]) ?_
    split
    · exact withVar_effect _ fun v => .started (.regwr _ _ _ v)
    · exact .refused
  case li => exact .loaded rfl
  case qdis => exact perform_effect (by decide) (.started .qdis)
  case qwait imm => exact perform_effect (by simp [Instr.mnemonic]) (.started (.qwait imm))
  case pwron => exact perform_effect (by decide) (.started .pwron)
  case pwroff => exact perform_effect (by decide) (.started .pwroff)
  case calib u => exact perform_effect (by simp [Instr.mnemonic]) (.started (.calib u))
  case bringup => exact perform_effect (by decide) (.started .bringup)

/-! ### The fault set and the refusal mark -/

theorem marksKept_of_eq {s t : State} (faults : t.faults = s.faults) (refused : t.refused = s.refused) :
    MarksKept s t :=
  ⟨fun _ h => by rwa [faults], fun h => by rwa [refused]⟩

theorem MarksKept.trans {a b c : State} (h : MarksKept a b) (k : MarksKept b c) : MarksKept a c :=
  ⟨fun f hf => k.faults f (h.faults f hf), fun hr => k.refused (h.refused hr)⟩

theorem recordFault_marksKept (s : State) (f : FaultName) : MarksKept s (s.recordFault f) :=
  ⟨fun g hg => by rw [State.recordFault_has, hg, Bool.true_or], fun hr => (s.recordFault_refused f).trans hr⟩

theorem engineStep_marksKept {s t : State} (h : engineStep P s = some t) : MarksKept s t := by
  rcases engineStep_cases h with ⟨w, rest, f, o, -, -, -, rfl⟩ | ⟨w, u, r, v, f, o, -, -, rfl⟩ |
    ⟨w, u, e, f, o, -, -, -, -, -, rfl⟩ | ⟨w, -, -, rfl⟩
  case inr.inr.inr => exact recordFault_marksKept s _
  all_goals exact marksKept_of_eq rfl rfl

theorem interleave_marksKept (P : Params) (s : State) : MarksKept s (interleave P s) :=
  interleave_induct (fun _ => marksKept_of_eq rfl rfl) (fun _ _ _ => MarksKept.trans) (fun _ _ => marksKept_of_eq rfl rfl)
    (fun _ _ => engineStep_marksKept) s

theorem markRefused_marksKept (s : State) : MarksKept s s.markRefused := ⟨fun _ => id, fun _ => rfl⟩

theorem actEffect_marksKept {s t : State} (e : ActEffect P s t) : MarksKept s t := by
  cases e
  case underflow =>
    obtain ⟨hfaults, hrefused⟩ := recordFault_marksKept s .respUnderflow
    exact ⟨hfaults, hrefused⟩
  case refused => exact markRefused_marksKept s
  all_goals exact marksKept_of_eq rfl rfl

theorem carries_marksKept (P : Params) : Carries P MarksKept where
  refl _ := marksKept_of_eq rfl rfl
  trans _ _ _ := MarksKept.trans
  engine := interleave_marksKept P
  act _ _ := actEffect_marksKept
  held _ _ := marksKept_of_eq rfl rfl
  complete _ := marksKept_of_eq rfl rfl
  raise _ _ := marksKept_of_eq rfl rfl

theorem exec_marksKept {i : Instr} {s t : State} (e : exec i s = .next t) : MarksKept s t :=
  exec_carries (carries_marksKept _) (fun _ _ _ => marksKept_of_eq rfl rfl) (fun s => recordFault_marksKept s _) e

theorem step_marksKept {s t : State} (e : step s = .next t) : MarksKept s t := by
  obtain ⟨-, ⟨-, e⟩ | ⟨_, _, -, -, -, rfl⟩ | ⟨_, _, -, -, -, e⟩⟩ := step_cases e
  · exact engineStep_marksKept e
  · exact markRefused_marksKept s
  · exact MarksKept.trans (interleave_marksKept _ s) (exec_marksKept e)

/-- A final state has no fault (R258). -/
theorem not_final_of_fault {s : State} {f : FaultName} (h : s.faults.has f = true) : ¬Final P s := by
  rintro ⟨-, hf, -⟩
  rw [hf] at h
  cases f <;> cases h

/-- Settles O9: engine step, caller step and operand fault only add marks, so every instruction and every step does, and a
final state has none. -/
theorem faultsAndRefusalAreNeverCleared : Obligations.FaultsAndRefusalAreNeverCleared :=
  ⟨rfl, rfl, fun _ _ _ => exec_marksKept,
    fun _ _ e => ⟨step_marksKept e, fun f hf => not_final_of_fault ((step_marksKept e).faults f hf)⟩⟩

/-! ### The program counter -/

/-- `pc` is `n`, or the operation is over and it is one more (R21). -/
def PcMoved (n : Nat) (s : State) : Prop := s.pc = n ∨ (s.pc = n + 1 ∧ s.op = none)

/-- Only the caller step that ends its operation may have moved `pc` from `n`. -/
def ActEnd.PcFrom (n : Nat) : ActEnd → Prop
  | .ok _ s => s.pc = n
  | .hold _ s => s.pc = n
  | .raised _ s => s.pc = n
  | .over s => PcMoved n s

/-- Only a block that ends its operation may have moved `pc` from `n`. -/
def BlockEnd.PcFrom (n : Nat) : BlockEnd → Prop
  | .done _ s => s.pc = n
  | .held _ _ s => s.pc = n
  | .raised _ _ s => s.pc = n
  | .over s => PcMoved n s

theorem complete_pcMoved (s : State) : PcMoved s.pc s.complete := .inr ⟨rfl, rfl⟩

theorem ActEnd.pcFrom_of_state {n : Nat} {e : ActEnd} (h : e.state.pc = n) : e.PcFrom n :=
  match e with
  | .ok _ _ => h
  | .hold _ _ => h
  | .raised _ _ => h
  | .over _ => .inl h

/-- A poll changes nothing but the model's record of answers (R16, R64). -/
theorem runAct_poll_state {a : CallerAct} (h : isPoll a = true) (t : Temps) (s : State) :
    ∃ o, (runAct P a t s).state = { s with oracle := o } := by
  cases a with
  | holdIdle =>
    refine ⟨(drawStatusBits s).2.oracle, ?_⟩
    have hd : (drawStatusBits s).2 = { s with oracle := (drawStatusBits s).2.oracle } := by
      simp only [drawStatusBits]
      split <;> rfl
    simp only [runAct, regRead, onRead]
    split
    · exact hd
    · exact (pollFailed_state _ _ _).trans hd
  | holdPush | holdResponses =>
    refine ⟨s.oracle, ?_⟩
    simp only [runAct, regRead, onRead]
    split
    · rfl
    · exact pollFailed_state _ _ _
  | write | push | pop25 | pop75 | compute => cases h

theorem onWrite_pcFrom (r : Reg) (v : Word) (t : Temps) (s : State) :
    (onWrite (regWrite P r v s) t).PcFrom s.pc := by
  apply ActEnd.pcFrom_of_state
  rcases regWrite_cases P r v s with ⟨-, h⟩ | ⟨-, h⟩ | ⟨-, h⟩ | ⟨-, -, h⟩ | ⟨-, -, h⟩ | h <;> rw [h] <;> rfl

/-- A pop of an empty FIFO completes its operation; any other leaves `pc` (R120, R227). -/
theorem onPop_pcFrom {s : State} {k : Word → State → ActEnd} (hk : ∀ v u, (k v u).state = u) :
    (onRead (regRead P .pop s) k).PcFrom s.pc := by
  cases hr : s.respFifo with
  | nil =>
    simp only [regRead, hr, onRead]
    exact complete_pcMoved (s.recordFault .respUnderflow)
  | cons e rest =>
    simp only [regRead, hr, onRead]
    exact ActEnd.pcFrom_of_state (by rw [hk])

theorem runAct_pcFrom (a : CallerAct) (t : Temps) (s : State) : (runAct P a t s).PcFrom s.pc := by
  have poll (ha : isPoll a = true) : (runAct P a t s).PcFrom s.pc := by
    obtain ⟨o, h⟩ := runAct_poll_state (P := P) ha t s
    exact ActEnd.pcFrom_of_state (by rw [h])
  cases a with
  | write r v => exact onWrite_pcFrom r v t s
  | push src => exact onWrite_pcFrom .push _ t s
  | holdIdle | holdPush | holdResponses => exact poll rfl
  | pop25 | pop75 => exact onPop_pcFrom fun _ _ => rfl
  | compute =>
    simp only [runAct]
    split <;> rfl

theorem runBlock_pcFrom (fresh : Bool) (acts : List CallerAct) (t : Temps) (s : State) :
    (runBlock P fresh acts t s).PcFrom s.pc := by
  induction acts generalizing fresh t s with
  | nil => rfl
  | cons a rest ih =>
    have found : (if fresh then s else interleave P s).pc = s.pc := by
      split
      · rfl
      · exact (interleave_frame P s).pc
    have left := runAct_pcFrom (P := P) a t (if fresh then s else interleave P s)
    rw [found] at left
    unfold runBlock
    split <;> rename_i e <;> rw [e] at left
    · exact left ▸ ih false _ _
    · exact left
    · exact left
    · exact left

theorem runBlocks_pcMoved (fresh : Bool) (blocks : List (List CallerAct)) (first : Err) (t : Temps) (s : State) :
    PcMoved s.pc (runBlocks P fresh blocks first t s) := by
  induction blocks generalizing fresh first t s with
  | nil =>
    unfold runBlocks finish
    split
    · exact complete_pcMoved s
    · exact .inl rfl
  | cons b bs ih =>
    have left := runBlock_pcFrom (P := P) fresh b t s
    unfold runBlocks
    split <;> rename_i e <;> rw [e] at left
    · exact left ▸ ih _ _ _ _
    · exact left ▸ ih _ _ _ _
    · exact .inl left
    · exact left

theorem exec_pcMoved {i : Instr} {s t : State} (e : exec i s = .next t) : PcMoved s.pc t := by
  cases exec_effect e with
  | started | resumed => exact runBlocks_pcMoved ..
  | refused | degenerate => exact .inl rfl
  | unwritten | popped | underflow | calculated | loaded => exact complete_pcMoved _

/-- Settles O11: where `pc` has moved, the operation is over. -/
theorem operationsMovePcByAtMostOne : Obligations.OperationsMovePcByAtMostOne := by
  intro i s t e
  rcases exec_pcMoved e with h | ⟨h, hop⟩
  · exact ⟨.inl h, fun _ => h⟩
  · exact ⟨.inr h, fun hheld => absurd hop hheld⟩

/-! ### The host variables and the program -/

/-- The host variables and the program are the same. -/
def VarsKept (s t : State) : Prop := t.program = s.program ∧ t.x = s.x

theorem actEffect_varsKept {s t : State} (e : ActEffect P s t) : VarsKept s t := by
  cases e <;> exact ⟨rfl, rfl⟩

theorem carries_varsKept (P : Params) : Carries P VarsKept where
  refl _ := ⟨rfl, rfl⟩
  trans _ _ _ h k := ⟨k.1.trans h.1, k.2.trans h.2⟩
  engine s := ⟨(interleave_frame P s).program, (interleave_frame P s).x⟩
  act _ _ := actEffect_varsKept
  held _ _ := ⟨rfl, rfl⟩
  complete _ := ⟨rfl, rfl⟩
  raise _ _ := ⟨rfl, rfl⟩

/-- Settles O47: caller steps and engine write neither, so only the three operations that end in a host-variable write
do, and none of those writes the program. -/
theorem otherOperationsWriteNoHostVariable : Obligations.OtherOperationsWriteNoHostVariable := by
  intro i s t e
  cases exec_effect e with
  | started | resumed =>
    obtain ⟨hprogram, hx⟩ := runBlocks_carries (carries_varsKept Config.params) true _ _ _ s
    exact ⟨hprogram, fun _ _ _ => hx⟩
  | unwritten | refused | underflow | degenerate => exact ⟨rfl, fun _ _ _ => rfl⟩
  | popped hi => exact ⟨rfl, fun h _ _ => absurd (congrArg Instr.mnemonic hi) h⟩
  | calculated hi => exact ⟨rfl, fun _ h _ => absurd (congrArg Instr.mnemonic hi) h⟩
  | loaded hi => exact ⟨rfl, fun _ _ h => absurd (congrArg Instr.mnemonic hi) h⟩

/-! ### A disabled queue with nothing in progress -/

/-- The queue is disabled with nothing in progress, the converter registers are as in `s`, and so are the responses unless
the caller may take some (R37, R149). -/
structure Asleep (takes : Prop) (s t : State) : Prop where
  conv : t.conv = s.conv
  busy : t.busy = none
  mode : t.ctrl.mode = .disabled
  resp : ¬takes → t.respFifo = s.respFifo

/-- A caller step that does not wake the queue: a CTRL write stores the disabled mode, an entry is taken only if it may
be. -/
def CallerAct.LetsSleep (P : Params) (takes : Prop) : CallerAct → Prop
  | .write r v => r = .ctrl → (ctrlOfWord P v).mode = .disabled
  | .pop25 => takes
  | .pop75 => takes
  | .holdIdle => True
  | .holdPush _ => True
  | .holdResponses _ => True
  | .push _ => True
  | .compute => True

/-- What the converter registers, the busy slot, the mode and the responses say of a state does not depend on the rest. -/
theorem Asleep.congr {takes : Prop} {s t u : State} (h : Asleep takes s t) (conv : u.conv = t.conv)
    (busy : u.busy = t.busy) (mode : u.ctrl.mode = t.ctrl.mode) (resp : ¬takes → u.respFifo = t.respFifo) :
    Asleep takes s u :=
  ⟨conv.trans h.conv, busy.trans h.busy, mode.trans h.mode, fun n => (resp n).trans (h.resp n)⟩

/-- In a disabled queue with nothing in progress the engine only uses up answers (R149). -/
theorem interleave_asleep {takes : Prop} {s t : State} (h : Asleep takes s t) : Asleep takes s (interleave P t) := by
  obtain ⟨o, e⟩ := interleave_of_none (engineStep_quiescent (P := P) h.busy (.inl h.mode))
  rw [e]
  exact h.congr rfl rfl rfl fun _ => rfl

theorem onWrite_asleep {takes : Prop} {r : Reg} {v : Word} {s u : State} (t : Temps)
    (hctrl : r = .ctrl → (ctrlOfWord P v).mode = .disabled) (h : Asleep takes s u) :
    Asleep takes s (onWrite (regWrite P r v u) t).state := by
  rcases regWrite_cases P r v u with ⟨hr, e⟩ | ⟨-, e⟩ | ⟨-, e⟩ | ⟨-, -, e⟩ | ⟨-, -, e⟩ | e <;> rw [e]
  case inl => exact ⟨h.conv, h.busy, hctrl hr, h.resp⟩
  all_goals exact h.congr rfl rfl rfl fun _ => rfl

theorem onPop_asleep {takes : Prop} (htakes : takes) {s u : State} {k : Word → State → ActEnd}
    (hk : ∀ v u, (k v u).state = u) (h : Asleep takes s u) :
    Asleep takes s (onRead (regRead P .pop u) k).state := by
  cases hr : u.respFifo <;> simp only [regRead, hr, onRead, hk] <;>
    exact h.congr rfl rfl rfl fun n => absurd htakes n

theorem runAct_asleep {takes : Prop} {a : CallerAct} {s u : State} (t : Temps) (ha : a.LetsSleep P takes)
    (h : Asleep takes s u) : Asleep takes s (runAct P a t u).state := by
  have poll (ha : isPoll a = true) : Asleep takes s (runAct P a t u).state := by
    obtain ⟨o, e⟩ := runAct_poll_state (P := P) ha t u
    rw [e]
    exact h.congr rfl rfl rfl fun _ => rfl
  cases a with
  | write r v => exact onWrite_asleep t ha h
  | push src => exact onWrite_asleep t nofun h
  | holdIdle | holdPush | holdResponses => exact poll rfl
  | pop25 | pop75 => exact onPop_asleep ha (fun _ _ => rfl) h
  | compute =>
    simp only [runAct]
    split <;> exact h

theorem runBlock_asleep {takes : Prop} (fresh : Bool) {acts : List CallerAct} (t : Temps) {s u : State}
    (ha : ∀ a ∈ acts, a.LetsSleep P takes) (h : Asleep takes s u) :
    Asleep takes s (runBlock P fresh acts t u).state := by
  induction acts generalizing fresh t u with
  | nil => exact h
  | cons a rest ih =>
    obtain ⟨ha, hrest⟩ := List.forall_mem_cons.1 ha
    have found : Asleep takes s (if fresh then u else interleave P u) := by
      split
      · exact h
      · exact interleave_asleep h
    have left := runAct_asleep t ha found
    unfold runBlock
    split <;> rename_i e <;> rw [e] at left
    · exact ih false _ hrest left
    · exact left
    · exact left
    · exact left

theorem runBlocks_asleep {takes : Prop} (fresh : Bool) {blocks : List (List CallerAct)} (first : Err) (t : Temps)
    {s u : State} (hb : ∀ b ∈ blocks, ∀ a ∈ b, a.LetsSleep P takes) (h : Asleep takes s u) :
    Asleep takes s (runBlocks P fresh blocks first t u) := by
  induction blocks generalizing fresh first t u with
  | nil =>
    unfold runBlocks finish
    split <;> exact h.congr rfl rfl rfl fun _ => rfl
  | cons b bs ih =>
    obtain ⟨hb, hbs⟩ := List.forall_mem_cons.1 hb
    have left := runBlock_asleep fresh t hb h
    unfold runBlocks
    split <;> rename_i e <;> rw [e] at left
    · exact ih _ _ _ hbs left
    · exact ih _ _ _ hbs left
    · exact left.congr rfl rfl rfl fun _ => rfl
    · exact left

/-- The operations that take response entries, but for BRINGUP (R119, R196). -/
def TakesResponses (i : Instr) : Prop := i.mnemonic = .QPOP ∨ i.mnemonic = .CALIB

/-- Of the operations only QEN and BRINGUP have a step that wakes the queue: `disable` writes the disabled mode twice. -/
theorem startsWith_letsSleep (hP : P.Lawful) {i : Instr} {blocks : List (List CallerAct)} (h : StartsWith P i blocks)
    (hqen : i.mnemonic ≠ .QEN) (hbringup : i.mnemonic ≠ .BRINGUP) :
    ∀ b ∈ blocks, ∀ a ∈ b, a.LetsSleep P (TakesResponses i) := by
  cases h with
  | qen => exact absurd rfl hqen
  | bringup => exact absurd rfl hbringup
  | qdis => simp [disableActs, CallerAct.LetsSleep, hP, ctrlOfWord_ctrlDisInv]
  | qpush | regwr => simp [pushActs, CallerAct.LetsSleep]
  | qwait => simp [waitActs, CallerAct.LetsSleep]
  | pwron => simp [enableBothActs, writeNamed, pushActs, CallerAct.LetsSleep]
  | pwroff => simp [disableBothActs, writeNamed, pushActs, CallerAct.LetsSleep]
  | calib =>
    simp [calibrateActs, waitActs, correctionActs, pushActs, CallerAct.LetsSleep, TakesResponses, Instr.mnemonic]

theorem exec_asleep {i : Instr} {s t : State} (e : exec i s = .next t) (hop : s.op = none)
    (hqen : i.mnemonic ≠ .QEN) (hbringup : i.mnemonic ≠ .BRINGUP) (h : Asleep (TakesResponses i) s s) :
    Asleep (TakesResponses i) s t := by
  cases exec_effect e with
  | started hstart =>
    exact runBlocks_asleep true .ok .start (startsWith_letsSleep Config.params_lawful hstart hqen hbringup) h
  | resumed hp =>
    rw [hop] at hp
    cases hp
  | popped hi => exact h.congr rfl rfl rfl fun n => absurd (.inl (congrArg Instr.mnemonic hi)) n
  | unwritten | refused | underflow | degenerate | calculated | loaded => exact h.congr rfl rfl rfl fun _ => rfl

/-- Settles O48: no step of the operations named wakes the queue, and in a sleeping queue the engine has nothing to do. -/
theorem disabledQueueReachesNoConverter : Obligations.DisabledQueueReachesNoConverter := by
  intro i s t e hop hbusy hmode hqen hbringup
  obtain ⟨hconv, hidle, hdisabled, hresp⟩ := exec_asleep e hop hqen hbringup ⟨rfl, hbusy, hmode, fun _ => rfl⟩
  exact ⟨hconv, hidle, hdisabled, fun hqpop hcalib => hresp (not_or.2 ⟨hqpop, hcalib⟩)⟩

/-! ### QEN -/

/-- Settles O33: the two writes of `enable`, with the engine's turn between them, which leaves `pc` alone. -/
theorem enableWritesControlThenNotify : Obligations.EnableWritesControlThenNotify := by
  intro s rs1 rs2 c n hc hn
  have hpc := (interleave_frame Config.params { s with
    ctrl := ctrlOfWord Config.params c, cmdFifo := if invSet Config.params c then [] else s.cmdFifo }).pc
  simp only [exec, execQen, enableOp, withVar, hc, hn, runOperation, runBlocks, enableActs]
  rw [runBlock_cons_ok rfl, runBlock_cons_ok rfl]
  simp only [runBlock, finish, if_true, State.complete, Bool.false_eq_true, if_false, hpc]

end Sys2Proof.Machine
end

section
/-! PROOF. The register block as memory (R62, R65) and the order in which the engine completes commands (R68, R142). -/

namespace Sys2Proof.Machine

open Sys2Proof.Safety

variable {P : Params}

/-! ### Accesses by address -/

theorem regAt_eq_none {a : Nat} (h : ∀ r, P.addr r ≠ a) : regAt P a = none := by
  simp [regAt, h]

theorem memRead_addr (hP : P.Lawful) (r : Reg) (s : State) : memRead P (P.addr r) 4 s = regRead P r s := by
  simp only [memRead, regAt_addr hP, if_true]

theorem memWrite_addr (hP : P.Lawful) (r : Reg) (v : Word) (s : State) :
    memWrite P (P.addr r) 4 v s = regWrite P r v s := by
  simp only [memWrite, regAt_addr hP, if_true]

/-- An access that is not 4 bytes wide is refused whatever stands at the address, one elsewhere whatever its width (R62). -/
theorem memRead_refused {a n : Nat} (h : n ≠ 4 ∨ ∀ r, P.addr r ≠ a) (s : State) :
    memRead P a n s = .refused s.markRefused := by
  rcases h with width | elsewhere
  · cases found : regAt P a <;> simp only [memRead, found, if_neg width]
  · simp only [memRead, regAt_eq_none elsewhere]

theorem memWrite_refused {a n : Nat} (h : n ≠ 4 ∨ ∀ r, P.addr r ≠ a) (v : Word) (s : State) :
    memWrite P a n v s = .refused s.markRefused := by
  rcases h with width | elsewhere
  · cases found : regAt P a <;> simp only [memWrite, found, if_neg width]
  · simp only [memWrite, regAt_eq_none elsewhere]

/-- Settles O32: a register's address finds that register, and every other access meets a test that refuses it. -/
theorem onlyWholeWordsAtARegistersAddress : Obligations.OnlyWholeWordsAtARegistersAddress :=
  fun _ hP s v => ⟨fun r => ⟨hP.addr_aligned r, memRead_addr hP r s, memWrite_addr hP r v s⟩,
    fun _ _ h => ⟨memRead_refused h s, memWrite_refused h v s⟩⟩

/-! ### Push order -/

/-- From `s` to `t` the engine completes commands from the front of the line (the one in progress, then the queued ones)
and appends one response for each that gives one (R68, R142). -/
def CompletesInOrder (P : Params) (s t : State) : Prop :=
  ∃ completed responses, s.busy.toList ++ s.cmdFifo = completed ++ (t.busy.toList ++ t.cmdFifo) ∧
    t.respFifo = s.respFifo ++ responses ∧ responses.length = (completed.filter (producesResponse P)).length

theorem CompletesInOrder.refl (s : State) : CompletesInOrder P s s := ⟨[], [], rfl, by simp, rfl⟩

theorem CompletesInOrder.trans {a b c : State} (h : CompletesInOrder P a b) (k : CompletesInOrder P b c) :
    CompletesInOrder P a c := by
  obtain ⟨done₁, resp₁, line₁, fifo₁, count₁⟩ := h
  obtain ⟨done₂, resp₂, line₂, fifo₂, count₂⟩ := k
  refine ⟨done₁ ++ done₂, resp₁ ++ resp₂, ?_, ?_, ?_⟩
  · rw [line₁, line₂, List.append_assoc]
  · rw [fifo₂, fifo₁, List.append_assoc]
  · simp only [List.length_append, List.filter_append, count₁, count₂]

/-- A TAKE moves the head into progress, so the line is the same; a DONE takes the first of the line, with a response
exactly for a sample or a read; an unknown command stays (R140 to R142, R145). -/
theorem engineStep_completesInOrder {s t : State} (h : engineStep P s = some t) : CompletesInOrder P s t := by
  rcases engineStep_cases h with ⟨w, rest, f, o, idle, -, head, rfl⟩ | ⟨w, u, r, v, f, o, busy, write, rfl⟩ |
    ⟨w, u, e, f, o, busy, responds, -, -, -, rfl⟩ | ⟨w, -, -, rfl⟩
  · exact ⟨[], [], by simp [idle, head], by simp, rfl⟩
  · exact ⟨[w], [], by simp [busy], by simp, by simp [producesResponse, write]⟩
  · exact ⟨[w], [e], by simp [busy], rfl, by simp [responds]⟩
  · exact ⟨[], [], by simp, by simp, rfl⟩

/-- Settles O22: one engine step completes in order, and so does a run of them. -/
theorem commandsCompleteInPushOrder : Obligations.CommandsCompleteInPushOrder :=
  fun _ _ => engineRun_induct CompletesInOrder.refl (fun _ _ _ => CompletesInOrder.trans)
    fun _ _ => engineStep_completesInOrder

end Sys2Proof.Machine
end

section
/-! PROOF. The decoder and the encoder (R80 to R86): an instruction is its mnemonic and the word's fields; a word decodes to
a mnemonic exactly where its OP is the mnemonic's and its unused fields are zero, and that is what mask and match test. -/

namespace Sys2Proof

/-! ### The fields of a word -/

@[simp] theorem fieldRD_val (w : Word) : (fieldRD w).val = bits w 27 25 := Nat.mod_mod _ 8
@[simp] theorem fieldRS1_val (w : Word) : (fieldRS1 w).val = bits w 24 22 := Nat.mod_mod _ 8
@[simp] theorem fieldRS2_val (w : Word) : (fieldRS2 w).val = bits w 21 19 := Nat.mod_mod _ 8
@[simp] theorem fieldRD2_val (w : Word) : (fieldRD2 w).val = bits w 18 16 := Nat.mod_mod _ 8
@[simp] theorem fieldIMM16_toNat (w : Word) : (fieldIMM16 w).toNat = bits w 15 0 := Nat.mod_mod _ 65536

theorem unitAt_index_of_lt {n : Nat} (h : n < 2) : (unitAt n).index = n := by
  interval_cases n <;> rfl

@[simp] theorem fieldU_index (w : Word) : (fieldU w).index = bits w 25 25 :=
  unitAt_index_of_lt (Nat.mod_lt _ (by decide))

theorem unitAt_index (u : ConvUnit) : unitAt u.index = u := by cases u <;> rfl

/-! ### What a mnemonic reads of a word -/

/-- The fields `w[hi:lo]` of a mnemonic that are zero in its words, as the pairs `(hi, lo)` (R81, R82, R84). -/
def unusedFields : Mnemonic → List (Nat × Nat)
  | .QEN => [(27, 25), (18, 0)]
  | .QDIS => [(27, 0)]
  | .QPUSH => [(27, 25), (21, 0)]
  | .QWAIT => [(27, 16)]
  | .QPOP => [(24, 0)]
  | .CALC => [(15, 0)]
  | .REGWR => [(27, 26), (21, 16)]
  | .PWRON => [(27, 0)]
  | .PWROFF => [(27, 0)]
  | .CALIB => [(27, 26), (24, 0)]
  | .BRINGUP => [(27, 0)]
  | .LI => [(24, 16)]

/-- Are the fields the mnemonic does not use zero (R86)? -/
def unusedZero (m : Mnemonic) (w : Word) : Bool := (unusedFields m).all fun f => bits w f.1 f.2 == 0

/-- The instruction of the mnemonic whose operands are the word's fields (R84). -/
def instrAt (w : Word) : Mnemonic → Instr
  | .QEN => .qen (fieldRS1 w) (fieldRS2 w)
  | .QDIS => .qdis
  | .QPUSH => .qpush (fieldRS1 w)
  | .QWAIT => .qwait (fieldIMM16 w)
  | .QPOP => .qpop (fieldRD w)
  | .CALC => .calcGain (fieldRD w) (fieldRD2 w) (fieldRS1 w) (fieldRS2 w)
  | .REGWR => .regwr (fieldU w) (fieldIMM16 w) (fieldRS1 w)
  | .PWRON => .pwron
  | .PWROFF => .pwroff
  | .CALIB => .calib (fieldU w)
  | .BRINGUP => .bringup
  | .LI => .li (fieldRD w) (fieldIMM16 w)

@[simp] theorem mnemonic_instrAt (w : Word) (m : Mnemonic) : (instrAt w m).mnemonic = m := by cases m <;> rfl

/-- The OP of a mnemonic is assigned: not 0, and below 0xD (R84, R86). -/
theorem opOf_assigned (m : Mnemonic) : opOf m ∉ [0x0, 0xD, 0xE, 0xF] := by cases m <;> decide

/-! ### The decoder -/

theorem requireZero_eq_ok {op : Nat} {zero : Bool} {i j : Instr} :
    requireZero op zero i = .ok j ↔ zero = true ∧ j = i := by
  cases zero <;> simp [requireZero, eq_comm]

/-- A word with a mnemonic's OP is that mnemonic's, or no operation's (R84, R86). -/
theorem decode_of_op {w : Word} {m : Mnemonic} (h : bits w 31 28 = opOf m) :
    decode w = requireZero (opOf m) (unusedZero m w) (instrAt w m) := by
  cases m <;> simp only [opOf] at h <;> simp [decode, h, opOf, unusedZero, unusedFields, instrAt]

theorem unusedZero_of_decode {w : Word} {m : Mnemonic} {i : Instr} (hop : bits w 31 28 = opOf m)
    (h : decode w = .ok i) : unusedZero m w = true := by
  rw [decode_of_op hop, requireZero_eq_ok] at h
  exact h.1

/-- The OP of a word the decoder accepts is a mnemonic's (R86). -/
theorem exists_op_of_decode {w : Word} {i : Instr} (h : decode w = .ok i) : ∃ m, bits w 31 28 = opOf m := by
  unfold decode at h
  split at h
  exacts [⟨.QEN, ‹_›⟩, ⟨.QDIS, ‹_›⟩, ⟨.QPUSH, ‹_›⟩, ⟨.QWAIT, ‹_›⟩, ⟨.QPOP, ‹_›⟩, ⟨.CALC, ‹_›⟩, ⟨.REGWR, ‹_›⟩, ⟨.PWRON, ‹_›⟩,
    ⟨.PWROFF, ‹_›⟩, ⟨.CALIB, ‹_›⟩, ⟨.BRINGUP, ‹_›⟩, ⟨.LI, ‹_›⟩, nomatch h]

/-- What the decoder accepts, said once: some mnemonic's OP, its unused fields zero, and the operands the word's fields. -/
theorem decode_eq_ok_iff {w : Word} {i : Instr} :
    decode w = .ok i ↔ ∃ m, bits w 31 28 = opOf m ∧ unusedZero m w = true ∧ i = instrAt w m := by
  constructor
  · intro h
    obtain ⟨m, hop⟩ := exists_op_of_decode h
    rw [decode_of_op hop, requireZero_eq_ok] at h
    exact ⟨m, hop, h⟩
  · rintro ⟨m, hop, h⟩
    rw [decode_of_op hop, requireZero_eq_ok]
    exact h

/-! ### The encoder -/

/-- The encoder writes a mnemonic's instruction back into the word it was read from, where the unused fields are zero
(R81, R82). -/
theorem encode_instrAt {w : Word} {m : Mnemonic} (hop : bits w 31 28 = opOf m) (hz : unusedZero m w = true) :
    encode (instrAt w m) = w := by
  apply BitVec.eq_of_toNat_eq
  simp only [unusedZero, bits, List.all_eq_true, beq_iff_eq] at hop hz
  cases m
  all_goals
    simp only [unusedFields, List.forall_mem_cons, opOf] at hop hz
    simp only [instrAt, encode, wordR, wordU, BitVec.toNat_ofNat, fieldRD_val, fieldRS1_val, fieldRS2_val, fieldRD2_val,
      fieldIMM16_toNat, fieldU_index, bits]
    omega

/-- The operands of a word of format R are read back (R81). -/
theorem fields_wordR (op : Nat) (rd rs1 rs2 rd2 : HostVar) (imm : BitVec 16) :
    let w := wordR op rd rs1 rs2 rd2 imm.toNat
    fieldRD w = rd ∧ fieldRS1 w = rs1 ∧ fieldRS2 w = rs2 ∧ fieldRD2 w = rd2 ∧ fieldIMM16 w = imm := by
  simp only [Fin.ext_iff, ← BitVec.toNat_inj, fieldRD_val, fieldRS1_val, fieldRS2_val, fieldRD2_val, fieldIMM16_toNat,
    bits, wordR, BitVec.toNat_ofNat]
  omega

/-- The operands of a word of format U are read back (R82). -/
theorem fields_wordU (op : Nat) (u : ConvUnit) (rs1 : HostVar) (imm : BitVec 16) :
    let w := wordU op u.index rs1 imm.toNat
    fieldU w = u ∧ fieldRS1 w = rs1 ∧ fieldIMM16 w = imm := by
  have hu := u.index_lt
  refine ⟨(congrArg unitAt ?_).trans (unitAt_index u), ?_⟩
  · simp only [bits, wordU, BitVec.toNat_ofNat]
    omega
  · simp only [Fin.ext_iff, ← BitVec.toNat_inj, fieldRS1_val, fieldIMM16_toNat, bits, wordU, BitVec.toNat_ofNat]
    omega

/-- The operands of an instruction are the fields of its word. -/
theorem instrAt_encode (i : Instr) : instrAt (encode i) i.mnemonic = i := by
  cases i with
  | qen rs1 rs2 =>
    obtain ⟨-, h1, h2, -, -⟩ := fields_wordR 0x1 0 rs1 rs2 0 0
    exact congrArg₂ Instr.qen h1 h2
  | qpush rs1 =>
    obtain ⟨-, h1, -, -, -⟩ := fields_wordR 0x3 0 rs1 0 0 0
    exact congrArg Instr.qpush h1
  | qwait imm =>
    obtain ⟨-, -, -, -, himm⟩ := fields_wordR 0x4 0 0 0 0 imm
    exact congrArg Instr.qwait himm
  | qpop rd =>
    obtain ⟨hd, -, -, -, -⟩ := fields_wordR 0x5 rd 0 0 0 0
    exact congrArg Instr.qpop hd
  | calcGain rd rd2 rs1 rs2 =>
    obtain ⟨hd, h1, h2, hd2, -⟩ := fields_wordR 0x6 rd rs1 rs2 rd2 0
    exact congr (congr (congrArg₂ Instr.calcGain hd hd2) h1) h2
  | regwr u reg rs1 =>
    obtain ⟨hu, h1, himm⟩ := fields_wordU 0x7 u rs1 reg
    exact congr (congrArg₂ Instr.regwr hu himm) h1
  | calib u =>
    obtain ⟨hu, -, -⟩ := fields_wordU 0xA u 0 0
    exact congrArg Instr.calib hu
  | li rd imm =>
    obtain ⟨hd, -, -, -, himm⟩ := fields_wordR 0xC rd 0 0 0 imm
    exact congrArg₂ Instr.li hd himm
  | qdis | pwron | pwroff | bringup => rfl

/-- The encoder leaves the fields an instruction does not use zero. -/
theorem unusedZero_encode (i : Instr) : unusedZero i.mnemonic (encode i) = true := by
  cases i <;>
    simp only [Instr.mnemonic, unusedZero, unusedFields, List.all_cons, List.all_nil, Bool.and_true, Bool.and_eq_true,
      beq_iff_eq, encode, wordR, wordU, bits, BitVec.toNat_ofNat]
  case regwr u _ _ | calib u =>
    have := u.index_lt
    omega
  all_goals omega

/-- A word's OP is the number R84 gives its mnemonic. -/
theorem bits_op_encode (i : Instr) : bits (encode i) 31 28 = opOf i.mnemonic := by
  open Laws.OpField in
  cases i
  exacts [qen .., qdis, qpush .., qwait .., qpop .., calcGain .., regwr .., pwron, pwroff, calib .., bringup, li ..]

theorem decode_encode (i : Instr) : decode (encode i) = .ok i :=
  decode_eq_ok_iff.2 ⟨i.mnemonic, bits_op_encode i, unusedZero_encode i, (instrAt_encode i).symm⟩

/-- Settles O1: an encoded word has its mnemonic's OP, its unused fields are zero, and its operands are read back. -/
theorem decodeOfEncodeIsTheInstruction : Obligations.DecodeOfEncodeIsTheInstruction := decode_encode

/-- Settles O2: what the decoder accepts is a mnemonic with the word's fields, and those and the zero fields are all the
word's bits. -/
theorem encodeOfDecodeIsTheWord : Obligations.EncodeOfDecodeIsTheWord := by
  intro w i h
  obtain ⟨m, hop, hz, rfl⟩ := decode_eq_ok_iff.1 h
  exact encode_instrAt hop hz

/-- Settles O5: each of the words is the encoding of its instruction. -/
theorem sampleWordsDecodeAsTheSpecSays : Obligations.SampleWordsDecodeAsTheSpecSays :=
  ⟨decode_encode (.qen 1 2), decode_encode .qdis, decode_encode (.qwait 65535), decode_encode (.calcGain 7 0 5 6),
    decode_encode (.regwr .B 4 0), decode_encode (.calib .B), decode_encode .bringup, decode_encode (.li 1 1)⟩

/-! ### Mask and match -/

/-- The mask of the field `w[hi:lo]`. -/
def fieldMask (hi lo : Nat) : Word := BitVec.ofNat 32 ((2 ^ (hi + 1 - lo) - 1) * 2 ^ lo)

/-- Masking a word leaves the field's value in its place (R13). -/
theorem toNat_and_fieldMask (w : Word) {hi : Nat} (h : hi < 32) (lo : Nat) :
    (w &&& fieldMask hi lo).toNat = bits w hi lo * 2 ^ lo := by
  apply Nat.eq_of_testBit_eq
  intro i
  simp only [fieldMask, bits, BitVec.toNat_and, BitVec.toNat_ofNat, Nat.testBit_and, Nat.testBit_mod_two_pow,
    Nat.testBit_mul_two_pow, Nat.testBit_div_two_pow, Nat.testBit_two_pow_sub_one]
  by_cases hlo : lo ≤ i
  · by_cases hhi : i - lo < hi + 1 - lo
    · simp [hlo, hhi, show i < 32 by omega]
    · simp [hhi]
  · simp [hlo]

theorem and_fieldMask_eq_zero {w : Word} {hi : Nat} (h : hi < 32) (lo : Nat) :
    w &&& fieldMask hi lo = 0#32 ↔ bits w hi lo = 0 := by
  simp [← BitVec.toNat_inj, toNat_and_fieldMask w h]

theorem and_opMask_eq_matchOf {w : Word} {m : Mnemonic} :
    w &&& fieldMask 31 28 = matchOf m ↔ bits w 31 28 = opOf m := by
  have hm : (matchOf m).toNat = opOf m * 2 ^ 28 := by cases m <;> rfl
  rw [← BitVec.toNat_inj, toNat_and_fieldMask w (by decide), hm, Nat.mul_left_inj (by decide)]

/-- The mask of the fields together. -/
def fieldsMask : List (Nat × Nat) → Word
  | [] => 0#32
  | (hi, lo) :: fields => fieldMask hi lo ||| fieldsMask fields

theorem and_fieldsMask_eq_zero {w : Word} {fields : List (Nat × Nat)} (h : ∀ f ∈ fields, f.1 < 32) :
    w &&& fieldsMask fields = 0#32 ↔ (fields.all fun f => bits w f.1 f.2 == 0) = true := by
  induction fields with
  | nil => simp [fieldsMask]
  | cons f fields ih =>
    obtain ⟨hf, h⟩ := List.forall_mem_cons.1 h
    simp only [fieldsMask, BitVec.and_or_distrib_left, BitVec.or_eq_zero_iff, and_fieldMask_eq_zero hf, ih h,
      List.all_cons, Bool.and_eq_true, beq_iff_eq]

/-- The mask of R85 covers OP and the unused fields, and nothing else. -/
theorem maskOf_eq (m : Mnemonic) : maskOf m = fieldMask 31 28 ||| fieldsMask (unusedFields m) := by cases m <;> rfl

theorem matchOf_and_opMask (m : Mnemonic) : matchOf m &&& fieldMask 31 28 = matchOf m := by cases m <;> rfl

theorem matchOf_and_unusedMask (m : Mnemonic) : matchOf m &&& fieldsMask (unusedFields m) = 0#32 := by
  cases m <;> rfl

theorem bits_op_matchOf (m : Mnemonic) : bits (matchOf m) 31 28 = opOf m := by cases m <;> rfl

theorem unusedFields_lt {m : Mnemonic} {f : Nat × Nat} (h : f ∈ unusedFields m) : f.1 < 32 := by
  revert f
  cases m <;> decide

/-- A word matches under two masks joined when it matches under the one, which holds the match, and is zero under the
other, which has none of it. -/
theorem and_or_eq_iff {w a b x : Word} (ha : x &&& a = x) (hb : x &&& b = 0#32) :
    w &&& (a ||| b) = x ↔ w &&& a = x ∧ w &&& b = 0#32 := by
  constructor
  · intro h
    have left : (a ||| b) &&& a = a := by ext i; simp +contextual
    have right : (a ||| b) &&& b = b := by ext i; simp +contextual
    constructor
    · rw [← left, ← BitVec.and_assoc, h, ha]
    · rw [← right, ← BitVec.and_assoc, h, hb]
  · rintro ⟨h, h'⟩
    rw [BitVec.and_or_distrib_left, h, h', BitVec.or_zero]

/-- Mask and match test the OP and the unused fields (R85). -/
theorem mask_match_iff {w : Word} {m : Mnemonic} :
    w &&& maskOf m = matchOf m ↔ bits w 31 28 = opOf m ∧ unusedZero m w = true := by
  rw [maskOf_eq, and_or_eq_iff (matchOf_and_opMask m) (matchOf_and_unusedMask m), and_opMask_eq_matchOf,
    and_fieldsMask_eq_zero fun _ => unusedFields_lt, unusedZero]

/-- Settles O3: both sides say that the word has the mnemonic's OP and that its unused fields are zero. -/
theorem decodesExactlyByMaskAndMatch : Obligations.DecodesExactlyByMaskAndMatch := by
  intro w m
  rw [mask_match_iff]
  constructor
  · rintro ⟨i, h, rfl⟩
    obtain ⟨m, hop, hz, rfl⟩ := decode_eq_ok_iff.1 h
    rw [mnemonic_instrAt]
    exact ⟨hop, hz⟩
  · rintro ⟨hop, hz⟩
    exact ⟨instrAt w m, decode_eq_ok_iff.2 ⟨m, hop, hz, rfl⟩, mnemonic_instrAt w m⟩

/-! ### Reserved words -/

/-- The step that finds a word the decoder rejects marks the refusal and does nothing else (R86, R229). -/
theorem step_of_decode_error {s : Machine.State} {w : Word} {r : Reject} (hr : s.refused = false) (he : s.err = .ok)
    (hp : s.program[s.pc]? = some w) (hd : decode w = .error r) : Machine.step s = .next s.markRefused := by
  simp [Machine.step, hr, he, hp, hd]

/-- The decoder rejects a word that has no mnemonic's OP, or a mnemonic's without matching it (R86). -/
theorem exists_decode_error {w : Word}
    (h : bits w 31 28 ∈ [0x0, 0xD, 0xE, 0xF] ∨
      ∃ m : Mnemonic, bits w 31 28 = bits (matchOf m) 31 28 ∧ w &&& maskOf m ≠ matchOf m) :
    ∃ r, decode w = .error r := by
  cases hd : decode w with
  | error r => exact ⟨r, rfl⟩
  | ok i =>
    rcases h with reserved | ⟨m, same, differs⟩
    · obtain ⟨n, hop⟩ := exists_op_of_decode hd
      exact absurd (hop ▸ reserved) (opOf_assigned n)
    · have hop : bits w 31 28 = opOf m := same.trans (bits_op_matchOf m)
      exact absurd (mask_match_iff.2 ⟨hop, unusedZero_of_decode hop hd⟩) differs

/-- Settles O4: a word the decoder accepts has an assigned OP and matches its mnemonic. -/
theorem reservedWordsAreRefused : Obligations.ReservedWordsAreRefused := by
  refine ⟨fun w h => ?_, rfl⟩
  obtain ⟨r, hd⟩ := exists_decode_error h
  exact ⟨⟨r, hd⟩, fun s hr he hp => step_of_decode_error hr he hp hd⟩

end Sys2Proof
end

section
/-! PROOF. Two statements about register writes: the one the engine completes, and the index outside the set. -/

namespace Sys2Proof.Machine

/-- Settles O25: two engine steps take and complete the write. -/
theorem completedWriteReachesItsRegister : Obligations.CompletedWriteReachesItsRegister := by
  intro P hP s u r v hb hm hc hr
  obtain ⟨f, o, e⟩ := engineRun_write_head hP 0 hb hm hr hc
  rw [e]
  exact ⟨hb, rfl, rfl, convRead_convWrite_same .., fun w q => convRead_convWrite_other P u w r q _ s.conv⟩

/-- Where none is in progress, REGWR meets the test of its index before it reads its operand (R83). -/
theorem regwrOp_outside {P : Params} {s : State} {r : RegIndex} (hs : s.op = none) (h : 2 ^ P.regW ≤ r.toNat)
    (u : ConvUnit) (rs1 : HostVar) : regwrOp P u r rs1 s = s.markRefused := by
  simp [regwrOp, perform_of_none _ hs, regInSet, Nat.not_lt.2 h]

/-- Settles O54: the test of the index comes first, and `exec` is the operation under the machine's parameters. -/
theorem registerIndexOutsideTheSetIsRefused : Obligations.RegisterIndexOutsideTheSetIsRefused :=
  ⟨fun _ _ _ u _ rs1 hs h => regwrOp_outside hs h u rs1, fun _ _ _ _ => rfl⟩

end Sys2Proof.Machine
end

section
/-! PROOF. The queue-controller operations that complete (R101 to R122): QEN in a quiet queue, QPUSH with room, QWAIT with
enough responses, QPOP, LI. -/

namespace Sys2Proof.Machine

open Sys2Proof.Safety

variable {P : Params}

/-! ### Single caller steps that write the controller -/

theorem runAct_write_flags_all (t : Temps) (s : State) :
    runAct P (.write .flags (flagClearAll P)) t s = .ok t { s with flags := 0#32 } := by
  simp only [runAct, regWrite, onWrite, clearFlags_all]

theorem runAct_write_ctrlDisInv (hP : P.Lawful) (t : Temps) (s : State) :
    runAct P (.write .ctrl (ctrlDisInv P)) t s = .ok t { s with ctrl := ⟨.disabled, 0#32⟩, cmdFifo := [] } := by
  simp only [runAct, regWrite, onWrite, ctrlOfWord_ctrlDisInv hP, invSet_ctrlDisInv hP, if_true]

/-- The engine's turn before a block's first step is all that sets a later block apart from a machine step's first. -/
theorem runBlock_cons_fresh (fresh : Bool) (a : CallerAct) (rest : List CallerAct) (t : Temps) (s : State) :
    runBlock P fresh (a :: rest) t s = runBlock P true (a :: rest) t (if fresh then s else interleave P s) := by
  cases fresh <;> rfl

/-- In a queue with nothing to do, the engine's turns use up answers only (R149). -/
theorem interleave_quiescent {s : State} (hb : s.busy = none) (h : s.ctrl.mode = .disabled ∨ s.cmdFifo = []) :
    ∃ o, interleave P s = { s with oracle := o } :=
  interleave_of_none (engineStep_quiescent hb h)

/-! ### QEN -/

/-- Settles O34: the CTRL write leaves the queue quiet, so the engine's turn after it changes nothing but the record of
answers. -/
theorem enableInAQuietQueueChangesNothingElse : Obligations.EnableInAQuietQueueChangesNothingElse := by
  intro s rs1 rs2 c n hc hn hb hq
  obtain ⟨o, e⟩ := interleave_quiescent (P := Config.params) (s := { s with
      ctrl := ctrlOfWord Config.params c, cmdFifo := if invSet Config.params c then [] else s.cmdFifo }) hb (by
    rcases hq with hq | hq | hq
    · simp [hq]
    · simp [hq]
    · exact .inl hq)
  exact ⟨o, by rw [enableWritesControlThenNotify s rs1 rs2 c n hc hn, e]⟩

/-- Settles O35: the engine's turn leaves CTRL and the variables alone, so the second QEN reads and writes the same words. -/
theorem enableIsIdempotent : Obligations.EnableIsIdempotent := by
  intro s t rs1 rs2 c n hc hn _ ht
  have first := enableWritesControlThenNotify s rs1 rs2 c n hc hn
  rw [first, Host.Outcome.next.injEq] at ht
  have frame := interleave_frame Config.params { s with
    ctrl := ctrlOfWord Config.params c, cmdFifo := if invSet Config.params c then [] else s.cmdFifo }
  have hctrl : t.ctrl = ctrlOfWord Config.params c := ht ▸ frame.ctrl
  have hnotify : t.notify = n := ht ▸ rfl
  have hx : t.x = s.x := ht ▸ frame.x
  have second := enableWritesControlThenNotify t rs1 rs2 c n (by rw [readVar, hx]; exact hc)
    (by rw [readVar, hx]; exact hn)
  exact ⟨_, second, (interleave_frame _ _).ctrl.trans hctrl.symm, hnotify.symm, hctrl, hnotify⟩

/-! ### QPUSH and QWAIT -/

/-- A push with room, where its machine step begins (R111). -/
theorem runBlocks_push_room (hP : P.Lawful) (w : Word) (t : Temps) {s : State} (h : s.cmdFifo.length < 4) :
    runBlocks P true [pushActs (.word w)] .ok t s =
      { interleave P s with cmdFifo := (interleave P s).cmdFifo ++ [w], op := none, pc := s.pc + 1 } := by
  have hrun := runBlock_pushActs_fresh hP (.word w) [] t h
  rw [List.append_nil] at hrun
  simp only [runBlocks, hrun, runBlock, finish, if_true, State.complete, pushWord, (interleave_frame P s).pc]

/-- Settles O39: at its start or where it holds, QPUSH is its poll, which passes, and its write; in a disabled idle queue
the engine has nothing to do between them. -/
theorem pushAppendsTheWord : Obligations.PushAppendsTheWord := by
  have room : ∀ (s : State) (rs1 : HostVar) (w : Word),
      ((s.op = none ∧ readVar s rs1 = some w) ∨ ∃ temps, s.op = some ⟨[pushActs (.word w)], .ok, temps⟩) →
      s.cmdFifo.length < 4 →
      exec (.qpush rs1) s =
        .next { interleave Config.params s with
                cmdFifo := (interleave Config.params s).cmdFifo ++ [w], op := none, pc := s.pc + 1 } := by
    intro s rs1 w hs hroom
    rcases hs with ⟨hs, hw⟩ | ⟨temps, hs⟩
    · rw [exec_of_pushStart hs (acts := pushActs (.word w)) (by simp [pushStart, hw]),
        runBlocks_push_room Config.params_lawful w _ hroom]
    · rw [exec_of_held hs (by simp [Instr.mnemonic]), runBlocks_push_room Config.params_lawful w _ hroom]
  refine ⟨room, fun s rs1 w hs hw hroom hb hm => ?_⟩
  obtain ⟨o, e⟩ := interleave_quiescent (P := Config.params) hb (.inl hm)
  exact ⟨o, by rw [room s rs1 w (.inl ⟨hs, hw⟩) hroom, e, hs]⟩

/-- A wait for responses that are there, where its machine step begins (R115). -/
theorem runBlocks_wait_pass (hP : P.Lawful) {n : Nat} (t : Temps) {s : State} (hn : n ≤ s.respFifo.length)
    (hd : s.respFifo.length ≤ P.respDepth) :
    runBlocks P true [waitActs P n] .ok t s = { interleave P s with flags := 0#32, op := none, pc := s.pc + 1 } := by
  have hrun : runBlock P true (waitActs P n) t s = .done { t with polls := 0 } { interleave P s with flags := 0#32 } := by
    rw [waitActs, runBlock_cons_ok (fresh := true) (s := s) (runAct_holdResponses_pass hP n t hd hn),
      runBlock_cons_ok (runAct_write_flags_all _ (interleave P s)), runBlock]
  simp only [runBlocks, hrun, finish, if_true, State.complete, (interleave_frame P s).pc]

/-- Settles O41: the poll passes, the flags are cleared, and the engine's turn between only appends responses. -/
theorem waitClearsEveryFlag : Obligations.WaitClearsEveryFlag := by
  intro s n hs hn hd
  obtain ⟨-, l, hl⟩ := interleave_monotone Config.params s
  have pass (t : Temps) := runBlocks_wait_pass Config.params_lawful t hn hd
  refine ⟨?_, by rw [hl, List.length_append]; exact Nat.le_add_right_of_le hn, l, hl⟩
  rcases hs with hs | ⟨temps, hs⟩
  · rw [exec_qwait_start n hs, pass]
  · rw [exec_of_held hs (by simp [Instr.mnemonic]), pass]

/-! ### QPOP and LI -/

/-- Settles O44: a CQ_POP read takes the head entry, or records the fault where there is none. -/
theorem popTakesTheHeadEntry : Obligations.PopTakesTheHeadEntry := by
  refine fun s rd => ⟨fun e rest h => ?_, fun h => ?_⟩
  · simp only [exec, execQpop, popOp, regRead, h, writeVar, State.complete]
  · simp only [exec, execQpop, popOp, regRead, h, State.recordFault, State.complete]

/-- Settles O45: extending the immediate by zeros keeps its value. -/
theorem loadImmediateWritesOneVariable : Obligations.LoadImmediateWritesOneVariable := by
  intro s rd imm
  have h : immWord imm = BitVec.ofNat 32 imm.toNat := BitVec.eq_of_toNat_eq (by simp [immWord])
  rw [← h]
  rfl

end Sys2Proof.Machine
end

section
/-! PROOF. QDIS (R103 to R109): its poll decides how it ends. Where nothing is in progress the steps after the poll complete;
before it a disabled queue completes at most the command in progress. -/

namespace Sys2Proof.Machine

open Sys2Proof.Safety

variable {P : Params}

/-! ### The end of an operation -/

@[simp] theorem finish_ok (s : State) : finish .ok s = s.complete := rfl

theorem finish_of_ne_ok {e : Err} (h : e ≠ .ok) (s : State) : finish e s = s.raiseError e := if_neg h

theorem firstError_ne_ok (first : Err) {e : Err} (h : e ≠ .ok) : firstError first e ≠ .ok := by
  unfold firstError
  split
  · exact h
  · assumption

/-! ### `disable` from its poll -/

/-- `disable` from its poll with nothing in progress: the queue stays quiet through the three writes (R105, R106). -/
theorem runBlock_disable_idle (hP : P.Lawful) (t : Temps) {s : State} (hb : s.busy = none)
    (hm : s.ctrl.mode = .disabled) :
    ∃ o, runBlock P true ((disableActs P).drop 2) t s =
      .done { t with polls := 0 } { s with ctrl := ⟨.disabled, 0#32⟩, cmdFifo := [], flags := 0#32, oracle := o } := by
  obtain ⟨o, -, -, poll⟩ := runAct_holdIdle_pass hP t hb
  obtain ⟨o1, turn1⟩ := interleave_quiescent (P := P) (s := { s with oracle := o }) hb (.inl hm)
  obtain ⟨o2, turn2⟩ := interleave_quiescent (P := P)
    (s := { s with ctrl := ⟨.disabled, 0#32⟩, cmdFifo := [], oracle := o1 }) hb (.inl rfl)
  obtain ⟨o3, turn3⟩ := interleave_quiescent (P := P)
    (s := { s with ctrl := ⟨.disabled, 0#32⟩, cmdFifo := [], flags := 0#32, oracle := o2 }) hb (.inl rfl)
  refine ⟨o3, ?_⟩
  simp only [disableActs, List.drop]
  rw [runBlock_cons_ok (fresh := true) (s := s) poll, runBlock_cons_ok (runAct_write_ctrlDisInv hP _ _)]
  simp only [Bool.false_eq_true, if_false, turn1]
  rw [runBlock_cons_ok (runAct_write_flags_all _ _)]
  simp only [Bool.false_eq_true, if_false, turn2]
  rw [runBlock_cons_ok (t' := { t with polls := 0 }) (s' := { s with
    ctrl := ⟨.disabled, 0#32⟩, cmdFifo := [], flags := 0#32, oracle := o3 }), runBlock]
  simp only [Bool.false_eq_true, if_false, turn3, runAct, regWrite, onWrite, if_true]

theorem runBlocks_disable_idle (hP : P.Lawful) (first : Err) (t : Temps) {s : State} (hb : s.busy = none)
    (hm : s.ctrl.mode = .disabled) :
    ∃ o, runBlocks P true [(disableActs P).drop 2] first t s =
      finish first { s with ctrl := ⟨.disabled, 0#32⟩, cmdFifo := [], flags := 0#32, oracle := o } := by
  obtain ⟨o, h⟩ := runBlock_disable_idle hP t hb hm
  exact ⟨o, by simp only [runBlocks, h]⟩

/-- `disable` from its poll with a command in progress holds there, or reports an error (R16, R221). -/
theorem runBlocks_disable_busy (hP : P.Lawful) (first : Err) (t : Temps) {s : State} {w : Word} (hw : s.busy = some w) :
    ∃ o, (∃ t', runBlocks P true [(disableActs P).drop 2] first t s =
        { s with oracle := o, op := some ⟨[(disableActs P).drop 2], first, t'⟩ }) ∨
      ∃ e, e ≠ .ok ∧ runBlocks P true [(disableActs P).drop 2] first t s = ({ s with oracle := o } : State).raiseError e := by
  obtain ⟨o, -, -, poll⟩ := runAct_holdIdle_fail hP t hw
  refine ⟨o, ?_⟩
  simp only [disableActs, List.drop, runBlocks, runBlock, if_true, poll]
  rcases pollFailed_cases P .timeoutIdle t { s with oracle := o } with ⟨-, e⟩ | ⟨k, -, -, e⟩ | ⟨k, -, -, e⟩ <;>
    simp only [e]
  · exact .inl ⟨_, rfl⟩
  · exact .inl ⟨_, rfl⟩
  · have he : firstError first (.timeoutIdle (t.polls + 1)) ≠ .ok := firstError_ne_ok first nofun
    exact .inr ⟨_, he, finish_of_ne_ok he _⟩

/-! ### `disable` from its start -/

/-- The state `disable`'s poll finds: CTRL and NOTIFY written, the engine's turns taken (R103 steps 1 and 2). -/
def atDisablePoll (P : Params) (s : State) : State :=
  interleave P { interleave P { s with ctrl := ⟨.disabled, 0#32⟩ } with notify := 0#32 }

theorem runBlocks_disable_start (hP : P.Lawful) (first : Err) (t : Temps) (s : State) :
    runBlocks P true [disableActs P] first t s =
      runBlocks P true [(disableActs P).drop 2] first t (atDisablePoll P s) :=
  runBlocks_cons_congr [] first ((runBlock_disable_writes hP t s).trans (runBlock_cons_fresh false _ _ t _))

theorem atDisablePoll_frame (P : Params) (s : State) :
    EngineFrame { s with ctrl := ⟨.disabled, 0#32⟩, notify := 0#32 } (atDisablePoll P s) := by
  obtain ⟨ctrl, -, refused, x, pc, err, program, op⟩ := interleave_frame P { s with ctrl := ⟨.disabled, 0#32⟩ }
  exact EngineFrame.trans (b := { interleave P { s with ctrl := ⟨.disabled, 0#32⟩ } with notify := 0#32 })
    ⟨ctrl, rfl, refused, x, pc, err, program, op⟩ (interleave_frame P _)

theorem atDisablePoll_idle {s : State} (hb : s.busy = none) :
    ∃ o, atDisablePoll P s = { s with ctrl := ⟨.disabled, 0#32⟩, notify := 0#32, oracle := o } := by
  obtain ⟨o, turn⟩ := interleave_quiescent (P := P) (s := { s with ctrl := ⟨.disabled, 0#32⟩ }) hb (.inl rfl)
  rw [atDisablePoll, turn]
  exact interleave_quiescent hb (.inl rfl)

/-! ### What a disabled queue completes -/

/-- CTRL is the same, and a queue that is disabled keeps what it has in progress or completes that one command: one
response or one register write (R103, R141). -/
structure AtMostOneDone (P : Params) (s t : State) : Prop where
  ctrl : t.ctrl = s.ctrl
  done : s.ctrl.mode = .disabled →
    (t.busy = s.busy ∧ t.respFifo = s.respFifo ∧ t.conv = s.conv) ∨
    (t.busy = none ∧ ∃ w, s.busy = some w ∧
      ((t.conv = s.conv ∧ ∃ e, t.respFifo = s.respFifo ++ [e]) ∨
      (t.respFifo = s.respFifo ∧ ∃ u r v, P.decodeCmd w = .write u r v ∧ t.conv = convWrite P u r v s.conv)))

theorem AtMostOneDone.of_eq {s t : State} (ctrl : t.ctrl = s.ctrl) (busy : t.busy = s.busy)
    (resp : t.respFifo = s.respFifo) (conv : t.conv = s.conv) : AtMostOneDone P s t :=
  ⟨ctrl, fun _ => .inl ⟨busy, resp, conv⟩⟩

theorem AtMostOneDone.trans {a b c : State} (h : AtMostOneDone P a b) (k : AtMostOneDone P b c) :
    AtMostOneDone P a c := by
  refine ⟨k.ctrl.trans h.ctrl, fun hm => ?_⟩
  have hk := k.done (by rw [h.ctrl]; exact hm)
  rcases h.done hm with ⟨hb, hr, hc⟩ | ⟨hb, hd⟩
  · rwa [hb, hr, hc] at hk
  · rcases hk with ⟨kb, kr, kc⟩ | ⟨-, w, hw, -⟩
    · exact .inr ⟨kb.trans hb, by rwa [kr, kc]⟩
    · simp [hb] at hw

theorem engineStep_atMostOneDone {s t : State} (h : engineStep P s = some t) : AtMostOneDone P s t := by
  refine ⟨(engineStep_frame h).ctrl, fun hm => ?_⟩
  rcases engineStep_cases h with ⟨w, rest, f, o, -, hne, -, rfl⟩ | ⟨w, u, r, v, f, o, hw, hk, rfl⟩ |
    ⟨w, u, e, f, o, hw, -, -, -, -, rfl⟩ | ⟨w, -, -, rfl⟩
  · exact absurd hm hne
  · exact .inr ⟨rfl, w, hw, .inr ⟨rfl, u, r, v, hk, rfl⟩⟩
  · exact .inr ⟨rfl, w, hw, .inl ⟨rfl, e, rfl⟩⟩
  · exact .inl ⟨rfl, rfl, rfl⟩

theorem interleave_atMostOneDone (s : State) : AtMostOneDone P s (interleave P s) :=
  interleave_induct (R := AtMostOneDone P) (fun _ => .of_eq rfl rfl rfl rfl) (fun _ _ _ => AtMostOneDone.trans)
    (fun _ _ => .of_eq rfl rfl rfl rfl) (fun _ _ => engineStep_atMostOneDone) s

theorem atDisablePoll_atMostOneDone (s : State) :
    AtMostOneDone P { s with ctrl := ⟨.disabled, 0#32⟩ } (atDisablePoll P s) := by
  have notify : AtMostOneDone P (interleave P { s with ctrl := ⟨.disabled, 0#32⟩ })
      { interleave P { s with ctrl := ⟨.disabled, 0#32⟩ } with notify := 0#32 } := .of_eq rfl rfl rfl rfl
  exact (interleave_atMostOneDone _).trans (notify.trans (interleave_atMostOneDone _))

/-! ### QDIS -/

/-- QDIS at its start, or held at its poll with what it has written (R103). -/
def DisableStands (P : Params) (s : State) : Prop :=
  s.op = none ∨ (s.ctrl = ⟨.disabled, 0#32⟩ ∧ s.notify = 0#32 ∧
    ∃ temps, s.op = some ⟨[(disableActs P).drop 2], .ok, temps⟩)

/-- Either way QDIS is `disable` from its poll, in a disabled queue where at most one command has completed. -/
theorem exec_qdis_from_poll {s : State} (h : DisableStands Config.params s) :
    ∃ temps u, exec .qdis s = .next (runBlocks Config.params true [(disableActs Config.params).drop 2] .ok temps u) ∧
      EngineFrame { s with ctrl := ⟨.disabled, 0#32⟩, notify := 0#32 } u ∧
      AtMostOneDone Config.params { s with ctrl := ⟨.disabled, 0#32⟩ } u ∧
      (s.busy = none → ∃ o, u = { s with ctrl := ⟨.disabled, 0#32⟩, notify := 0#32, oracle := o }) := by
  rcases h with hs | ⟨hctrl, hnotify, temps, hs⟩
  · exact ⟨_, _, by rw [exec_qdis_start hs, runBlocks_disable_start Config.params_lawful], atDisablePoll_frame _ s,
      atDisablePoll_atMostOneDone s, atDisablePoll_idle⟩
  · refine ⟨temps, s, exec_of_held hs (by decide), ?_, .of_eq hctrl rfl rfl rfl, fun _ => ⟨s.oracle, ?_⟩⟩
    · exact ⟨hctrl, hnotify, rfl, rfl, rfl, rfl, rfl, rfl⟩
    · rw [← hctrl, ← hnotify]

theorem exec_qdis_idle {s : State} (h : DisableStands Config.params s) (hb : s.busy = none) :
    ∃ o, exec .qdis s =
      .next { s with ctrl := ⟨.disabled, 0#32⟩, notify := 0#32, cmdFifo := [], flags := 0#32, op := none, pc := s.pc + 1,
                     oracle := o } := by
  obtain ⟨temps, u, hrun, -, -, hu⟩ := exec_qdis_from_poll h
  obtain ⟨o, rfl⟩ := hu hb
  obtain ⟨o', e⟩ := runBlocks_disable_idle Config.params_lawful .ok temps (s := { s with
    ctrl := ⟨.disabled, 0#32⟩, notify := 0#32, oracle := o }) hb rfl
  exact ⟨o', by rw [hrun, e]; rfl⟩

/-- Settles O36: with nothing in progress the poll passes, and what the six steps write is what `disable`'s post-state
already holds. -/
theorem disableCompletesWhenIdle : Obligations.DisableCompletesWhenIdle := by
  refine ⟨fun s => exec_qdis_idle, fun s ⟨hmode, hother, hnotify, hbusy, hcmd, hflags⟩ hs => ?_⟩
  obtain ⟨o, e⟩ := exec_qdis_idle (.inl hs) hbusy
  have hctrl : s.ctrl = ⟨.disabled, 0#32⟩ := by rw [← hmode, ← hother]
  exact ⟨o, by rw [e]; simp only [hctrl, hnotify, hcmd, hflags, hs]⟩

/-- Settles O37: a QDIS whose poll fails does not advance `pc`; one whose poll passes leaves what its poll found of the
responses and the converter registers. -/
theorem completedDisablePostState : Obligations.CompletedDisablePostState := by
  intro s t hs ht hpc
  obtain ⟨temps, u, hrun, frame, done, -⟩ := exec_qdis_from_poll hs
  rw [hrun, Host.Outcome.next.injEq] at ht
  have hupc : u.pc = s.pc := frame.pc
  cases hb : u.busy with
  | some w =>
    obtain ⟨o, h⟩ := runBlocks_disable_busy Config.params_lawful .ok temps hb
    have stays : t.pc = u.pc := by rcases h with ⟨t', e⟩ | ⟨err, -, e⟩ <;> simp [← ht, e]
    omega
  | none =>
    obtain ⟨o, e⟩ := runBlocks_disable_idle Config.params_lawful .ok temps hb (congrArg Ctrl.mode frame.ctrl)
    rw [e] at ht
    subst ht
    have quiet : engineStep Config.params _ = none :=
      engineStep_quiescent (s := finish .ok { u with
        ctrl := ⟨.disabled, 0#32⟩, cmdFifo := [], flags := 0#32, oracle := o }) hb (.inl rfl)
    refine ⟨⟨rfl, rfl, frame.notify, hb, rfl, rfl⟩, quiet, rfl, frame.err, ?_⟩
    rcases done.done rfl with ⟨-, hr, hc⟩ | ⟨-, w, hw, ⟨hc, hr⟩ | ⟨hr, hc⟩⟩
    · exact ⟨.inl hr, .inl hc⟩
    · exact ⟨.inr hr, .inl hc⟩
    · exact ⟨.inl hr, .inr ⟨w, hc.imp fun u ⟨r, v, h⟩ => ⟨r, v, hw, h⟩⟩⟩

end Sys2Proof.Machine
end

section
/-! PROOF. BRINGUP (R203, R204): whatever the schedule, its first two blocks neither fault nor are refused, so that `disable`
always comes last and decides how bring-up ends. -/

namespace Sys2Proof.Machine

open Sys2Proof.Safety

variable {P : Params}

/-! ### Blocks that cannot fault or be refused -/

/-- Caller steps that, from a state with `n` responses or more, neither fault nor are refused: writes of CTRL, NOTIFY and
the flags, pushes behind their polls, and pops of the responses a wait has seen. -/
inductive Guarded : Nat → List CallerAct → Prop where
  | nil (n : Nat) : Guarded n []
  | write {n : Nat} {r : Reg} {rest : List CallerAct} (v : Word) (hr : r = .ctrl ∨ r = .notify ∨ r = .flags)
    (h : Guarded n rest) : Guarded n (.write r v :: rest)
  | push {rest : List CallerAct} (src : PushSource) (h : Guarded 0 rest) : Guarded 0 (pushActs src ++ rest)
  | wait {rest : List CallerAct} (n : Nat) (h : Guarded n rest) : Guarded 0 (.holdResponses n :: rest)
  | pop25 {n : Nat} {rest : List CallerAct} (h : Guarded n rest) : Guarded (n + 1) (.pop25 :: rest)
  | pop75 {n : Nat} {rest : List CallerAct} (h : Guarded n rest) : Guarded (n + 1) (.pop75 :: rest)
  | compute {n : Nat} {rest : List CallerAct} (h : Guarded n rest) : Guarded n (.compute :: rest)

/-- What is left of such a block at a poll stands on its own: no pop is cut off from its wait. -/
theorem Guarded.of_suffix {n : Nat} {acts rest : List CallerAct} {a : CallerAct} (h : Guarded n acts)
    (ha : isPoll a = true) (hs : a :: rest <:+ acts) : Guarded 0 (a :: rest) := by
  induction h with
  | nil => simp at hs
  | write v hr h ih =>
    rcases List.suffix_cons_iff.1 hs with e | hs
    · cases e; cases ha
    · exact ih hs
  | push src h ih =>
    rcases List.suffix_cons_iff.1 hs with e | hs
    · rw [e]; exact .push src h
    · rcases List.suffix_cons_iff.1 hs with e | hs
      · cases e; cases ha
      · exact ih hs
  | wait n h ih =>
    rcases List.suffix_cons_iff.1 hs with e | hs
    · rw [e]; exact .wait n h
    · exact ih hs
  | pop25 h ih | pop75 h ih | compute h ih =>
    rcases List.suffix_cons_iff.1 hs with e | hs
    · cases e; cases ha
    · exact ih hs

theorem guarded_writeNamed (u : ConvUnit) (r : NamedReg) (v : Word) {rest : List CallerAct} (h : Guarded 0 rest) :
    Guarded 0 (writeNamed P u r v ++ rest) := .push _ h

theorem guarded_corrections (u : ConvUnit) (m : PrecMode) {rest : List CallerAct} (h : Guarded 0 rest) :
    Guarded 0 (correctionActs u m ++ rest) := by
  rw [correctionActs, List.append_assoc]
  exact .push _ (.push _ h)

theorem guarded_calibrate (u : ConvUnit) {rest : List CallerAct} (h : Guarded 0 rest) :
    Guarded 0 (calibrateActs P u ++ rest) := by
  simp only [calibrateActs, waitActs, List.append_assoc, List.cons_append, List.nil_append]
  exact .push _ (.push _ (.wait 2 (.write _ (.inr (.inr rfl)) (.pop25 (.pop75 (.compute
    (guarded_corrections _ _ (guarded_corrections _ _ (guarded_corrections _ _ h)))))))))

theorem guarded_bringupUnit (u : ConvUnit) {rest : List CallerAct} (h : Guarded 0 rest) :
    Guarded 0 (bringupUnitActs P u ++ rest) := by
  unfold bringupUnitActs
  split
  · simp only [List.append_assoc]
    exact guarded_calibrate u (guarded_writeNamed _ _ _ (guarded_writeNamed _ _ _ h))
  · exact h

theorem guarded_bringupTry (P : Params) : Guarded 0 (bringupTryActs P) := by
  have units : Guarded 0 (bringupUnitActs P .A ++ (bringupUnitActs P .B ++ [])) :=
    guarded_bringupUnit .A (guarded_bringupUnit .B (.nil 0))
  rw [List.append_nil] at units
  simp only [bringupTryActs, enableActs, enableBothActs, List.append_assoc, List.cons_append, List.nil_append]
  exact .write _ (.inl rfl) (.write _ (.inr (.inl rfl)) (guarded_writeNamed _ _ _ (guarded_writeNamed _ _ _ units)))

theorem guarded_disableBoth (P : Params) : Guarded 0 (disableBothActs P) :=
  guarded_writeNamed .A .cr P.prescale (guarded_writeNamed .B .cr P.prescale (.nil 0))

/-! ### How such a block ends -/

/-- No fault and no refusal ended the operation, and where the block holds it stands at a poll of its own. -/
def BlockEnd.Orderly (acts : List CallerAct) : BlockEnd → Prop
  | .done _ _ => True
  | .held rest _ _ => ∃ a as, rest = a :: as ∧ isPoll a = true ∧ rest <:+ acts
  | .raised _ _ _ => True
  | .over _ => False

theorem BlockEnd.Orderly.mono {acts acts' : List CallerAct} {e : BlockEnd} (h : e.Orderly acts) (hs : acts <:+ acts') :
    e.Orderly acts' :=
  match e with
  | .done _ _ => trivial
  | .held _ _ _ =>
    have ⟨a, as, hr, ha, hsuf⟩ := h
    ⟨a, as, hr, ha, hsuf.trans hs⟩
  | .raised _ _ _ => trivial
  | .over _ => h

theorem runBlock_orderly_of_ok {fresh : Bool} {a : CallerAct} {rest : List CallerAct} {t t' : Temps} {s s' : State}
    (h : runAct P a t (if fresh then s else interleave P s) = .ok t' s')
    (hrest : (runBlock P false rest t' s').Orderly rest) : (runBlock P fresh (a :: rest) t s).Orderly (a :: rest) := by
  rw [runBlock_cons_ok h]
  exact hrest.mono (List.suffix_cons a rest)

theorem runBlock_orderly_of_pollFailed {fresh : Bool} {a : CallerAct} {rest : List CallerAct} {t : Temps} {s u : State}
    {e : Nat → Err} (ha : isPoll a = true)
    (h : runAct P a t (if fresh then s else interleave P s) = pollFailed P e t u) :
    (runBlock P fresh (a :: rest) t s).Orderly (a :: rest) := by
  simp only [runBlock, h]
  rcases pollFailed_cases P e t u with ⟨-, he⟩ | ⟨k, -, -, he⟩ | ⟨k, -, -, he⟩ <;> simp only [he]
  · exact ⟨a, rest, rfl, ha, List.suffix_rfl⟩
  · exact ⟨a, rest, rfl, ha, List.suffix_rfl⟩
  · trivial

theorem runAct_write_queue {r : Reg} (hr : r = .ctrl ∨ r = .notify ∨ r = .flags) (v : Word) (t : Temps) (s : State) :
    ∃ s', runAct P (.write r v) t s = .ok t s' ∧ s'.respFifo = s.respFifo := by
  rcases hr with rfl | rfl | rfl <;> exact ⟨_, rfl, rfl⟩

/-- A pop of a FIFO with `n + 1` entries or more leaves `n` or more (R119). -/
theorem runAct_pop_ok {n : Nat} (t : Temps) {s : State} (h : n + 1 ≤ s.respFifo.length) :
    ∃ e rest, n ≤ rest.length ∧
      runAct P .pop25 t s = .ok { t with e25 := e } { s with respFifo := rest } ∧
      runAct P .pop75 t s = .ok { t with e75 := e } { s with respFifo := rest } := by
  cases hr : s.respFifo with
  | nil => simp [hr] at h
  | cons e rest =>
    refine ⟨e, rest, by simpa [hr] using h, ?_, ?_⟩ <;> simp only [runAct, regRead, hr, onRead]

/-- The datapath step of `calibrate` raises or goes on, and leaves the state (R196 step 4). -/
theorem runAct_compute_cases (t : Temps) (s : State) :
    (∃ e, runAct P .compute t s = .raised e s) ∨ ∃ t', runAct P .compute t s = .ok t' s := by
  simp only [runAct]
  split
  · exact .inl ⟨_, rfl⟩
  · exact .inr ⟨_, rfl⟩

/-- A state a block that needs `n` responses may run from. -/
structure Ready (P : Params) (n : Nat) (s : State) : Prop where
  queue : QueueInv P s
  responses : n ≤ s.respFifo.length

theorem Ready.found (hP : P.Lawful) {n : Nat} {s : State} (h : Ready P n s) (fresh : Bool) :
    Ready P n (if fresh then s else interleave P s) := by
  split
  · exact h
  · obtain ⟨-, l, hl⟩ := interleave_monotone P s
    exact ⟨interleave_queueInv hP s h.queue, by rw [hl, List.length_append]; exact Nat.le_add_right_of_le h.responses⟩

theorem Ready.of_ok {a : CallerAct} {t t' : Temps} {n m : Nat} {s s' : State} (h : Ready P n s)
    (hok : runAct P a t s = .ok t' s') (hm : m ≤ s'.respFifo.length) : Ready P m s' := by
  have effect := runAct_effect (P := P) a t s
  rw [hok] at effect
  exact ⟨actEffect_queueInv effect h.queue, hm⟩

/-- Within the invariants a guarded block ends in order, whatever the schedule and the draws: what a poll has seen, room
or responses, the engine's later turns do not take away. -/
theorem runBlock_guarded (hP : P.Lawful) {n : Nat} {acts : List CallerAct} (hg : Guarded n acts) (fresh : Bool)
    (t : Temps) {s : State} (hs : Ready P n s) : (runBlock P fresh acts t s).Orderly acts := by
  induction hg generalizing fresh t s with
  | nil => trivial
  | write v hr h ih =>
    have hf := hs.found hP fresh
    obtain ⟨s', hok, hresp⟩ := runAct_write_queue (P := P) hr v t (if fresh then s else interleave P s)
    exact runBlock_orderly_of_ok hok (ih _ _ (hf.of_ok hok (hresp ▸ hf.responses)))
  | @push rest src h ih =>
    have hf := hs.found hP fresh
    rw [pushActs, List.cons_append, runBlock_cons_fresh]
    generalize (if fresh then s else interleave P s) = u at hf ⊢
    by_cases hroom : u.cmdFifo.length < 4
    · have hpush : ActEffect P (interleave P u) _ :=
        .push (pushWord P t src) ((interleave_cmdFifo_le P u).trans_lt hroom)
      have hrun := runBlock_pushActs_fresh hP src rest t hroom
      rw [pushActs, List.cons_append] at hrun
      rw [hrun]
      exact (ih _ _ ⟨actEffect_queueInv hpush (hf.found hP false).queue, Nat.zero_le _⟩).mono ⟨pushActs src, rfl⟩
    · have hfull : u.cmdFifo.length = 4 := Nat.le_antisymm hf.queue.1 (Nat.not_lt.1 hroom)
      exact runBlock_orderly_of_pollFailed (fresh := true) rfl (runAct_holdPush_fail hP src t hfull)
  | wait n h ih =>
    have hf := hs.found hP fresh
    by_cases hn : n ≤ (if fresh then s else interleave P s).respFifo.length
    · have hok := runAct_holdResponses_pass hP n t hf.queue.2.1 hn
      exact runBlock_orderly_of_ok hok (ih _ _ (hf.of_ok hok hn))
    · exact runBlock_orderly_of_pollFailed rfl (runAct_holdResponses_fail hP n t hf.queue.2.1 (Nat.not_le.1 hn))
  | pop25 h ih =>
    have hf := hs.found hP fresh
    obtain ⟨e, rest, hn, hok, -⟩ := runAct_pop_ok (P := P) t hf.responses
    exact runBlock_orderly_of_ok hok (ih _ _ (hf.of_ok hok hn))
  | pop75 h ih =>
    have hf := hs.found hP fresh
    obtain ⟨e, rest, hn, -, hok⟩ := runAct_pop_ok (P := P) t hf.responses
    exact runBlock_orderly_of_ok hok (ih _ _ (hf.of_ok hok hn))
  | compute h ih =>
    have hf := hs.found hP fresh
    rcases runAct_compute_cases (P := P) t (if fresh then s else interleave P s) with ⟨e, hraised⟩ | ⟨t', hok⟩
    · rw [runBlock, hraised]
      trivial
    · exact runBlock_orderly_of_ok hok (ih _ _ hf)

theorem actEffect_err {s t : State} (e : ActEffect P s t) : t.err = s.err := by cases e <;> rfl

theorem runBlock_err (fresh : Bool) (acts : List CallerAct) (t : Temps) (s : State) :
    (runBlock P fresh acts t s).state.err = s.err := by
  induction acts generalizing fresh t s with
  | nil => rfl
  | cons a rest ih =>
    have found : (if fresh then s else interleave P s).err = s.err := by
      split
      · rfl
      · exact (interleave_frame P s).err
    have left := (actEffect_err (runAct_effect (P := P) a t (if fresh then s else interleave P s))).trans found
    unfold runBlock
    split <;> rename_i e <;> rw [e] at left
    · exact (ih false _ _).trans left
    · exact left
    · exact left
    · exact left

/-- A guarded block hands over to the blocks after it, or puts itself down at a poll of its own. -/
theorem runBlocks_guarded (hP : P.Lawful) {acts : List CallerAct} (hg : Guarded 0 acts) (fresh : Bool)
    (bs : List (List CallerAct)) (first : Err) (t : Temps) {s : State} (hq : QueueInv P s) :
    ∃ u : State, u.pc = s.pc ∧
      ((∃ a as t', isPoll a = true ∧ a :: as <:+ acts ∧
        runBlocks P fresh (acts :: bs) first t s = { u with op := some ⟨(a :: as) :: bs, first, t'⟩ }) ∨
      ∃ first' t', u.err = s.err ∧ QueueInv P u ∧
        runBlocks P fresh (acts :: bs) first t s = runBlocks P false bs first' t' u) := by
  have orderly := runBlock_guarded hP hg fresh t ⟨hq, Nat.zero_le _⟩
  have hpc := runBlock_pcFrom (P := P) fresh acts t s
  have herr := runBlock_err (P := P) fresh acts t s
  have hqueue := runBlock_carries (carries_queueInv hP) fresh acts t s hq
  simp only [runBlocks]
  generalize runBlock P fresh acts t s = e at orderly hpc herr hqueue
  match e with
  | .done t' u => exact ⟨u, hpc, .inr ⟨_, _, herr, hqueue, rfl⟩⟩
  | .held _ t' u =>
    obtain ⟨a, as, rfl, ha, hsuf⟩ := orderly
    exact ⟨u, hpc, .inl ⟨a, as, t', ha, hsuf, rfl⟩⟩
  | .raised e t' u => exact ⟨u, hpc, .inr ⟨_, _, herr, hqueue, rfl⟩⟩
  | .over _ => exact orderly.elim

/-! ### How bring-up ends -/

/-- What a bring-up that stood at `s` leaves: the queue disabled, with `disable`'s post-state or an error, or a bring-up
held. -/
def BringupLeaves (P : Params) (s t : State) : Prop :=
  (t.op = none → t.ctrl.mode = .disabled ∧ t.notify = 0#32 ∧ (t.pc = s.pc + 1 → DisabledPost t ∧ t.err = s.err) ∧
    (t.pc = s.pc → t.err ≠ .ok)) ∧
  (t.op ≠ none → BringupHeld P t ∧ t.pc = s.pc)

theorem BringupLeaves.congr {s s' t : State} (h : BringupLeaves P s t) (pc : s.pc = s'.pc) (err : s.err = s'.err) :
    BringupLeaves P s' t := by
  unfold BringupLeaves at h ⊢
  rwa [← pc, ← err]

theorem bringupLeaves_of_held {s t : State} (held : BringupHeld P t) (pc : t.pc = s.pc) (op : t.op ≠ none) :
    BringupLeaves P s t :=
  ⟨fun h => absurd h op, fun _ => ⟨held, pc⟩⟩

theorem bringupLeaves_of_raised {s t : State} {e : Err} (he : e ≠ .ok) (hctrl : t.ctrl = ⟨.disabled, 0#32⟩)
    (hnotify : t.notify = 0#32) (pc : t.pc = s.pc) : BringupLeaves P s (t.raiseError e) :=
  ⟨fun _ => ⟨congrArg Ctrl.mode hctrl, hnotify, fun h => by simp [pc] at h, fun _ => he⟩, fun h => absurd rfl h⟩

theorem bringupLeaves_finish {s t : State} (post : DisabledPost t) (pc : t.pc = s.pc) (err : t.err = s.err)
    (first : Err) : BringupLeaves P s (finish first t) := by
  obtain ⟨mode, other, notify, busy, cmd, flags⟩ := post
  by_cases h : first = .ok
  · subst h
    exact ⟨fun _ => ⟨mode, notify, fun _ => ⟨⟨mode, other, notify, busy, cmd, flags⟩, err⟩, fun h => by simp [pc] at h⟩,
      fun h => absurd rfl h⟩
  · rw [finish_of_ne_ok h]
    have hctrl : t.ctrl = ⟨.disabled, 0#32⟩ := by rw [← mode, ← other]
    exact bringupLeaves_of_raised h hctrl notify pc

/-- Bring-up's last block from its poll, where CTRL and NOTIFY are written (R203, R221). -/
theorem disable_poll_leaves (hP : P.Lawful) (first : Err) (t : Temps) {s : State} (hctrl : s.ctrl = ⟨.disabled, 0#32⟩)
    (hnotify : s.notify = 0#32) :
    BringupLeaves P s (runBlocks P true [(disableActs P).drop 2] first t s) := by
  cases hb : s.busy with
  | none =>
    obtain ⟨o, e⟩ := runBlocks_disable_idle hP first t hb (congrArg Ctrl.mode hctrl)
    rw [e]
    refine bringupLeaves_finish ?_ rfl rfl first
    exact ⟨rfl, rfl, hnotify, hb, rfl, rfl⟩
  | some w =>
    obtain ⟨o, ⟨t', e⟩ | ⟨err, he, e⟩⟩ := runBlocks_disable_busy hP first t hb <;> rw [e]
    · exact bringupLeaves_of_held (.inr (.inr ⟨hctrl, hnotify, first, t', rfl⟩)) rfl nofun
    · exact bringupLeaves_of_raised he hctrl hnotify rfl

/-- Bring-up's last block, which follows the two before it whatever became of them (R204). -/
theorem disable_leaves (hP : P.Lawful) (first : Err) (t : Temps) (s : State) :
    BringupLeaves P s (runBlocks P false [disableActs P] first t s) := by
  have start : runBlocks P false [disableActs P] first t s = runBlocks P true [disableActs P] first t (interleave P s) :=
    rfl
  have turn := interleave_frame P s
  have poll := atDisablePoll_frame P (interleave P s)
  rw [start, runBlocks_disable_start hP]
  exact (disable_poll_leaves hP first t poll.ctrl poll.notify).congr (poll.pc.trans turn.pc) (poll.err.trans turn.err)

/-- Bring-up from anywhere in `disableBoth`. -/
theorem disableBoth_leaves (hP : P.Lawful) {acts : List CallerAct} (hg : Guarded 0 acts)
    (hs : acts <:+ disableBothActs P) (fresh : Bool) (first : Err) (t : Temps) {s : State} (hq : QueueInv P s) :
    BringupLeaves P s (runBlocks P fresh [acts, disableActs P] first t s) := by
  obtain ⟨u, hpc, ⟨a, as, t', ha, hsuf, e⟩ | ⟨first', t', herr, -, e⟩⟩ :=
    runBlocks_guarded hP hg fresh [disableActs P] first t hq
  all_goals rw [e]
  · exact bringupLeaves_of_held (.inr (.inl ⟨a, as, first, t', ha, hsuf.trans hs, rfl⟩)) hpc nofun
  · exact (disable_leaves hP first' t' u).congr hpc herr

/-- Bring-up from anywhere in its try block. -/
theorem bringupTry_leaves (hP : P.Lawful) {acts : List CallerAct} (hg : Guarded 0 acts)
    (hs : acts <:+ bringupTryActs P) (t : Temps) {s : State} (hq : QueueInv P s) :
    BringupLeaves P s (runBlocks P true [acts, disableBothActs P, disableActs P] .ok t s) := by
  obtain ⟨u, hpc, ⟨a, as, t', ha, hsuf, e⟩ | ⟨first', t', herr, hqu, e⟩⟩ :=
    runBlocks_guarded hP hg true [disableBothActs P, disableActs P] .ok t hq
  all_goals rw [e]
  · exact bringupLeaves_of_held (.inl ⟨a, as, t', ha, hsuf.trans hs, rfl⟩) hpc nofun
  · exact (disableBoth_leaves hP (guarded_disableBoth P) List.suffix_rfl false first' t' hqu).congr hpc herr

theorem bringupOp_leaves (hP : P.Lawful) {s : State} (hq : QueueInv P s) (h : s.op = none ∨ BringupHeld P s) :
    BringupLeaves P s (bringupOp P s) := by
  rcases h with hs | ⟨a, acts, t, ha, hsuf, hs⟩ | ⟨a, acts, first, t, ha, hsuf, hs⟩ | ⟨hctrl, hnotify, first, t, hs⟩
  · rw [bringupOp, perform_of_none _ hs]
    exact bringupTry_leaves hP (guarded_bringupTry P) List.suffix_rfl .start hq
  · rw [bringupOp, perform_of_held _ hs]
    exact bringupTry_leaves hP ((guarded_bringupTry P).of_suffix ha hsuf) hsuf t hq
  · rw [bringupOp, perform_of_held _ hs]
    exact disableBoth_leaves hP ((guarded_disableBoth P).of_suffix ha hsuf) hsuf true first t hq
  · rw [bringupOp, perform_of_held _ hs]
    exact disable_poll_leaves hP first t hctrl hnotify

/-- Settles O60: the two blocks before `disable` end in order, so `disable` runs, or bring-up holds where it is found
again. -/
theorem bringupAlwaysLeavesTheQueueDisabled : Obligations.BringupAlwaysLeavesTheQueueDisabled :=
  ⟨fun P hP s hi hs => bringupOp_leaves hP ((inv_iff P s).1 hi).1 hs, fun _ => rfl⟩

end Sys2Proof.Machine
end

section
/-! PROOF. The engine (R140 to R154): when it takes and completes a command and what each does, an unknown command, a
quiescent queue, and what it neither reads nor writes. -/

namespace Sys2Proof.Machine

open Sys2Proof.Safety

variable {P : Params}

/-! ### TAKE -/

/-- With nothing in progress an engine step is a TAKE (R140). -/
theorem engineStep_idle {s t : State} (hb : s.busy = none) (h : engineStep P s = some t) :
    ∃ w rest f o, s.ctrl.mode ≠ .disabled ∧ s.cmdFifo = w :: rest ∧
      t = { s with busy := some w, cmdFifo := rest, oracle := o, flags := orFlags P s.flags f } := by
  rcases engineStep_cases h with ⟨w, rest, f, o, -, hm, hc, e⟩ | ⟨w, _, _, _, _, _, hw, -⟩ |
    ⟨w, _, _, _, _, hw, -⟩ | ⟨w, hw, -⟩
  · exact ⟨w, rest, f, o, hm, hc, e⟩
  all_goals exact absurd (hb.symm.trans hw) nofun

/-- Settles O15: an enabled engine takes the head, and a step that begins with nothing in progress is a TAKE. -/
theorem engineTakesTheHead : Obligations.EngineTakesTheHead := by
  intro P _ s hb
  refine ⟨⟨fun ⟨t, h⟩ => ?_, fun ⟨hm, hc⟩ => ?_⟩, fun w rest hm hc => ?_⟩
  · obtain ⟨w, rest, _, _, hm, hc, -⟩ := engineStep_idle hb h
    exact ⟨hm, by rw [hc]; exact List.cons_ne_nil w rest⟩
  · obtain ⟨w, rest, hc⟩ := List.exists_cons_of_ne_nil hc
    obtain ⟨f, o, taken⟩ := engineStep_take (P := P) hb hm hc
    exact ⟨_, taken⟩
  · obtain ⟨_, _, taken⟩ := engineStep_take (P := P) hb hm hc
    obtain ⟨w', rest', f, o, -, hc', e⟩ := engineStep_idle hb taken
    obtain ⟨rfl, rfl⟩ := List.cons.inj (hc.symm.trans hc')
    exact ⟨f, o, taken.trans (congrArg some e)⟩

/-! ### DONE -/

/-- The engine completes a sample or read in progress exactly where it may answer it (R141, R142, R154). -/
theorem engineStep_response {s : State} {w : Word} {u : ConvUnit} (hw : s.busy = some w)
    (hk : (∃ p, P.decodeCmd w = .sample u p) ∨ ∃ r, P.decodeCmd w = .read u r) :
    engineStep P s = if mayRespond P u s then some (engineRespond P s) else none := by
  rcases hk with ⟨p, hk⟩ | ⟨r, hk⟩ <;> simp only [engineStep, hw, hk, engineDone]

/-- The engine records the fault of an unknown command in progress (R145). -/
theorem engineStep_unknown {s : State} {w : Word} (hw : s.busy = some w) (hk : P.decodeCmd w = .unknown) :
    engineStep P s = some (s.recordFault .unmodelledCommand) := by
  simp only [engineStep, hw, hk, engineDone]

/-- Settles O16: by what the engine does with a write, with a sample or read, and with an unknown command in progress. -/
theorem engineCompletesTheCommand : Obligations.EngineCompletesTheCommand := by
  intro P _ s w hw
  refine ⟨fun u r v hk => ?_, fun u hk => ?_, engineStep_unknown hw⟩
  · obtain ⟨f, o, drawn⟩ := setDrawnFlags_spec P { s with conv := convWrite P u r v s.conv, busy := none }
    exact ⟨f, o, by simp only [engineStep, hw, hk, engineDone, engineRetire, drawn, orFlags]⟩
  · have may : (s.respFifo.length < P.respDepth ∧ sampleAllowed P u s = true) ↔ mayRespond P u s = true := by
      simp only [mayRespond, Bool.and_eq_true, decide_eq_true_eq]
    rw [engineStep_response hw hk]
    split
    next h =>
      obtain ⟨e, f, o, answered⟩ := engineRespond_spec P s
      exact ⟨e, f, o, by rw [if_pos (may.1 h), answered, orFlags]⟩
    next h => exact if_neg (mt may.2 h)

/-- The completion of a command with a meaning leaves the queue idle (R141). -/
theorem engineStep_retires {s t : State} {w : Word} (hw : s.busy = some w) (hk : P.decodeCmd w ≠ .unknown)
    (h : engineStep P s = some t) : t.busy = none := by
  rcases engineStep_cases h with ⟨_, _, _, _, idle, -⟩ | ⟨_, _, _, _, _, _, -, -, rfl⟩ |
    ⟨_, _, _, _, _, -, -, -, -, -, rfl⟩ | ⟨w', hw', unknown, -⟩
  · exact absurd (hw.symm.trans idle) nofun
  · rfl
  · rfl
  · obtain rfl := Option.some.inj (hw.symm.trans hw')
    exact absurd unknown hk

/-- The completion of a command that produces a response appends it, and there was room for it (R142). -/
theorem engineStep_answers {s t : State} {w : Word} (hw : s.busy = some w) (hk : producesResponse P w = true)
    (h : engineStep P s = some t) : s.respFifo.length < P.respDepth ∧ ∃ e, t.respFifo = s.respFifo ++ [e] := by
  rcases engineStep_cases h with ⟨_, _, _, _, idle, -⟩ | ⟨w', _, _, _, _, _, hw', write, -⟩ |
    ⟨_, _, e, _, _, -, -, room, -, -, rfl⟩ | ⟨w', hw', unknown, -⟩
  · exact absurd (hw.symm.trans idle) nofun
  · obtain rfl := Option.some.inj (hw.symm.trans hw')
    simp [producesResponse, write] at hk
  · exact ⟨room, e, rfl⟩
  · obtain rfl := Option.some.inj (hw.symm.trans hw')
    simp [producesResponse, unknown] at hk

/-- Once its fault is recorded, an unknown command's completion changes nothing more (R145). -/
theorem engineRun_unknown_recorded {s : State} {w : Word} (hw : s.busy = some w) (hk : P.decodeCmd w = .unknown)
    (n : Nat) :
    engineRun P n (s.recordFault .unmodelledCommand) = s.recordFault .unmodelledCommand := by
  induction n with
  | zero => rfl
  | succ n ih =>
    rw [engineRun, engineStep_unknown (hw := (s.recordFault_busy _).trans hw) hk, State.recordFault_idem]
    exact ih

/-- Settles O17: the first engine step records the fault, and the later ones find it recorded. -/
theorem unknownCommandNeverLeavesBusy : Obligations.UnknownCommandNeverLeavesBusy := by
  intro P _ s w n hw hk
  cases n with
  | zero => exact ⟨rfl, hw⟩
  | succ n =>
    have run : engineRun P (n + 1) s = s.recordFault .unmodelledCommand := by
      rw [engineRun, engineStep_unknown hw hk]
      exact engineRun_unknown_recorded hw hk n
    exact ⟨run, by rw [run]; exact hw⟩

/-- Settles O18: a sample is allowed by the unit's enable bit or by the parameter; a write asks for neither. -/
theorem sampleOfADisabledUnitIsTheParameter : Obligations.SampleOfADisabledUnitIsTheParameter := by
  intro P _ s u
  refine ⟨fun h => ?_, fun h => ?_, fun w r v hw hk => ?_⟩
  · rw [sampleAllowed, h, Bool.or_true]
  · rw [sampleAllowed, h, Bool.or_false]
  · obtain ⟨f, o, written⟩ := engineStep_write hw hk
    exact ⟨_, written⟩

/-! ### What an engine step leaves of the FIFOs and of the caller -/

/-- Settles O19: a TAKE shortens the command FIFO by its head; of the completions only an answer appends. -/
theorem engineStepsAreMonotone : Obligations.EngineStepsAreMonotone := by
  intro P _ s t h
  refine ⟨fun hb => ?_, fun hb => ?_⟩
  · obtain ⟨w, rest, f, o, -, hc, rfl⟩ := engineStep_idle hb h
    exact ⟨by rw [hc]; rfl, rfl⟩
  · rcases engineStep_cases h with ⟨w, rest, f, o, idle, -⟩ | ⟨w, u, r, v, f, o, -, -, rfl⟩ |
      ⟨w, u, e, f, o, -, -, -, -, -, rfl⟩ | ⟨w, -, -, rfl⟩
    · exact absurd idle hb
    · exact ⟨rfl, .inl rfl⟩
    · exact ⟨rfl, .inr ⟨e, rfl⟩⟩
    · exact ⟨rfl, .inl rfl⟩

theorem engineRun_monotone (n : Nat) (s : State) : Monotone s (engineRun P n s) :=
  engineRun_induct (R := Monotone) (fun _ => ⟨le_rfl, [], (List.append_nil _).symm⟩)
    (fun _ _ _ ⟨h, l, e⟩ ⟨h', l', e'⟩ => ⟨h'.trans h, l ++ l', by rw [e', e, List.append_assoc]⟩)
    (fun _ _ => engineStep_monotone) n s

/-- The engine answers only where the response FIFO has room (R142). -/
theorem engineRun_respDepth (n : Nat) {s : State} (h : s.respFifo.length ≤ P.respDepth) :
    (engineRun P n s).respFifo.length ≤ P.respDepth := by
  refine engineRun_induct (R := fun s t => s.respFifo.length ≤ P.respDepth → t.respFifo.length ≤ P.respDepth)
    (fun _ => id) (fun _ _ _ h k => k ∘ h) (fun s t e h => ?_) n s h
  rcases engineStep_cases e with ⟨w, rest, f, o, -, -, -, rfl⟩ | ⟨w, u, r, v, f, o, -, -, rfl⟩ |
    ⟨w, u, e, f, o, -, -, room, -, -, rfl⟩ | ⟨w, -, -, rfl⟩
  case inr.inr.inl => simpa using room
  all_goals exact h

/-- Settles O21: no engine step is enabled, so the engine's turn is its draw from the schedule. -/
theorem quiescentQueueHasNoEngineStep : Obligations.QuiescentQueueHasNoEngineStep :=
  fun _ _ _ hb h => ⟨engineStep_quiescent hb h, interleave_quiescent hb h⟩

/-- Settles O24: one engine step keeps the frame, and so does a turn of them. -/
theorem engineLeavesTheCallerAlone : Obligations.EngineLeavesTheCallerAlone :=
  fun P _ => ⟨fun _ _ => engineStep_frame, interleave_frame P⟩

/-! ### What the engine does not read -/

/-- The state with NOTIFY, the other bits of CTRL and the flags as given: what the engine does not read (R152). -/
def State.withUnread (s : State) (notify other flags : Word) : State :=
  { s with notify := notify, ctrl := { s.ctrl with other := other }, flags := flags }

/-- The state without what the engine does not read. -/
def State.hideUnread (s : State) : State := s.withUnread 0#32 0#32 0#32

/-- The flags drawn come from the model's record of answers alone (R146). -/
theorem setDrawnFlags_hideUnread (s : State) (n k f : Word) :
    (setDrawnFlags P (s.withUnread n k f)).hideUnread = (setDrawnFlags P s).hideUnread := by
  have draw : drawFlags (s.withUnread n k f) = ((drawFlags s).1, (drawFlags s).2.withUnread n k f) := by
    simp only [drawFlags, State.withUnread]
    split <;> rfl
  simp only [setDrawnFlags, draw]
  rfl

theorem engineRetire_hideUnread (s : State) (n k f : Word) :
    (engineRetire P (s.withUnread n k f)).hideUnread = (engineRetire P s).hideUnread :=
  setDrawnFlags_hideUnread { s with busy := none } n k f

theorem engineRespond_hideUnread (s : State) (n k f : Word) :
    (engineRespond P (s.withUnread n k f)).hideUnread = (engineRespond P s).hideUnread := by
  have draw : drawResponse (s.withUnread n k f) = ((drawResponse s).1, (drawResponse s).2.withUnread n k f) := by
    simp only [drawResponse, State.withUnread]
    split <;> rfl
  simp only [engineRespond, draw]
  exact engineRetire_hideUnread { (drawResponse s).2 with respFifo := s.respFifo ++ [(drawResponse s).1] } n k f

theorem engineDone_hideUnread (c : CmdKind) (s : State) (n k f : Word) :
    (engineDone P c (s.withUnread n k f)).map State.hideUnread = (engineDone P c s).map State.hideUnread := by
  have response (u : ConvUnit) :
      (if mayRespond P u (s.withUnread n k f) then some (engineRespond P (s.withUnread n k f)) else none).map
          State.hideUnread =
        (if mayRespond P u s then some (engineRespond P s) else none).map State.hideUnread := by
    have may : mayRespond P u (s.withUnread n k f) = mayRespond P u s := rfl
    rw [may]
    split
    · exact congrArg some (engineRespond_hideUnread s n k f)
    · rfl
  cases c with
  | write u r v => exact congrArg some (engineRetire_hideUnread { s with conv := convWrite P u r v s.conv } n k f)
  | sample u p => exact response u
  | read u r => exact response u
  | unknown => rfl

theorem engineStep_hideUnread (s : State) (n k f : Word) :
    (engineStep P (s.withUnread n k f)).map State.hideUnread = (engineStep P s).map State.hideUnread := by
  have busy : (s.withUnread n k f).busy = s.busy := rfl
  have cmdFifo : (s.withUnread n k f).cmdFifo = s.cmdFifo := rfl
  have mode : (s.withUnread n k f).ctrl.mode = s.ctrl.mode := rfl
  simp only [engineStep, busy, cmdFifo, mode]
  split
  next w _ => exact engineDone_hideUnread (P.decodeCmd w) s n k f
  next =>
    split
    · rfl
    · split
      · rfl
      next w rest _ => exact congrArg some (setDrawnFlags_hideUnread { s with busy := some w, cmdFifo := rest } n k f)

/-- Settles O23: each part of an engine step decides and acts the same whatever stands in the three. -/
theorem engineIgnoresNotifyOtherAndFlags : Obligations.EngineIgnoresNotifyOtherAndFlags :=
  fun _ _ => engineStep_hideUnread

end Sys2Proof.Machine
end

section
/-! PROOF. The fair engine (R150): where the caller holds, a turn of the schedule with an engine step comes; where it does
not, its program ends. So an enabled engine step is taken, and the waits that one ends do end (R270). -/

namespace Sys2Proof.Machine

open Sys2Proof.Safety

variable {P : Params}

/-! ### A turn with an engine step -/

/-- A turn with an engine step, where one is enabled, begins with that step (R148). -/
theorem interleave_moves {s u : State} {n : Nat} (h : (drawEngineSteps s).1 = n + 1) (e : engineStep P s = some u) :
    ∃ o v, (drawEngineSteps s).2 = { s with oracle := o } ∧ engineStep P { s with oracle := o } = some v ∧
      interleave P s = engineRun P n v := by
  obtain ⟨o, drawn⟩ := drawEngineSteps_spec s
  obtain ⟨v, enabled⟩ := engineStep_oracle_some o e
  exact ⟨o, v, drawn, enabled, interleave_of_steps h (by rw [drawn]; exact enabled)⟩

theorem engineMoves_of_turn {s u : State} {n : Nat} (h : (drawEngineSteps s).1 = n + 1) (e : engineStep P s = some u) :
    EngineMoves P s := by
  obtain ⟨o, v, drawn, enabled, run⟩ := interleave_moves h e
  exact .inr ⟨n, v, h, by rw [drawn]; exact enabled, run⟩

/-! ### How an operation goes on -/

/-- Both states are at the same turn of the schedule. -/
def SameTurn (s t : State) : Prop := t.oracle.sched = s.oracle.sched ∧ t.oracle.turns = s.oracle.turns

theorem SameTurn.refl (s : State) : SameTurn s s := ⟨rfl, rfl⟩

/-- The operation is over: it is refused, or `pc` has moved on. -/
def OverFrom (n : Nat) (s : State) : Prop := s.refused = true ∨ s.pc = n + 1

/-- A caller step that holds takes no turn of the schedule, and one that ends its operation leaves it over. -/
def ActEnd.GoesOn (s : State) : ActEnd → Prop
  | .ok _ _ => True
  | .hold _ t => SameTurn s t
  | .raised _ _ => True
  | .over t => OverFrom s.pc t

theorem pollFailed_goesOn (e : Nat → Err) (t : Temps) {s u : State} (h : SameTurn s u) :
    (pollFailed P e t u).GoesOn s := by
  rcases pollFailed_cases P e t u with ⟨-, eq⟩ | ⟨k, -, -, eq⟩ | ⟨k, -, -, eq⟩ <;> rw [eq]
  · exact h
  · exact h
  · trivial

theorem drawStatusBits_sameTurn (s : State) : SameTurn s (drawStatusBits s).2 := by
  simp only [drawStatusBits]
  split <;> exact ⟨rfl, rfl⟩

theorem onWrite_goesOn (r : Reg) (v : Word) (t : Temps) (s : State) : (onWrite (regWrite P r v s) t).GoesOn s := by
  rcases regWrite_cases P r v s with ⟨-, e⟩ | ⟨-, e⟩ | ⟨-, e⟩ | ⟨-, -, e⟩ | ⟨-, -, e⟩ | e <;> rw [e]
  case inr.inr.inr.inr.inr => exact .inl rfl
  all_goals trivial

theorem onPop_goesOn {s : State} {k : Word → State → ActEnd} (hk : ∀ v u, (k v u).GoesOn s) :
    (onRead (regRead P .pop s) k).GoesOn s := by
  cases hr : s.respFifo with
  | nil =>
    simp only [regRead, hr, onRead]
    exact .inr rfl
  | cons e rest =>
    simp only [regRead, hr, onRead]
    exact hk e _

theorem runAct_goesOn (a : CallerAct) (t : Temps) (s : State) : (runAct P a t s).GoesOn s := by
  cases a with
  | write r v => exact onWrite_goesOn r v t s
  | push src => exact onWrite_goesOn .push _ t s
  | holdIdle =>
    simp only [runAct, regRead, onRead]
    split
    · trivial
    · exact pollFailed_goesOn _ t (drawStatusBits_sameTurn s)
  | holdPush | holdResponses =>
    simp only [runAct, regRead, onRead]
    split
    · trivial
    · exact pollFailed_goesOn _ t (.refl s)
  | pop25 | pop75 => exact onPop_goesOn fun _ _ => trivial
  | compute =>
    simp only [runAct]
    split <;> trivial

/-- A block that holds has not more steps left; as many only where its first poll failed, before which a machine step
takes no other turn of the schedule. -/
def BlockEnd.GoesOn (fresh : Bool) (acts : List CallerAct) (s : State) : BlockEnd → Prop
  | .done _ _ => True
  | .held rest _ t => rest.length < acts.length ∨ (rest.length = acts.length ∧ (fresh = true → SameTurn s t))
  | .raised _ _ _ => True
  | .over t => OverFrom s.pc t

/-- Where the steps before those left `pc`, what is left of a block goes on as part of the whole. -/
theorem BlockEnd.GoesOn.cons {fresh : Bool} {a : CallerAct} {rest : List CallerAct} {s s' : State} {e : BlockEnd}
    (h : e.GoesOn false rest s') (pc : s'.pc = s.pc) : e.GoesOn fresh (a :: rest) s := by
  match e, h with
  | .done _ _, _ => trivial
  | .held _ _ _, .inl lt => exact .inl (Nat.lt_succ_of_lt lt)
  | .held _ _ _, .inr ⟨eq, _⟩ => exact .inl (Nat.lt_succ_of_le eq.le)
  | .raised _ _ _, _ => trivial
  | .over t, h => exact show OverFrom s.pc t from pc ▸ h

theorem runBlock_goesOn (fresh : Bool) (acts : List CallerAct) (t : Temps) (s : State) :
    (runBlock P fresh acts t s).GoesOn fresh acts s := by
  induction acts generalizing fresh t s with
  | nil => trivial
  | cons a rest ih =>
    have found : (if fresh then s else interleave P s).pc = s.pc := by
      split
      · rfl
      · exact (interleave_frame P s).pc
    have pc := runAct_pcFrom (P := P) a t (if fresh then s else interleave P s)
    have left := runAct_goesOn (P := P) a t (if fresh then s else interleave P s)
    unfold runBlock
    split <;> rename_i e <;> rw [e] at left pc
    · exact (ih false _ _).cons (Eq.trans pc found)
    · refine .inr ⟨rfl, fun hf => ?_⟩
      rwa [if_pos hf] at left
    · trivial
    · rwa [ActEnd.GoesOn, found] at left

/-- How much an operation still has to do: its caller steps and its blocks. -/
def stepsLeft (blocks : List (List CallerAct)) : Nat := blocks.flatten.length + blocks.length

/-- How much the operation in progress still has to do; one that has not started, without limit. -/
def opSteps : Option Progress → ℕ∞
  | none => ⊤
  | some p => stepsLeft p.blocks

/-- What becomes of an operation with so many steps left: it is over, it raises, it holds with fewer, or it holds with as
many and, where a machine step began with it, at the same turn of the schedule. -/
inductive GoesOn (left : ℕ∞) (fresh : Bool) (s t : State) : Prop where
  | ended (h : OverFrom s.pc t)
  | raised (h : t.err ≠ .ok)
  | shorter (pc : t.pc = s.pc) (h : opSteps t.op < left)
  | again (pc : t.pc = s.pc) (h : opSteps t.op = left) (turn : fresh = true → SameTurn s t)

/-- What goes on with fewer steps left goes on as part of what had more. -/
theorem GoesOn.of_lt {left left' : ℕ∞} {fresh fresh' : Bool} {s s' t : State} (h : GoesOn left' fresh' s' t)
    (lt : left' < left) (pc : s'.pc = s.pc) : GoesOn left fresh s t := by
  cases h with
  | ended h => exact .ended (pc ▸ h)
  | raised h => exact .raised h
  | shorter hpc h => exact .shorter (hpc.trans pc) (h.trans lt)
  | again hpc h => exact .shorter (hpc.trans pc) (h.trans_lt lt)

theorem runBlocks_goesOn (fresh : Bool) (blocks : List (List CallerAct)) (first : Err) (t : Temps) (s : State) :
    GoesOn (stepsLeft blocks) fresh s (runBlocks P fresh blocks first t s) := by
  induction blocks generalizing fresh first t s with
  | nil =>
    unfold runBlocks finish
    split
    next => exact .ended (.inr rfl)
    next h => exact .raised h
  | cons b bs ih =>
    have fewer : (stepsLeft bs : ℕ∞) < stepsLeft (b :: bs) := by
      simp only [stepsLeft, List.flatten_cons, List.length_append, List.length_cons, Nat.cast_lt]
      omega
    have pc := runBlock_pcFrom (P := P) fresh b t s
    have left := runBlock_goesOn (P := P) fresh b t s
    unfold runBlocks
    split <;> rename_i e <;> rw [e] at left pc
    · exact (ih _ _ _ _).of_lt fewer pc
    · exact (ih _ _ _ _).of_lt fewer pc
    · rcases left with lt | ⟨eq, turn⟩
      · refine .shorter pc (Nat.cast_lt.2 ?_)
        simp only [stepsLeft, List.flatten_cons, List.length_append, List.length_cons]
        omega
      · refine .again pc (congrArg Nat.cast ?_) turn
        simp only [stepsLeft, List.flatten_cons, List.length_append, List.length_cons, eq]
    · exact .ended left

/-- QEN has no poll to hold at (R101). -/
theorem runOperation_enable_over (c n : Word) (s : State) : OverFrom s.pc (runOperation P [enableActs c n] s) := by
  have turn := (interleave_frame P { s with
    ctrl := ctrlOfWord P c, cmdFifo := if invSet P c then [] else s.cmdFifo }).pc
  refine .inr ?_
  simp only [runOperation, runBlocks, enableActs]
  rw [runBlock_cons_ok rfl, runBlock_cons_ok rfl]
  exact congrArg (· + 1) turn

theorem exec_goesOn {i : Instr} {s t : State} (e : exec i s = .next t) : GoesOn (opSteps s.op) true s t := by
  cases exec_effect e with
  | started h =>
    cases hop : s.op with
    | none => exact (runBlocks_goesOn true _ .ok .start s).of_lt (ENat.natCast_lt_top _) rfl
    | some p =>
      have resumed {u : State} (e : exec i s = .next u) (hi : i.mnemonic ∈ [.QDIS, .QPUSH, .QWAIT, .REGWR, .PWRON,
          .PWROFF, .CALIB, .BRINGUP]) : GoesOn (opSteps (some p)) true s u := by
        rw [exec_of_held hop hi, Host.Outcome.next.injEq] at e
        exact e ▸ runBlocks_goesOn true p.blocks p.first p.temps s
      cases h with
      | qen rs1 rs2 c n => exact .ended (runOperation_enable_over c n s)
      | qdis | qpush | qwait | regwr | pwron | pwroff | calib | bringup => exact resumed e (by simp [Instr.mnemonic])
  | resumed hp =>
    rw [hp]
    exact runBlocks_goesOn true _ _ _ s
  | refused => exact .ended (.inl rfl)
  | degenerate => exact .raised nofun
  | unwritten | popped | underflow | calculated | loaded => exact .ended (.inr rfl)

/-! ### The engine is weakly fair -/

/-- The machine comes to where an engine step is taken, where none is enabled, or where the run is refused. -/
def EngineGetsItsTurn (s : State) : Prop :=
  ∃ t, Reaches s t ∧ (EngineMoves Config.params t ∨ engineStep Config.params t = none ∨ t.refused = true)

theorem EngineGetsItsTurn.of_step {s t : State} (h : step s = .next t) : EngineGetsItsTurn t → EngineGetsItsTurn s :=
  fun ⟨u, r, hu⟩ => ⟨u, .step h r, hu⟩

theorem engineGetsItsTurn_of_refused {s : State} (h : s.refused = true) : EngineGetsItsTurn s :=
  ⟨s, .refl s, .inr (.inr h)⟩

/-- Where the caller is done, the next machine step is an engine step, if one is enabled (R258). -/
theorem engineGetsItsTurn_of_callerDone {s : State} (h : s.err ≠ .ok ∨ s.program[s.pc]? = none) :
    EngineGetsItsTurn s := by
  cases hr : s.refused with
  | true => exact engineGetsItsTurn_of_refused hr
  | false =>
    refine ⟨s, .refl s, ?_⟩
    cases enabled : engineStep Config.params s with
    | none => exact .inr (.inl rfl)
    | some u =>
      refine .inl (.inl ⟨u, enabled, ?_⟩)
      rcases h with he | hp
      · simp only [step, hr, he, engineOnly, enabled, ne_eq, not_false_eq_true, if_true, Bool.false_eq_true, if_false]
      · simp only [step, hr, hp, engineOnly, enabled, ite_self, Bool.false_eq_true, if_false]

/-- Every instruction answers a next state. -/
theorem exec_next (i : Instr) (s : State) : ∃ t, exec i s = .next t := by
  cases i <;> exact ⟨_, rfl⟩

/-- The caller's operation runs in a turn without an engine step, or the engine gets its turn: nothing is left for the
caller to do, or its next word is refused. -/
theorem engineGetsItsTurn_or_exec (s : State) (h : (drawEngineSteps s).1 = 0) :
    EngineGetsItsTurn s ∨ ∃ i t, s.pc < s.program.length ∧
      exec i { s with oracle := (drawEngineSteps s).2.oracle } = .next t ∧ step s = .next t := by
  by_cases hr : s.refused = true
  · exact .inl (engineGetsItsTurn_of_refused hr)
  by_cases he : s.err = .ok
  · have hr := eq_false_of_ne_true hr
    cases hp : s.program[s.pc]? with
    | none => exact .inl (engineGetsItsTurn_of_callerDone (.inr hp))
    | some w =>
      cases hd : decode w with
      | error r =>
        have refuses : step s = .next s.markRefused := by simp [step, hr, he, hp, hd]
        exact .inl (.of_step refuses (engineGetsItsTurn_of_refused rfl))
      | ok i =>
        obtain ⟨t, ht⟩ := exec_next i { s with oracle := (drawEngineSteps s).2.oracle }
        refine .inr ⟨i, t, (List.getElem?_eq_some_iff.1 hp).1, ht, step_exec hr he hp hd ?_⟩
        rwa [interleave_of_no_steps h]
  · exact .inl (engineGetsItsTurn_of_callerDone (.inl he))

/-- How much the caller still has to do: the program's operations, then the steps of the one in progress. -/
def callerLeft (s : State) : ℕ ×ₗ ℕ∞ := toLex (s.program.length - s.pc, opSteps s.op)

theorem engineGetsItsTurn (s : State) : EngineGetsItsTurn s := by
  induction hk : callerLeft s using WellFoundedLT.induction generalizing s with
  | ind k ih =>
    refine turn_induct (C := fun s => callerLeft s = k → EngineGetsItsTurn s) (fun s n moves _ => ?_)
      (fun s waits next hs => ?_) s hk
    · cases enabled : engineStep Config.params s with
      | none => exact ⟨s, .refl s, .inr (.inl enabled)⟩
      | some u => exact ⟨s, .refl s, .inl (engineMoves_of_turn moves enabled)⟩
    · obtain done | ⟨i, t, hpc, ht, hstep⟩ := engineGetsItsTurn_or_exec s waits
      · exact done
      · subst hs
        have program : t.program = s.program := (otherOperationsWriteNoHostVariable i _ t ht).1
        refine .of_step hstep ?_
        cases exec_goesOn ht with
        | ended h =>
          rcases h with refused | pc
          · exact engineGetsItsTurn_of_refused refused
          · refine ih _ (Prod.Lex.toLex_lt_toLex.2 (.inl ?_)) t rfl
            simp only [program, pc]
            omega
        | raised h => exact engineGetsItsTurn_of_callerDone (.inl h)
        | shorter pc h =>
          refine ih _ (Prod.Lex.toLex_lt_toLex.2 (.inr ⟨?_, h⟩)) t rfl
          simp only [program, pc]
        | again pc h turn =>
          obtain ⟨sched, turns⟩ := turn rfl
          refine next t sched turns ?_
          simp only [callerLeft, program, pc, h]

/-- Settles O20: while an operation holds, turns of the schedule follow one another until one has an engine step; what it
has to do and what the program has after it are bounded, and once the caller is done the engine goes on alone. -/
theorem engineIsWeaklyFair : Obligations.EngineIsWeaklyFair := engineGetsItsTurn

end Sys2Proof.Machine
end

section
/-! PROOF. The waits that an engine step ends, under the fair engine (R150, R270). -/

namespace Sys2Proof.Machine

open Sys2Proof.Safety

variable {P : Params}

/-! ### A held operation and the schedule -/

/-- The state with an operation of one block held at its first poll, and the model's record of answers as given: what
turns without an engine step make of a state where that poll fails. -/
def State.heldAt (s : State) (acts : List CallerAct) (temps : Temps) (o : Oracle) : State :=
  { s with op := some ⟨[acts], .ok, temps⟩, oracle := o }

/-- A failed poll holds the operation again, or raises at the bound (R16). -/
theorem afterFailedPoll_cases (P : Params) (acts : List CallerAct) (temps : Temps) (raised : Nat → Err) (s : State) :
    (∃ temps', afterFailedPoll P acts temps raised s = s.heldAt acts temps' s.oracle) ∨
      ∃ k, P.pollBound = some k ∧
        afterFailedPoll P acts temps raised s = { s with op := none, err := raised (temps.polls + 1) } := by
  unfold afterFailedPoll
  cases hb : P.pollBound with
  | none => exact .inl ⟨temps, rfl⟩
  | some k =>
    dsimp only
    split
    · exact .inl ⟨_, rfl⟩
    · exact .inr ⟨k, rfl, rfl⟩

/-- What the caller is at: the instruction at `pc` runs next, in a run that goes on. -/
def RunsNext (s : State) (i : Instr) : Prop :=
  s.refused = false ∧ s.err = .ok ∧ ∃ word, s.program[s.pc]? = some word ∧ decode word = .ok i

theorem RunsNext.step {s t : State} {i : Instr} (h : RunsNext s i) (e : exec i (interleave Config.params s) = .next t) :
    Machine.step s = .next t := by
  obtain ⟨hr, he, word, hp, hd⟩ := h
  exact step_exec hr he hp hd e

theorem WaitEnds.of_step {s t : State} {raised : Err → Prop} (h : Machine.step s = .next t) (pc : t.pc = s.pc) :
    WaitEnds P t raised → WaitEnds P s raised := by
  rintro ⟨u, reaches, ends⟩
  exact ⟨u, .step h reaches, pc ▸ ends⟩

/-- The instruction completes: `pc` moves on and the error cell stays (R21). -/
def Completes (i : Instr) (s : State) : Prop :=
  ∃ t, exec i s = .next t ∧ t.op = none ∧ t.pc = s.pc + 1 ∧ t.err = s.err

/-- An operation held at its first poll comes to an end where an engine step is enabled, the operation completes after any
engine steps and, without one, its poll fails: the fair schedule has a turn with an engine step (R150), or the poll bound
comes first. -/
theorem waitEnds_of_turn {s : State} {i : Instr} {acts : List CallerAct} {raised : Nat → Err} {temps : Temps}
    (hs : RunsNext s i) (hop : s.op = some ⟨[acts], .ok, temps⟩)
    (enabled : ∀ temps o, ∃ u, engineStep Config.params (s.heldAt acts temps o) = some u)
    (completes : ∀ temps o u n, engineStep Config.params (s.heldAt acts temps o) = some u →
      (engineRun Config.params n u).op = some ⟨[acts], .ok, temps⟩ → Completes i (engineRun Config.params n u))
    (fails : ∀ temps o, ∃ o', o'.sched = o.sched ∧ o'.turns = o.turns ∧
      exec i (s.heldAt acts temps o) = .next (afterFailedPoll Config.params acts temps raised (s.heldAt acts temps o'))) :
    WaitEnds Config.params s fun e => ∃ k, e = raised k := by
  have held (u : State) : ∀ temps o, u = s.heldAt acts temps o → WaitEnds Config.params u fun e => ∃ k, e = raised k := by
    refine turn_induct (C := fun u => ∀ temps o, u = s.heldAt acts temps o →
      WaitEnds Config.params u fun e => ∃ k, e = raised k) ?_ ?_ u
    · rintro _ n moves temps o rfl
      have runs : RunsNext (s.heldAt acts temps o) i := hs
      obtain ⟨-, -, -, -, pc, err, -, op⟩ := interleave_frame Config.params (s.heldAt acts temps o)
      obtain ⟨_, enabled⟩ := enabled temps o
      obtain ⟨o', v, -, first, run⟩ := interleave_moves moves enabled
      rw [run] at pc err op
      obtain ⟨t, ht, top, tpc, terr⟩ := completes temps o' v n first op
      rw [← run] at ht
      exact ⟨t, .step (runs.step ht) (.refl t), top,
        .inl ⟨tpc.trans (congrArg (· + 1) pc), terr.trans (err.trans hs.2.1)⟩⟩
    · rintro _ waits next temps o rfl
      have runs : RunsNext (s.heldAt acts temps o) i := hs
      obtain ⟨o', sched, turns, failed⟩ := fails temps (drawEngineSteps (s.heldAt acts temps o)).2.oracle
      have turn : interleave Config.params (s.heldAt acts temps o) = s.heldAt acts temps _ := interleave_of_no_steps waits
      rw [← turn] at failed
      rcases afterFailedPoll_cases Config.params acts temps raised (s.heldAt acts temps o') with
        ⟨temps', e⟩ | ⟨k, bound, e⟩ <;> rw [e] at failed
      · exact WaitEnds.of_step (runs.step failed) rfl (next _ sched turns temps' o' rfl)
      · exact ⟨_, .step (runs.step failed) (.refl _), rfl, .inr ⟨rfl, ⟨k, bound⟩, _, rfl⟩⟩
  exact held s temps s.oracle (by rw [State.heldAt, ← hop])

/-! ### The three waits -/

/-- With a command in progress, whether an engine step is enabled does not depend on the operation that holds or on the
model's record of answers. -/
theorem engineStep_heldAt {s u : State} {w : Word} (hw : s.busy = some w) (h : engineStep P s = some u)
    (acts : List CallerAct) (temps : Temps) (o : Oracle) : ∃ v, engineStep P (s.heldAt acts temps o) = some v := by
  cases e : engineStep P (s.heldAt acts temps o) with
  | some v => exact ⟨v, rfl⟩
  | none =>
    have none := engineStep_none_congr (s := s.heldAt acts temps o) (t := s) hw rfl rfl rfl e
    rw [h] at none
    cases none

/-- A QPUSH held on four commands of an enabled idle queue: one engine step takes a command and leaves room (R111, R140). -/
theorem waitEnds_push {s : State} {rs1 : HostVar} {w : Word} {temps : Temps} (hs : RunsNext s (.qpush rs1))
    (hop : s.op = some ⟨[pushActs (.word w)], .ok, temps⟩) (hfull : s.cmdFifo.length = 4) (hb : s.busy = none)
    (hm : s.ctrl.mode ≠ .disabled) : WaitEnds Config.params s fun e => ∃ k, e = .timeoutPush k w := by
  have hP := Config.params_lawful
  have waiting : s.cmdFifo ≠ [] := List.ne_nil_of_length_pos (by rw [hfull]; decide)
  refine waitEnds_of_turn hs hop (fun temps o => ?_) (fun temps o u n first op => ?_) fun temps o => ⟨o, rfl, rfl, ?_⟩
  · exact (engineTakesTheHead _ hP (s.heldAt _ temps o) hb).1.2 ⟨hm, waiting⟩
  · have taken : u.cmdFifo.length + 1 = s.cmdFifo.length := ((engineStepsAreMonotone _ hP _ u first).1 hb).1
    have fewer := (engineRun_monotone (P := Config.params) n u).1
    exact ⟨_, pushAppendsTheWord.1 _ rs1 w (.inr ⟨temps, op⟩) (by omega), rfl, rfl, (interleave_frame _ _).err⟩
  · exact pushHoldsWhenFourAreOutstanding (s.heldAt _ temps o) (.qpush rs1) (.word w) _ temps hfull
      (.inr ⟨by simp [Instr.mnemonic], rfl⟩)

/-- A QDIS held on a command that can complete: one engine step leaves the disabled queue idle (R103, R141). -/
theorem waitEnds_disable {s u : State} {w : Word} {temps : Temps} (hs : RunsNext s .qdis)
    (hop : s.op = some ⟨[(disableActs Config.params).drop 2], .ok, temps⟩) (hm : s.ctrl.mode = .disabled)
    (hw : s.busy = some w) (hk : Config.params.decodeCmd w ≠ .unknown) (enabled : engineStep Config.params s = some u) :
    WaitEnds Config.params s fun e => ∃ k, e = .timeoutIdle k := by
  refine waitEnds_of_turn hs hop (engineStep_heldAt hw enabled _) (fun temps o u n first op => ?_) fun temps o => ?_
  · have idle : u.busy = none := engineStep_retires (s := s.heldAt _ temps o) hw hk first
    have mode : u.ctrl.mode = .disabled := (congrArg Ctrl.mode (engineStep_frame first).ctrl).trans hm
    rw [engineRun_of_none (engineStep_quiescent idle (.inl mode))] at op ⊢
    obtain ⟨o', done⟩ := runBlocks_disable_idle Config.params_lawful .ok temps idle mode
    exact ⟨_, exec_of_held op (by decide), by rw [done]; exact ⟨rfl, rfl, rfl⟩⟩
  · obtain ⟨o', sched, turns, poll⟩ := runAct_holdIdle_fail Config.params_lawful temps (s := s.heldAt _ temps o) hw
    exact ⟨o', sched, turns, (exec_of_held rfl (by decide)).trans
      (congrArg Host.Outcome.next (runBlocks_first_pollFailed poll fun _ => nofun))⟩

/-- A QWAIT held one response short of its count, with a command in progress that can answer: one engine step appends the
response (R115, R142). -/
theorem waitEnds_wait {s u : State} {imm : BitVec 16} {w : Word} {temps : Temps} (hs : RunsNext s (.qwait imm))
    (hop : s.op = some ⟨[waitActs Config.params imm.toNat], .ok, temps⟩) (hn : imm.toNat = s.respFifo.length + 1)
    (hw : s.busy = some w) (hk : producesResponse Config.params w = true)
    (enabled : engineStep Config.params s = some u) :
    WaitEnds Config.params s fun e => ∃ k, e = .timeoutResponse k imm.toNat s.respFifo.length := by
  obtain ⟨room, -⟩ := engineStep_answers hw hk enabled
  refine waitEnds_of_turn hs hop (raised := fun k => .timeoutResponse k imm.toNat s.respFifo.length)
    (engineStep_heldAt hw enabled _) (fun temps o u n first op => ?_) fun temps o => ⟨o, rfl, rfl, ?_⟩
  · obtain ⟨-, e, answered⟩ := engineStep_answers (s := s.heldAt _ temps o) hw hk first
    have count : u.respFifo.length = imm.toNat := by rw [answered, hn]; exact List.length_append
    have depth := engineRun_respDepth (P := Config.params) n (s := u) (by rw [count, hn]; exact room)
    obtain ⟨-, l, more⟩ := engineRun_monotone (P := Config.params) n u
    have enough : imm.toNat ≤ (engineRun Config.params n u).respFifo.length := by
      rw [more, List.length_append, count]
      exact Nat.le_add_right _ _
    exact ⟨_, (waitClearsEveryFlag _ imm (.inr ⟨temps, op⟩) enough depth).1, rfl, rfl, (interleave_frame _ _).err⟩
  · exact waitHoldsWhileResponsesAreMissing (s.heldAt _ temps o) (.qwait imm) imm.toNat _ temps
      (by rw [hn]; exact Nat.lt_succ_self _) room.le (.inr ⟨by simp [Instr.mnemonic], rfl⟩)

/-- Settles O43: each of the three polls passes once an engine step has fallen, and the fair schedule has a turn with one. -/
theorem fairEngineEndsTheWaits : Obligations.FairEngineEndsTheWaits := by
  intro s word cw i temps hr he hp hd
  have hs : RunsNext s i := ⟨hr, he, word, hp, hd⟩
  refine ⟨fun rs1 w hi hop hfull hb hm => ?_, fun hi hop hm hw hk ⟨u, enabled⟩ => ?_,
    fun imm hi hop hn hw hk ⟨u, enabled⟩ => ?_⟩ <;> subst hi
  · exact waitEnds_push hs hop hfull hb hm
  · exact waitEnds_disable hs hop hm hw hk enabled
  · exact waitEnds_wait hs hop hn hw hk enabled

end Sys2Proof.Machine
end

section
/-! PROOF. The calibration datapath (R171 to R178): the gain and the scaled product as natural numbers, the offset modulo
2^16, and CALC on a degenerate pair and on one that is not. -/

namespace Sys2Proof.Machine

/-! ### The gain, the scaled product and the offset -/

theorem codeOf_toNat (e : Word) : (codeOf e).toNat = e.toNat % 65536 := BitVec.toNat_setWidth 16 e

/-- Under the guard the divisor does not wrap (R173), so the gain is the quotient itself (R174). -/
theorem calGain_toNat {r25 r75 : BitVec 16} (h : r25.toNat < r75.toNat) :
    (calGain r25 r75).toNat = 134217728 / (r75.toNat - r25.toNat) := by
  have divisor : (r75.setWidth 32 - r25.setWidth 32).toNat = r75.toNat - r25.toNat := by bv_omega
  rw [calGain, BitVec.toNat_udiv, divisor]
  rfl

/-- The product is taken modulo 2^32 and loses its low 14 bits (R175). -/
theorem calScaled_toNat (r25 r75 : BitVec 16) :
    (calScaled r25 r75).toNat = (calGain r25 r75).toNat * r75.toNat % 4294967296 / 16384 := by
  have code : (r75.setWidth 32).toNat = r75.toNat := BitVec.toNat_setWidth_of_le (by decide)
  rw [calScaled, BitVec.toNat_ushiftRight, BitVec.toNat_mul, code, Nat.shiftRight_eq_div_pow]
  rfl

/-- The offset over the integers: the difference wraps modulo 2^16, whatever its sign (R176). -/
theorem calOffset_toNat (r25 r75 : BitVec 16) :
    ((calOffset r25 r75).toNat : Int) = (12286 - ((calScaled r25 r75).toNat : Int)) % 65536 := by
  have bound := (calScaled r25 r75).isLt
  simp only [calOffset, Config.offsetK, BitVec.toNat_setWidth, BitVec.toNat_sub, BitVec.toNat_ofNat]
  omega

/-- Settles O51: the divisor lies between 1 and 65535, and a power of two divides 2^27. -/
theorem gainIsTheFloorAndStaysInRange : Obligations.GainIsTheFloorAndStaysInRange := by
  intro r25 r75 h
  rw [calGain_toNat h]
  have small : r75.toNat - r25.toNat ≤ 65535 := (Nat.sub_le _ _).trans (Nat.le_of_lt_succ r75.isLt)
  have lower : 134217728 / 65535 ≤ 134217728 / (r75.toNat - r25.toNat) := Nat.div_le_div_left small (Nat.sub_pos_of_lt h)
  refine ⟨rfl, lower, Nat.div_le_self _ _, fun j hj hd => ?_⟩
  rw [hd]
  exact Nat.pow_div (x := 2) (m := 27) (hj.trans (by decide)) (by decide)

/-! ### The width of the product -/

/-- Dropping the low 14 bits of a product taken modulo `2^width` leaves the unbounded one modulo `2^(width-14)`. -/
theorem scaled_mod_width (n : Nat) {width : Nat} (h : 14 ≤ width) :
    n % 2 ^ width / 16384 = n / 16384 % 2 ^ (width - 14) := by
  rw [← Nat.mod_mul_right_div_self, show 16384 = 2 ^ 14 from rfl, ← Nat.pow_add, Nat.add_sub_cancel' h]

/-- From 30 bits on, what the product's wrap changes in the offset is a multiple of 2^16 (R178). -/
theorem offset_mod_width (n : Nat) {width : Nat} (h : 30 ≤ width) :
    (12286 - ((n % 2 ^ width / 16384 : Nat) : Int)) % 65536 = (12286 - ((n / 16384 : Nat) : Int)) % 65536 := by
  have divides : 65536 ∣ 2 ^ (width - 14) := Nat.pow_dvd_pow 2 (by omega : 16 ≤ width - 14)
  have same : n % 2 ^ width / 16384 % 65536 = n / 16384 % 65536 := by
    rw [scaled_mod_width n (by omega), Nat.mod_mod_of_dvd _ divides]
  omega

/-- Settles O52: the model's product has 32 bits, and every width from 30 on gives the offset of the unbounded product. -/
theorem offsetDoesNotDependOnTheProductWidth : Obligations.OffsetDoesNotDependOnTheProductWidth := by
  intro r25 r75 _
  have unbounded : ((calOffset r25 r75).toNat : Int) =
      (12286 - (((calGain r25 r75).toNat * r75.toNat / 16384 : Nat) : Int)) % 65536 := by
    rw [calOffset_toNat, calScaled_toNat]
    exact offset_mod_width _ (width := 32) (by decide)
  exact ⟨fun width hw => ⟨scaled_mod_width _ (by omega), unbounded.trans (offset_mod_width _ hw).symm⟩, unbounded⟩

/-! ### CALC -/

theorem withVar_of_some {s : State} {i : HostVar} {v : Word} (h : readVar s i = some v) (k : Word → State) :
    withVar s i k = k v := by
  simp only [withVar, h]

/-- With both inputs written, CALC is its guard and the two ends of it (R171, R172). -/
theorem exec_calcGain_of_some {s : State} {rs1 rs2 : HostVar} {a b : Word} (ha : readVar s rs1 = some a)
    (hb : readVar s rs2 = some b) (rd rd2 : HostVar) :
    exec (.calcGain rd rd2 rs1 rs2) s =
      .next (if b.toNat % 65536 ≤ a.toNat % 65536 then s.raiseError (.degenerate (codeOf a) (codeOf b))
        else (writeVar (writeVar s rd (calGain (codeOf a) (codeOf b))) rd2
          ((calOffset (codeOf a) (codeOf b)).setWidth 32)).complete) := by
  simp only [exec, execCalc, calcOp, withVar_of_some ha, withVar_of_some hb, degenerate, decide_eq_true_eq, codeOf_toNat]

/-- Settles O50: the guard holds, and it looks at the low halves only. -/
theorem calcRaisesOnADegeneratePair : Obligations.CalcRaisesOnADegeneratePair := by
  intro s rd rd2 rs1 rs2 a b ha hb h
  refine ⟨?_, codeOf_toNat a, codeOf_toNat b⟩
  rw [exec_calcGain_of_some ha hb, if_pos h]
  rfl

/-- Settles O49: the guard fails, and the two words written are those of the formulas. -/
theorem calcWritesGainThenOffset : Obligations.CalcWritesGainThenOffset := by
  intro s rd rd2 rs1 rs2 a b ha hb h
  have gain := calGain_toNat (r25 := codeOf a) (r75 := codeOf b) (by rw [codeOf_toNat, codeOf_toNat]; exact h)
  have offset := calOffset_toNat (codeOf a) (codeOf b)
  rw [codeOf_toNat, codeOf_toNat] at gain
  rw [calScaled_toNat, codeOf_toNat] at offset
  rw [exec_calcGain_of_some ha hb, if_neg (Nat.not_le_of_lt h), ← gain, ← offset, Int.toNat_natCast, BitVec.ofNat_toNat,
    BitVec.ofNat_toNat, BitVec.setWidth_eq]
  rfl

end Sys2Proof.Machine
end

section
/-! PROOF. The client sequences (R190 to R201): the pushes of REGWR, PWRON and PWROFF whatever the schedule, and CALIB under
an eager engine. -/

namespace Sys2Proof.Machine

open Sys2Proof.Safety

variable {P : Params}

/-! ### The pushes of REGWR, PWRON and PWROFF -/

/-- Settles O53: at its start or where it holds, REGWR is the push of its encoded write, and there is room. -/
theorem registerWriteIsEnqueued : Obligations.RegisterWriteIsEnqueued := by
  intro s u r rs1 v hs hroom
  have push (t : Temps) := runBlocks_push_room Config.params_lawful (Config.params.encWrite u r v) t hroom
  rcases hs with ⟨hs, hr, hv⟩ | ⟨temps, hs⟩
  · rw [exec_of_pushStart hs (acts := pushActs (.word (Config.params.encWrite u r v)))
      (by simp [pushStart, regInSet, hr, hv]), push]
  · rw [exec_of_held hs (by simp [Instr.mnemonic]), push]

/-- A push that ends its operation, where its poll comes first: the poll finds room, or it fails (R111, R112). -/
theorem runBlocks_push_cases (hP : P.Lawful) (w : Word) (t : Temps) {s : State} (h : s.cmdFifo.length ≤ 4) :
    runBlocks P true [pushActs (.word w)] .ok t s =
      if s.cmdFifo.length < 4 then
        { interleave P s with cmdFifo := (interleave P s).cmdFifo ++ [w], op := none, pc := s.pc + 1 }
      else afterFailedPoll P (pushActs (.word w)) t (fun k => .timeoutPush k w) s := by
  split
  next room => exact runBlocks_push_room hP w t room
  next full =>
    have full : s.cmdFifo.length = 4 := by omega
    exact runBlocks_first_pollFailed (runAct_holdPush_fail hP (.word w) t full) fun _ => nofun

/-- Two pushes with room for the first: the second is one that starts after the engine's turn (R192, R194). -/
theorem runBlocks_push_then_push (hP : P.Lawful) (w w' : Word) (t : Temps) {s : State} (h : s.cmdFifo.length < 4) :
    runBlocks P true [pushActs (.word w) ++ pushActs (.word w')] .ok t s =
      runBlocks P true [pushActs (.word w')] .ok { t with polls := 0 }
        (interleave P { interleave P s with cmdFifo := (interleave P s).cmdFifo ++ [w] }) :=
  runBlocks_cons_congr [] .ok
    ((runBlock_pushActs_fresh hP (.word w) _ t h).trans (runBlock_cons_fresh false _ _ _ _))

/-- PWRON and PWROFF start with the two control writes of their value (R192, R194). -/
theorem pushStart_power {i : Instr} {v : Word}
    (h : (i = .pwron ∧ v = P.prescale ||| P.enBit) ∨ (i = .pwroff ∧ v = P.prescale)) (s : State) :
    pushStart P s i = some (writeNamed P .A .cr v ++ writeNamed P .B .cr v) := by
  rcases h with ⟨rfl, rfl⟩ | ⟨rfl, rfl⟩ <;> rfl

/-- Settles O55: the first push has room; the second starts after the engine's turn, at its poll. -/
theorem powerOperationsPushAThenB : Obligations.PowerOperationsPushAThenB := by
  have hP := Config.params_lawful
  rintro s i v wA wB temps hi rfl rfl
  have holds : i.mnemonic ∈ [.QDIS, .QPUSH, .QWAIT, .REGWR, .PWRON, .PWROFF, .CALIB, .BRINGUP] := by
    rcases hi with ⟨rfl, -⟩ | ⟨rfl, -⟩ <;> decide
  refine ⟨fun hs => ⟨_, _, rfl, rfl, ?_⟩, fun hs hroom => ?_⟩
  · generalize hs1 : ({ interleave Config.params s with cmdFifo := _ } : State) = s1
    have len1 : s1.cmdFifo.length ≤ s.cmdFifo.length + 1 := by
      simpa [← hs1] using interleave_cmdFifo_le Config.params s
    have len2 := interleave_cmdFifo_le Config.params s1
    refine ⟨fun hfew => by omega, fun hroom => ?_⟩
    have hrun : exec i s = .next (runBlocks Config.params true
        [writeNamed Config.params .A .cr v ++ writeNamed Config.params .B .cr v] .ok temps s) := by
      rcases hs with ⟨hs, rfl⟩ | hs
      · exact exec_of_pushStart hs (pushStart_power hi s)
      · exact exec_of_held hs holds
    have hpc : (interleave Config.params s1).pc = s.pc :=
      (interleave_frame _ s1).pc.trans (hs1 ▸ (interleave_frame _ s).pc)
    rw [hrun, writeNamed, writeNamed, runBlocks_push_then_push hP _ _ _ hroom, hs1,
      runBlocks_push_cases hP _ _ (by omega), hpc]
  · rw [exec_of_held hs holds, runBlocks_push_room hP _ _ hroom]

/-! ### The converter registers after the corrections -/

/-- Of the named registers, a write reaches its own only (R10, R141). -/
theorem convRead_convWrite_named (hP : P.Lawful) (u w : ConvUnit) (m n : NamedReg) (v : Word) (f : ConvFile) :
    convRead P w (P.reg n) (convWrite P u (P.reg m) v f) =
      if u = w ∧ m = n then v else convRead P w (P.reg n) f := by
  split
  next h =>
    obtain ⟨rfl, rfl⟩ := h
    exact convRead_convWrite_same ..
  next h => exact convRead_convWrite_other _ _ _ _ _ _ _ fun ⟨hu, hr⟩ => h ⟨hu, hP.reg_injective _ _ hr⟩

/-- A write to a named register leaves every other register, and the other unit's, alone (R141). -/
theorem convRead_convWrite_of_ne {u w : ConvUnit} {n : NamedReg} {q : RegIndex} (v : Word) (f : ConvFile)
    (h : w ≠ u ∨ q ≠ P.reg n) : convRead P w q (convWrite P u (P.reg n) v f) = convRead P w q f :=
  convRead_convWrite_other _ _ _ _ _ _ _ fun ⟨hu, hq⟩ => h.elim (· hu.symm) (· hq.symm)

theorem convRead_fiveCorrections_gain (hP : P.Lawful) (u : ConvUnit) (gain offset : Word) (f : ConvFile)
    (m : PrecMode) :
    convRead P u (P.reg (.gcc m)) (fiveCorrections P u gain offset f) = Word.trunc P.payloadW gain := by
  cases m <;> simp [fiveCorrections, convRead_convWrite_named hP]

theorem convRead_fiveCorrections_offset (hP : P.Lawful) (u : ConvUnit) (gain offset : Word) (f : ConvFile)
    {m : PrecMode} (hm : m ≠ .alt2) :
    convRead P u (P.reg (.occ m)) (fiveCorrections P u gain offset f) = Word.trunc P.payloadW offset := by
  cases m
  case alt2 => exact absurd rfl hm
  all_goals simp [fiveCorrections, convRead_convWrite_named hP]

theorem convRead_fiveCorrections_other (u w : ConvUnit) (q : RegIndex) (gain offset : Word) (f : ConvFile)
    (h : w ≠ u ∨ ∀ m, q ≠ P.reg (.gcc m) ∧ q ≠ P.reg (.occ m)) :
    convRead P w q (fiveCorrections P u gain offset f) = convRead P w q f := by
  have gainOther (m : PrecMode) : w ≠ u ∨ q ≠ P.reg (.gcc m) := h.imp_right fun hq => (hq m).1
  have offsetOther (m : PrecMode) : w ≠ u ∨ q ≠ P.reg (.occ m) := h.imp_right fun hq => (hq m).2
  simp only [fiveCorrections, convRead_convWrite_of_ne _ _ (gainOther _), convRead_convWrite_of_ne _ _ (offsetOther _)]

/-! ### CALIB -/

theorem runBlocks_cons_done {fresh : Bool} {b : List CallerAct} {t t' : Temps} {s s' : State}
    (h : runBlock P fresh b t s = .done t' s') (bs : List (List CallerAct)) (first : Err) :
    runBlocks P fresh (b :: bs) first t s = runBlocks P false bs first t' s' := by
  simp only [runBlocks, h]

theorem runBlocks_cons_raised {fresh : Bool} {b : List CallerAct} {e : Err} {t t' : Temps} {s s' : State}
    (h : runBlock P fresh b t s = .raised e t' s') (bs : List (List CallerAct)) (first : Err) :
    runBlocks P fresh (b :: bs) first t s = runBlocks P false bs (firstError first e) t' s' := by
  simp only [runBlocks, h]

/-- Settles O56: the block is done with the sixth write waiting, and the five before it are the corrections. -/
theorem calibrateWritesTheSixCorrections : Obligations.CalibrateWritesTheSixCorrections := by
  intro s u e25 e75 rest hs hm hb hc hl ha h he hg
  have hP := Config.params_lawful
  obtain ⟨f, o, t', -, -, run⟩ := runBlock_calibrate hP true [] .start (.inl ⟨rfl, rfl⟩) h hb hm hc hl ha he hg
  rw [List.append_nil, runBlock] at run
  have done := (runBlocks_cons_done run [] .ok).trans (finish_ok _)
  exact ⟨_, (exec_of_pushStart (i := .calib u) hs rfl).trans (congrArg _ done), rfl, rfl, rfl, rfl, rfl, rfl, rfl, rfl,
    rfl, hl, hb, rfl, convRead_fiveCorrections_gain hP u _ _ _, fun _ => convRead_fiveCorrections_offset hP u _ _ _,
    fun w q => convRead_fiveCorrections_other u w q _ _ _⟩

/-- Settles O57: the block raises at its datapath step, with nothing pushed after the two samples. -/
theorem calibrateOnADegeneratePairWritesNothing : Obligations.CalibrateOnADegeneratePairWritesNothing := by
  intro s u e25 e75 rest hs hm hb hc hl ha h he hg
  obtain ⟨f, o, t', -, -, run⟩ := runBlock_calibrate_degenerate Config.params_lawful true [] .start (.inl ⟨rfl, rfl⟩)
    h hb hm hc hl ha he hg
  rw [List.append_nil] at run
  have raised := (runBlocks_cons_raised run [] .ok).trans (finish_of_ne_ok (e := .degenerate _ _) nofun _)
  exact ⟨_, (exec_of_pushStart (i := .calib u) hs rfl).trans (congrArg _ raised), rfl, rfl, rfl, rfl, rfl, rfl, rfl, rfl,
    rfl, hb, rfl, rfl⟩

end Sys2Proof.Machine
end

section
/-! PROOF. BRINGUP under an eager engine (R203 to R205): a settled queue and the registers its caller steps lead to, then
the clean-up and the two ends of bring-up. -/

namespace Sys2Proof.Machine

open Sys2Proof.Safety

variable {P : Params}

/-! ### A settled queue -/

/-- An enabled queue with nothing in progress and no response waiting. -/
structure Rested (s : State) : Prop where
  mode : s.ctrl.mode ≠ .disabled
  busy : s.busy = none
  respFifo : s.respFifo = []

/-- An eager engine's turn leaves of `s0` the state `s` with an empty command FIFO and the converter registers `f`, and
`answers` still lined up; the flags and the rest of the model's record are left open. -/
def Settles (P : Params) (s s0 : State) (f : ConvFile) (answers : List Word) : Prop :=
  ∃ flags o, o.sched = .eager ∧ o.responses = answers ∧
    interleave P s0 = { s with cmdFifo := [], conv := f, flags := flags, oracle := o }

/-- Whatever caller steps come after them, the steps `acts` are done, and lead a settled queue from the converter
registers `f` to `f'`, and from the answers `es` to `es'`. -/
def Leads (P : Params) (s : State) (acts : List CallerAct) (f : ConvFile) (es : List Word) (f' : ConvFile)
    (es' : List Word) : Prop :=
  ∀ rest t s0, Settles P s s0 f es →
    ∃ s1 t', Settles P s s1 f' es' ∧ runBlock P false (acts ++ rest) t s0 = runBlock P false rest t' s1

/-- Whatever caller steps come after them, the steps `acts` raise `e` and leave a settled queue's converter registers. -/
def Raises (P : Params) (s : State) (acts : List CallerAct) (f : ConvFile) (es : List Word) (e : Err) : Prop :=
  ∀ rest t s0, Settles P s s0 f es →
    ∃ s1 t' es', Settles P s s1 f es' ∧ runBlock P false (acts ++ rest) t s0 = .raised e t' s1

section
variable {s : State} {f f' f'' : ConvFile} {es es' es'' : List Word} {acts acts' : List CallerAct} {e : Err}

theorem leads_nil : Leads P s [] f es f es := fun _ t s0 h => ⟨s0, t, h, rfl⟩

theorem Leads.append (h : Leads P s acts f es f' es') (k : Leads P s acts' f' es' f'' es'') :
    Leads P s (acts ++ acts') f es f'' es'' := by
  intro rest t s0 h0
  obtain ⟨s1, t1, h1, e1⟩ := h (acts' ++ rest) t s0 h0
  obtain ⟨s2, t2, h2, e2⟩ := k rest t1 s1 h1
  exact ⟨s2, t2, h2, by rw [List.append_assoc, e1, e2]⟩

theorem Raises.append (h : Raises P s acts f es e) (acts' : List CallerAct) : Raises P s (acts ++ acts') f es e := by
  intro rest t s0 h0
  rw [List.append_assoc]
  exact h (acts' ++ rest) t s0 h0

theorem Leads.append_raises (h : Leads P s acts f es f es') (k : Raises P s acts' f es' e) :
    Raises P s (acts ++ acts') f es e := by
  intro rest t s0 h0
  obtain ⟨s1, t1, h1, e1⟩ := h (acts' ++ rest) t s0 h0
  rw [List.append_assoc, e1]
  exact k rest t1 s1 h1

/-- An eager engine leaves a queue with nothing to do as it is. -/
theorem settles_of_empty (hs : Rested s) (flags : Word) {o : Oracle} (ho : o.sched = .eager) (he : o.responses = es) :
    Settles P s { s with cmdFifo := [], conv := f, flags := flags, oracle := o } f es :=
  ⟨flags, o, ho, he, interleave_eager_still ho (engineStep_quiescent hs.busy (.inr rfl))⟩

/-- An eager engine completes the one register write that waits. -/
theorem settles_of_write (hP : P.Lawful) (hs : Rested s) (u : ConvUnit) (r : NamedReg) (v flags : Word) {o : Oracle}
    (ho : o.sched = .eager) (he : o.responses = es) :
    Settles P s { s with cmdFifo := [P.encWrite u (P.reg r) v], conv := f, flags := flags, oracle := o }
      (convWrite P u (P.reg r) (Word.trunc P.payloadW v) f) es := by
  obtain ⟨flags', o', ho', he', turn⟩ := interleave_eager_write hP
    (s := { s with cmdFifo := [P.encWrite u (P.reg r) v], conv := f, flags := flags, oracle := o }) ho hs.busy hs.mode u
    (P.reg r) v (hP.reg_in_set r) rfl
  exact ⟨flags', o', ho', he'.trans he, turn⟩

theorem leads_writeNamed (hP : P.Lawful) (hs : Rested s) (u : ConvUnit) (r : NamedReg) {v : Word}
    (hv : Word.trunc P.payloadW v = v) :
    Leads P s (writeNamed P u r v) f es (convWrite P u (P.reg r) v f) es := by
  rintro rest t s0 ⟨flags, o, ho, he, turn⟩
  have settles := settles_of_write (f := f) hP hs u r v flags ho he
  rw [hv] at settles
  exact ⟨_, _, settles, runBlock_pushActs_drained hP _ rest t turn rfl hs.busy ho⟩

/-- The converter registers after the engine has completed all six correction writes (R200). -/
def sixCorrections (P : Params) (u : ConvUnit) (gain offset : Word) (f : ConvFile) : ConvFile :=
  convWrite P u (P.reg (.occ .alt2)) (Word.trunc P.payloadW offset) (fiveCorrections P u gain offset f)

theorem leads_calibrate (hP : P.Lawful) (hs : Rested s) {u : ConvUnit} {a b : Word}
    (hu : unitEnabled P u f = true) (hg : (codeOf a).toNat < (codeOf b).toNat) :
    Leads P s (calibrateActs P u) f (a :: b :: es)
      (sixCorrections P u (calGain (codeOf a) (codeOf b)) ((calOffset (codeOf a) (codeOf b)).setWidth 32) f) es := by
  rintro rest t s0 ⟨flags, o, ho, he, turn⟩
  obtain ⟨flags', o', t', ho', he', run⟩ :=
    runBlock_calibrate hP false rest t (.inr ⟨rfl, turn⟩) ho hs.busy hs.mode rfl hs.respFifo hu he hg
  exact ⟨_, t', settles_of_write hP hs u _ _ flags' ho' he', run⟩

theorem raises_calibrate (hP : P.Lawful) (hs : Rested s) {u : ConvUnit} {a b : Word}
    (hu : unitEnabled P u f = true) (hg : (codeOf b).toNat ≤ (codeOf a).toNat) :
    Raises P s (calibrateActs P u) f (a :: b :: es) (.degenerate (codeOf a) (codeOf b)) := by
  rintro rest t s0 ⟨flags, o, ho, he, turn⟩
  obtain ⟨flags', o', t', ho', he', run⟩ :=
    runBlock_calibrate_degenerate hP false rest t (.inr ⟨rfl, turn⟩) ho hs.busy hs.mode rfl hs.respFifo hu he hg
  exact ⟨_, t', es, settles_of_empty hs flags' ho' he', run⟩

/-! ### The parts of bring-up -/

/-- The converter registers after a write to both control registers (R192, R194). -/
def controlBoth (P : Params) (v : Word) (f : ConvFile) : ConvFile :=
  convWrite P .B (P.reg .cr) v (convWrite P .A (P.reg .cr) v f)

/-- The converter registers after `enableBoth` (R192). -/
abbrev poweredUp (P : Params) (f : ConvFile) : ConvFile := controlBoth P (P.prescale ||| P.enBit) f

/-- The converter registers after `disableBoth` (R194). -/
abbrev poweredDown (P : Params) (f : ConvFile) : ConvFile := controlBoth P P.prescale f

theorem leads_controlBoth (hP : P.Lawful) (hs : Rested s) {v : Word} (hv : Word.trunc P.payloadW v = v) :
    Leads P s (writeNamed P .A .cr v ++ writeNamed P .B .cr v) f es (controlBoth P v f) es :=
  (leads_writeNamed hP hs .A .cr hv).append (leads_writeNamed hP hs .B .cr hv)

/-- The converter registers after one unit's part of bring-up, its two responses `p` (R203). -/
def bringupUnit (P : Params) (u : ConvUnit) (p : Word × Word) (f : ConvFile) : ConvFile :=
  if P.units u then
    convWrite P u (P.reg .acr2) P.res8 <| convWrite P u (P.reg .acr1) P.res10 <|
      sixCorrections P u (calGain (codeOf p.1) (codeOf p.2)) ((calOffset (codeOf p.1) (codeOf p.2)).setWidth 32) f
  else f

theorem leads_bringupUnit (hP : P.Lawful) (hs : Rested s) {u : ConvUnit} {p : Word × Word}
    (hu : unitEnabled P u f = true) (hg : (codeOf p.1).toNat < (codeOf p.2).toNat) :
    Leads P s (bringupUnitActs P u) f (p.1 :: p.2 :: es) (bringupUnit P u p f)
      (if P.units u then es else p.1 :: p.2 :: es) := by
  unfold bringupUnitActs bringupUnit
  split
  · exact ((leads_calibrate hP hs hu hg).append (leads_writeNamed hP hs u .acr1 hP.res10_fits)).append
      (leads_writeNamed hP hs u .acr2 hP.res8_fits)
  · exact leads_nil

theorem raises_bringupUnit (hP : P.Lawful) (hs : Rested s) {u : ConvUnit} {a b : Word}
    (hc : P.units u = true) (hu : unitEnabled P u f = true) (hg : (codeOf b).toNat ≤ (codeOf a).toNat) :
    Raises P s (bringupUnitActs P u) f (a :: b :: es) (.degenerate (codeOf a) (codeOf b)) := by
  rw [bringupUnitActs, if_pos hc]
  exact ((raises_calibrate hP hs hu hg).append _).append _

end

/-! ### What the parts leave in the converter registers -/

theorem convRead_controlBoth (v : Word) (f : ConvFile) (u : ConvUnit) :
    convRead P u (P.reg .cr) (controlBoth P v f) = v := by
  cases u with
  | A => rw [controlBoth, convRead_convWrite_of_ne (u := .B) _ _ (.inl (by decide)), convRead_convWrite_same]
  | B => exact convRead_convWrite_same ..

theorem convRead_controlBoth_other (v : Word) (f : ConvFile) (u : ConvUnit) {q : RegIndex} (h : q ≠ P.reg .cr) :
    convRead P u q (controlBoth P v f) = convRead P u q f := by
  rw [controlBoth, convRead_convWrite_of_ne _ _ (.inr h), convRead_convWrite_of_ne _ _ (.inr h)]

/-- The enable bit is the one the value for power-up adds to the prescale value, which has none (R38, R193). -/
theorem unitEnabled_poweredUp (hP : P.Lawful) (f : ConvFile) (u : ConvUnit) :
    unitEnabled P u (poweredUp P f) = true := by
  simp [unitEnabled, convRead_controlBoth, BitVec.and_or_distrib_right, hP.prescale_en_disjoint,
    OneBit_ne_zero hP.en_oneBit]

theorem unitEnabled_poweredDown (hP : P.Lawful) (f : ConvFile) (u : ConvUnit) :
    unitEnabled P u (poweredDown P f) = false := by
  simp [unitEnabled, convRead_controlBoth, hP.prescale_en_disjoint]

/-- The corrections reach the unit's six correction registers and no other. -/
theorem convRead_sixCorrections_other (u w : ConvUnit) (q : RegIndex) (gain offset : Word) (f : ConvFile)
    (h : w ≠ u ∨ ∀ m, q ≠ P.reg (.gcc m) ∧ q ≠ P.reg (.occ m)) :
    convRead P w q (sixCorrections P u gain offset f) = convRead P w q f := by
  rw [sixCorrections, convRead_convWrite_of_ne _ _ (h.imp_right fun hq => (hq .alt2).2),
    convRead_fiveCorrections_other u w q gain offset f h]

theorem convRead_sixCorrections_gain (hP : P.Lawful) (u : ConvUnit) (gain offset : Word) (f : ConvFile)
    (m : PrecMode) :
    convRead P u (P.reg (.gcc m)) (sixCorrections P u gain offset f) = Word.trunc P.payloadW gain := by
  rw [sixCorrections, convRead_convWrite_named hP, if_neg nofun, convRead_fiveCorrections_gain hP]

theorem convRead_sixCorrections_offset (hP : P.Lawful) (u : ConvUnit) (gain offset : Word) (f : ConvFile)
    (m : PrecMode) :
    convRead P u (P.reg (.occ m)) (sixCorrections P u gain offset f) = Word.trunc P.payloadW offset := by
  rw [sixCorrections, convRead_convWrite_named hP]
  split
  next => rfl
  next h => exact convRead_fiveCorrections_offset hP u gain offset f fun hm => h ⟨rfl, by rw [hm]⟩

/-- One unit's part of bring-up reaches only that unit's named registers, and not its control register. -/
theorem convRead_bringupUnit_other (u w : ConvUnit) (p : Word × Word) (q : RegIndex) (f : ConvFile)
    (h : P.units u = true → w ≠ u ∨ ∀ n, n ≠ .cr → q ≠ P.reg n) :
    convRead P w q (bringupUnit P u p f) = convRead P w q f := by
  unfold bringupUnit
  split
  next hc =>
    have other := h hc
    rw [convRead_convWrite_of_ne _ _ (other.imp_right fun hq => hq .acr2 nofun),
      convRead_convWrite_of_ne _ _ (other.imp_right fun hq => hq .acr1 nofun),
      convRead_sixCorrections_other _ _ _ _ _ _ (other.imp_right fun hq m => ⟨hq _ nofun, hq _ nofun⟩)]
  next => rfl

/-- What a configured unit's part of bring-up leaves in that unit: its constants and its resolution selects (R203). -/
theorem convRead_bringupUnit_of_configured (hP : P.Lawful) {u : ConvUnit} (hc : P.units u = true) (p : Word × Word)
    (f : ConvFile) :
    (∀ m, convRead P u (P.reg (.gcc m)) (bringupUnit P u p f) =
          Word.trunc P.payloadW (calGain (codeOf p.1) (codeOf p.2)) ∧
        convRead P u (P.reg (.occ m)) (bringupUnit P u p f) =
          Word.trunc P.payloadW ((calOffset (codeOf p.1) (codeOf p.2)).setWidth 32)) ∧
      convRead P u (P.reg .acr1) (bringupUnit P u p f) = P.res10 ∧
      convRead P u (P.reg .acr2) (bringupUnit P u p f) = P.res8 := by
  simp [bringupUnit, hc, convRead_convWrite_named hP, convRead_sixCorrections_gain hP, convRead_sixCorrections_offset hP]

/-- The converter registers a bring-up with no error leaves, unit A's responses `pA`, unit B's `pB` (R203). -/
def bringupConv (P : Params) (pA pB : Word × Word) (f : ConvFile) : ConvFile :=
  poweredDown P (bringupUnit P .B pB (bringupUnit P .A pA (poweredUp P f)))

/-- In each unit's registers, but for the control register, only that unit's own part shows. -/
theorem convRead_bringupConv (pA pB : Word × Word) (f : ConvFile) (u : ConvUnit) :
    ∃ g, ∀ q, q ≠ P.reg .cr → convRead P u q g = convRead P u q f ∧
      convRead P u q (bringupConv P pA pB f) = convRead P u q (bringupUnit P u (if u = .B then pB else pA) g) := by
  cases u with
  | A =>
    refine ⟨_, fun q hq => ⟨convRead_controlBoth_other (P.prescale ||| P.enBit) f .A hq, ?_⟩⟩
    exact (convRead_controlBoth_other _ _ .A hq).trans
      (convRead_bringupUnit_other .B .A pB q _ fun _ => .inl (by decide))
  | B =>
    refine ⟨bringupUnit P .A pA (poweredUp P f), fun q hq => ⟨?_, ?_⟩⟩
    · rw [convRead_bringupUnit_other .A .B pA q _ fun _ => .inl (by decide), convRead_controlBoth_other _ _ .B hq]
    · exact convRead_controlBoth_other _ _ .B hq

theorem convRead_bringupConv_of_configured (hP : P.Lawful) (pA pB : Word × Word) (f : ConvFile) {u : ConvUnit}
    (hc : P.units u = true) {p : Word × Word} (hp : p = if u = .B then pB else pA) :
    (∀ m, convRead P u (P.reg (.gcc m)) (bringupConv P pA pB f) =
          Word.trunc P.payloadW (calGain (codeOf p.1) (codeOf p.2)) ∧
        convRead P u (P.reg (.occ m)) (bringupConv P pA pB f) =
          Word.trunc P.payloadW ((calOffset (codeOf p.1) (codeOf p.2)).setWidth 32)) ∧
      convRead P u (P.reg .acr1) (bringupConv P pA pB f) = P.res10 ∧
      convRead P u (P.reg .acr2) (bringupConv P pA pB f) = P.res8 ∧
      ∀ q, (∀ n, q ≠ P.reg n) → convRead P u q (bringupConv P pA pB f) = convRead P u q f := by
  obtain ⟨g, hg⟩ := convRead_bringupConv (P := P) pA pB f u
  obtain ⟨constants, acr1, acr2⟩ := convRead_bringupUnit_of_configured hP hc p g
  have named {n : NamedReg} (hn : n ≠ .cr) : convRead P u (P.reg n) (bringupConv P pA pB f) =
      convRead P u (P.reg n) (bringupUnit P u p g) :=
    hp ▸ (hg (P.reg n) fun e => hn (hP.reg_injective _ _ e)).2
  refine ⟨fun m => ⟨(named (n := .gcc m) nofun).trans (constants m).1, (named (n := .occ m) nofun).trans (constants m).2⟩,
    (named (n := .acr1) nofun).trans acr1, (named (n := .acr2) nofun).trans acr2, fun q hq => ?_⟩
  obtain ⟨found, left⟩ := hg q (hq .cr)
  rw [left, convRead_bringupUnit_other u u _ q g fun _ => .inr fun n _ => hq n, found]

theorem convRead_bringupConv_of_not_configured (pA pB : Word × Word) (f : ConvFile) {u : ConvUnit}
    (hc : ¬P.units u = true) {q : RegIndex} (hq : q ≠ P.reg .cr) :
    convRead P u q (bringupConv P pA pB f) = convRead P u q f := by
  obtain ⟨g, hg⟩ := convRead_bringupConv (P := P) pA pB f u
  obtain ⟨found, left⟩ := hg q hq
  rw [left, convRead_bringupUnit_other u u _ q g fun h => absurd h hc, found]

/-! ### Bring-up from its start to its end -/

/-- The state bring-up's `enable` makes of the clean entry state (R93, R203). -/
def bringupEnabled (s : State) : State := { s with ctrl := ⟨.swss, 0#32⟩, notify := 0#32 }

/-- The state bring-up's clean-up leaves (R107, R204). -/
def bringupEnd (s : State) (f : ConvFile) (o : Oracle) : State :=
  { s with ctrl := ⟨.disabled, 0#32⟩, notify := 0#32, cmdFifo := [], conv := f, flags := 0#32, oracle := o }

section
variable {s : State}

theorem rested_bringupEnabled (h : Clean P s) : Rested (bringupEnabled s) := ⟨nofun, h.busy, h.respFifo⟩

theorem settles_bringupEnabled (h : Clean P s) (he : s.oracle.sched = .eager) :
    Settles P (bringupEnabled s) (bringupEnabled s) s.conv s.oracle.responses := by
  refine ⟨s.flags, s.oracle, he, rfl, ?_⟩
  rw [interleave_eager_still (s := bringupEnabled s) he (engineStep_quiescent h.busy (.inr h.cmdFifo))]
  simp only [bringupEnabled, h.cmdFifo]

/-- Bring-up's `enable` writes CTRL and NOTIFY of a queue that has nothing to do (R203). -/
theorem runBlock_bringup_enable (hP : P.Lawful) (h : Clean P s) (he : s.oracle.sched = .eager) (rest : List CallerAct)
    (t : Temps) :
    runBlock P true (enableActs (ctrlBringup P) notifyBringup ++ rest) t s =
      runBlock P false rest t (bringupEnabled s) := by
  have turn : interleave P { s with ctrl := ⟨.swss, 0#32⟩ } = { s with ctrl := ⟨.swss, 0#32⟩ } :=
    interleave_eager_still he (engineStep_quiescent h.busy (.inr h.cmdFifo))
  rw [enableActs, List.cons_append, List.cons_append, List.nil_append,
    runBlock_cons_ok (t' := t) (s' := { s with ctrl := ⟨.swss, 0#32⟩ }),
    runBlock_cons_ok (t' := t) (s' := bringupEnabled s)]
  · rw [if_neg nofun, turn]
    rfl
  · simp [runAct, regWrite, onWrite, ctrlOfWord_ctrlBringup hP, invSet_ctrlBringup hP]

/-- Bring-up's clean-up, from a settled queue: both units powered down, the queue disabled (R204). -/
theorem runBlocks_bringup_cleanup (hP : P.Lawful) (hs : Rested s) (first : Err) (t : Temps) {s0 : State} {f : ConvFile}
    {es : List Word} (h : Settles P s s0 f es) :
    ∃ o, runBlocks P false [disableBothActs P, disableActs P] first t s0 =
      finish first (bringupEnd s (poweredDown P f) o) := by
  obtain ⟨s1, t1, ⟨flags, o, -, -, turn⟩, run⟩ := leads_controlBoth hP hs hP.prescale_fits [] t s0 h
  rw [List.append_nil, runBlock] at run
  have start : runBlocks P false [disableActs P] first t1 s1 =
      runBlocks P true [disableActs P] first t1 (interleave P s1) := rfl
  rw [disableBothActs, runBlocks_cons_done run, start, turn, runBlocks_disable_start hP]
  obtain ⟨o1, poll⟩ := atDisablePoll_idle (P := P) (s := { s with
    cmdFifo := [], conv := poweredDown P f, flags := flags, oracle := o }) hs.busy
  obtain ⟨o2, done⟩ := runBlocks_disable_idle hP first t1 (s := { s with
    ctrl := ⟨.disabled, 0#32⟩, notify := 0#32, cmdFifo := [], conv := poweredDown P f, flags := flags,
    oracle := o1 }) hs.busy rfl
  exact ⟨o2, by rw [poll, done]; rfl⟩

/-- Bring-up's try block from a clean start: `enable` and `enableBoth`, then the units' parts on a settled queue. -/
theorem runBlock_bringup_try (hP : P.Lawful) (h : Clean P s) (he : s.oracle.sched = .eager) (t : Temps) :
    ∃ s0 t0, Settles P (bringupEnabled s) s0 (poweredUp P s.conv) s.oracle.responses ∧
      runBlock P true (bringupTryActs P) t s =
        runBlock P false ((bringupUnitActs P .A ++ bringupUnitActs P .B) ++ []) t0 s0 := by
  have fits : Word.trunc P.payloadW (P.prescale ||| P.enBit) = P.prescale ||| P.enBit := by
    rw [trunc_or, hP.prescale_fits, hP.enBit_fits]
  obtain ⟨s0, t0, settles, run⟩ := leads_controlBoth hP (rested_bringupEnabled h) fits
    ((bringupUnitActs P .A ++ bringupUnitActs P .B) ++ []) t _ (settles_bringupEnabled h he)
  refine ⟨s0, t0, settles, Eq.trans ?_ run⟩
  rw [← runBlock_bringup_enable hP h he]
  simp only [bringupTryActs, enableBothActs, List.append_assoc, List.append_nil]

/-- Bring-up whose units' parts are done completes (R203). -/
theorem bringupOp_completes (hP : P.Lawful) (h : Clean P s) (hop : s.op = none) (he : s.oracle.sched = .eager)
    {f : ConvFile} {es : List Word}
    (units : Leads P (bringupEnabled s) (bringupUnitActs P .A ++ bringupUnitActs P .B) (poweredUp P s.conv)
      s.oracle.responses f es) :
    ∃ o, bringupOp P s = finish .ok (bringupEnd s (poweredDown P f) o) := by
  obtain ⟨s0, t0, settles0, run0⟩ := runBlock_bringup_try hP h he .start
  obtain ⟨s1, t1, settles1, run1⟩ := units [] t0 s0 settles0
  obtain ⟨o, cleanup⟩ := runBlocks_bringup_cleanup hP (rested_bringupEnabled h) .ok t1 settles1
  exact ⟨o, (perform_of_none _ hop).trans ((runBlocks_cons_done (run0.trans run1) _ .ok).trans cleanup)⟩

/-- Bring-up whose units' parts raise reports that error, the clean-up done (R204). -/
theorem bringupOp_raises (hP : P.Lawful) (h : Clean P s) (hop : s.op = none) (he : s.oracle.sched = .eager) {e : Err}
    (units : Raises P (bringupEnabled s) (bringupUnitActs P .A ++ bringupUnitActs P .B) (poweredUp P s.conv)
      s.oracle.responses e) :
    ∃ o, bringupOp P s = finish e (bringupEnd s (poweredDown P (poweredUp P s.conv)) o) := by
  obtain ⟨s0, t0, settles0, run0⟩ := runBlock_bringup_try hP h he .start
  obtain ⟨s1, t1, es, settles1, run1⟩ := units [] t0 s0 settles0
  obtain ⟨o, cleanup⟩ := runBlocks_bringup_cleanup hP (rested_bringupEnabled h) e t1 settles1
  exact ⟨o, (perform_of_none _ hop).trans ((runBlocks_cons_raised (run0.trans run1) _ .ok).trans cleanup)⟩

theorem finish_bringupEnd_post (h : Clean P s) (first : Err) (f : ConvFile) (o : Oracle) :
    DisabledPost (finish first (bringupEnd s f o)) := by
  unfold finish
  split <;> exact ⟨rfl, rfl, rfl, h.busy, rfl, rfl⟩

end

/-! ### The two ends of bring-up -/

/-- The two units' parts, each with the next two responses, A first (R203). -/
theorem leads_bringupUnits (hP : P.Lawful) {s : State} (hs : Rested s) {f : ConvFile} {e1 e2 e3 e4 : Word}
    {es : List Word} (hen : ∀ u, unitEnabled P u f = true) (h12 : (codeOf e1).toNat < (codeOf e2).toNat)
    (h34 : (codeOf e3).toNat < (codeOf e4).toNat) :
    ∃ es', Leads P s (bringupUnitActs P .A ++ bringupUnitActs P .B) f (e1 :: e2 :: e3 :: e4 :: es)
      (bringupUnit P .B (if P.units .A = true then (e3, e4) else (e1, e2)) (bringupUnit P .A (e1, e2) f)) es' := by
  have first := leads_bringupUnit (es := e3 :: e4 :: es) (p := (e1, e2)) hP hs (hen .A) h12
  have hB : unitEnabled P .B (bringupUnit P .A (e1, e2) f) = true := by
    rw [unitEnabled, convRead_bringupUnit_other .A .B _ _ _ fun _ => .inl (by decide)]
    exact hen .B
  by_cases hA : P.units .A = true
  · rw [if_pos hA] at first ⊢
    exact ⟨_, first.append (leads_bringupUnit (p := (e3, e4)) hP hs hB h34)⟩
  · rw [if_neg hA] at first ⊢
    exact ⟨_, first.append (leads_bringupUnit (p := (e1, e2)) hP hs hB h12)⟩

/-- With the first pair degenerate, the first configured unit's part raises; with no unit configured, none is there. -/
theorem bringupOp_degenerate (hP : P.Lawful) {s : State} {e1 e2 : Word} {es : List Word} (h : Clean P s)
    (hop : s.op = none) (he : s.oracle.sched = .eager) (hresp : s.oracle.responses = e1 :: e2 :: es)
    (h21 : (codeOf e2).toNat ≤ (codeOf e1).toNat) :
    ∃ o, bringupOp P s = finish
      (if P.units .A = true ∨ P.units .B = true then .degenerate (codeOf e1) (codeOf e2) else .ok)
      (bringupEnd s (poweredDown P (poweredUp P s.conv)) o) := by
  have raises {u : ConvUnit} (hc : P.units u = true) :=
    raises_bringupUnit (es := es) hP (rested_bringupEnabled h) hc (unitEnabled_poweredUp hP s.conv u) h21
  rw [← hresp] at raises
  by_cases hA : P.units .A = true
  · rw [if_pos (.inl hA)]
    exact bringupOp_raises hP h hop he ((raises hA).append _)
  have noA : bringupUnitActs P .A = [] := if_neg hA
  by_cases hB : P.units .B = true
  · rw [if_pos (.inr hB)]
    exact bringupOp_raises hP h hop he (noA ▸ leads_nil.append_raises (raises hB))
  · have noB : bringupUnitActs P .B = [] := if_neg hB
    rw [if_neg (not_or.2 ⟨hA, hB⟩)]
    exact bringupOp_completes hP h hop he (by rw [noA, noB]; exact leads_nil)

/-- Settles O58: every part of bring-up is done, and the registers are those of the parts in turn. -/
theorem bringupFromCleanCalibratesAndPowersDown : Obligations.BringupFromCleanCalibratesAndPowersDown := by
  intro s e1 e2 e3 e4 rest h hop herr he hresp h12 h34
  have hP := Config.params_lawful
  obtain ⟨es', units⟩ := leads_bringupUnits (es := rest) hP (rested_bringupEnabled h)
    (unitEnabled_poweredUp hP s.conv) h12 h34
  rw [← hresp] at units
  obtain ⟨o, run⟩ := bringupOp_completes hP h hop he units
  refine ⟨_, congrArg Host.Outcome.next run, rfl, rfl, herr, finish_bringupEnd_post h .ok _ o,
    engineStep_quiescent h.busy (.inl rfl), h.respFifo, rfl, rfl, h.refused, rfl,
    fun u => ⟨convRead_controlBoth _ _ u, unitEnabled_poweredDown hP _ u⟩, fun u => ?_⟩
  split
  next hc =>
    refine ⟨fun a b hab => ?_, ?_⟩
    · exact (convRead_bringupConv_of_configured hP _ _ s.conv hc (hab.trans (ite_and ..))).1
    · exact (convRead_bringupConv_of_configured hP _ _ s.conv hc rfl).2
  next hc => exact fun q => convRead_bringupConv_of_not_configured _ _ s.conv hc

/-- Settles O59: the clean-up runs whichever way the units' parts end, and the control writes are all that was written. -/
theorem bringupCleansUpAfterAnError : Obligations.BringupCleansUpAfterAnError := by
  intro s e1 e2 rest h hop herr he hresp h21
  obtain ⟨o, run⟩ := bringupOp_degenerate Config.params_lawful h hop he hresp h21
  have control (u q) (hq : q ≠ Config.params.reg .cr) := (convRead_controlBoth_other Config.params.prescale _ u hq).trans
    (convRead_controlBoth_other (Config.params.prescale ||| Config.params.enBit) s.conv u hq)
  refine ⟨_, congrArg Host.Outcome.next run, ?_⟩
  split
  · exact ⟨rfl, finish_bringupEnd_post h _ _ o, h.respFifo, convRead_controlBoth _ _, control, rfl, rfl⟩
  · exact ⟨rfl, finish_bringupEnd_post h _ _ o, h.respFifo, convRead_controlBoth _ _, control, herr, rfl⟩

end Sys2Proof.Machine
end

section
/-! PROOF. How the exceptions end (R227 to R229): a refused run stops, and an operation that reads a host variable nothing
has written records the fault and completes. -/

namespace Sys2Proof.Machine

/-! ### A refused run -/

/-- Settles O8: the refusal mark is the first thing a step looks at. -/
theorem refusedRunHasNoFurtherMeaning : Obligations.RefusedRunHasNoFurtherMeaning :=
  fun _ refused => if_pos refused

/-! ### A host variable nothing has written -/

theorem withVar_of_none {s : State} {i : HostVar} (h : readVar s i = none) (k : Word → State) :
    withVar s i k = s.faultOut .unwrittenHostVar := by
  simp only [withVar, h]

/-- Of two operands read one after the other, whichever is unwritten, the fault is the same (R228). -/
theorem withVar_withVar_of_none {s : State} {i j : HostVar} (h : readVar s i = none ∨ readVar s j = none)
    (k : Word → Word → State) :
    withVar s i (fun a => withVar s j (k a)) = s.faultOut .unwrittenHostVar := by
  cases hi : readVar s i with
  | none => exact withVar_of_none hi _
  | some a =>
    have hj : readVar s j = none := h.resolve_left (hi ▸ Option.some_ne_none a)
    rw [withVar_of_some hi, withVar_of_none hj]

/-- With no operation in progress, one that starts by reading an unwritten variable ends there. -/
theorem perform_of_faultOut {P : Params} {start : State → State} {s : State} (hs : s.op = none)
    (h : start s = s.faultOut .unwrittenHostVar) :
    perform P start s =
      { s with faults := { s.faults with unwrittenHostVar := true }, pc := s.pc + 1 } := by
  rw [perform_of_none _ hs, h, State.faultOut, State.complete, State.recordFault, hs]

/-- Settles O46: each of the four operations reads its operands before it does anything else; REGWR tests its index first,
which is in the set. -/
theorem unwrittenHostVariableFaults : Obligations.UnwrittenHostVariableFaults := by
  intro s a b
  constructor
  · intro h
    exact ⟨congrArg Host.Outcome.next (withVar_withVar_of_none h _),
      fun _ _ => congrArg Host.Outcome.next (withVar_withVar_of_none h _)⟩
  · intro ha hs
    refine ⟨congrArg Host.Outcome.next (perform_of_faultOut hs (withVar_of_none ha _)), fun u r hr => ?_⟩
    have inSet : regInSet Config.params r = true := decide_eq_true hr
    exact congrArg Host.Outcome.next (perform_of_faultOut hs ((if_pos inSet).trans (withVar_of_none ha _)))

end Sys2Proof.Machine
end

section
/-! PROOF. Where a run begins and where it ends (R250, R251, R258): the state after reset meets the invariants, and a
step finds nothing to do exactly when the run has ended. -/

namespace Sys2Proof.Machine

open Sys2Proof.Safety

/-! ### The end of a run -/

/-- With no caller step left, the machine's answer is that the run has ended exactly when no engine step is enabled. -/
theorem engineOnly_runEnded_iff {P : Params} {s : State} :
    engineOnly P s = .fault .runEnded ↔ engineStep P s = none := by
  cases h : engineStep P s <;> simp [engineOnly, h]

theorem step_of_callerDone {s : State} (hr : s.refused = false) (h : CallerDone s) :
    step s = engineOnly Config.params s := by
  rcases h with herr | hpc
  · simp [step, hr, herr]
  · simp [step, hr, List.getElem?_eq_none hpc]

/-- A caller with an operation left always moves: a word that spells none is refused, and an instruction gives a next
state (R21, R86). -/
theorem step_next_of_not_callerDone {s : State} (hr : s.refused = false) (h : ¬CallerDone s) :
    ∃ t, step s = .next t := by
  obtain ⟨herr, hpc⟩ := not_or.1 h
  have ok : s.err = .ok := not_not.1 herr
  have fetch := List.getElem?_eq_getElem (Nat.not_le.1 hpc)
  cases hd : decode s.program[s.pc] with
  | error => exact ⟨s.markRefused, by simp [step, hr, ok, fetch, hd]⟩
  | ok i =>
    obtain ⟨t, ht⟩ := exec_next i (interleave Config.params s)
    exact ⟨t, step_exec hr ok fetch hd ht⟩

/-- Settles O14: a caller that is done leaves the step to the engine, and one that is not takes a step, which
is no end. -/
theorem runEndsExactlyWhenNothingIsLeft : Obligations.RunEndsExactlyWhenNothingIsLeft := by
  intro s hr
  by_cases done : CallerDone s
  · rw [step_of_callerDone hr done, engineOnly_runEnded_iff]
    exact and_iff_right done
  · obtain ⟨t, next⟩ := step_next_of_not_callerDone hr done
    simp [Ended, done, next]

/-! ### The state after reset -/

/-- Each free value of reset is drawn within its type: a FIFO cut to its depth, flags to their width, CTRL as a write of
the drawn word stores it (R250, R251). -/
theorem reset_queueInv : QueueInv Config.params State.reset :=
  ⟨List.length_take_le _ _, List.length_take_le _ _, Word.trunc_trunc _ _, ctrlOfWord_ctrlWord _ _, convWf_reset _⟩

theorem readVar_reset (i : HostVar) : readVar State.reset i = none := by
  simp [readVar, State.reset, Vector.get_eq_getElem]

/-- Settles O12: the queue's invariants hold of every draw, and no operation holds at reset, so none is past its
bound. -/
theorem resetMeetsTheInvariants : Obligations.ResetMeetsTheInvariants :=
  ⟨(inv_iff _ _).2 ⟨reset_queueInv, .of_none rfl⟩, rfl, rfl, readVar_reset⟩

end Sys2Proof.Machine
end
